-- ==== Sys2Proof/Word.lean ====
section
/-! DEFINITION. The word types of the engine (00_scope.md R12, R15, R17). -/

namespace Sys2Proof

/-- One byte of memory or of a Block. -/
abbrev Byte := BitVec 8

/-- The content of an X register, an effective address, a CSR value: XLEN = 128 bits (R12). -/
abbrev Word := BitVec 128

/-- A Block (R17): the content of a V register or of a round key, BLOCK_BITS = 128 bits. -/
abbrev Block := BitVec 128

/-- A 32-bit word of a Block, which is also a column of the AES state (10_state.md R27). -/
abbrev Column := BitVec 32

/-- An instruction word: ILEN = 32 bits (R12). -/
abbrev InstrWord := BitVec 32

/-- The program counter: PCLEN = 32 bits (R12). -/
abbrev CodeAddr := BitVec 32

end Sys2Proof
end

