-- ==== Sys2Proof/Machine/Blocks.lean ====
section
/-! DEFINITION. Blocks as bytes and as 32-bit words (00_scope.md R17, 10_state.md R27), and the pure functions of the Block
helper instructions (41_block_ops_and_aes_functions.md R131 to R135). -/

namespace Sys2Proof.Machine

/-- `byte(b, i)`: bits 8i+7 : 8i (R17). -/
def byteOf (b : Block) (i : Nat) : Byte := b.extractLsb' (8 * i) 8

/-- `word(b, j)`: bits 32j+31 : 32j (R17). -/
def wordOf (b : Block) (j : Nat) : Column := b.extractLsb' (32 * j) 32

/-- The Block whose byte i is `f i` for i from 0 to 15. -/
def blockOfBytes (f : Nat → Byte) : Block :=
  f 15 ++ f 14 ++ f 13 ++ f 12 ++ f 11 ++ f 10 ++ f 9 ++ f 8 ++ f 7 ++ f 6 ++ f 5 ++ f 4 ++ f 3 ++ f 2 ++ f 1 ++ f 0

/-- The Block whose word j is `f j` for j from 0 to 3. -/
def blockOfWords (f : Nat → Column) : Block := f 3 ++ f 2 ++ f 1 ++ f 0

/-- Byte i of a word, i from 0 to 3. -/
def columnByte (w : Column) (i : Nat) : Byte := w.extractLsb' (8 * i) 8

/-- The word whose bytes, from the least significant, are `b0` to `b3`. -/
def columnOfBytes (b0 b1 b2 b3 : Byte) : Column := b3 ++ b2 ++ b1 ++ b0

/-- The Block that a text of 32 hexadecimal digits denotes, byte 0 first (R17); the text is given as a 128-bit number. -/
def blockOfText (t : BitVec 128) : Block := blockOfBytes fun i => byteOf t (15 - i)

/-- `VXOR` (R131), which is `AddRoundKey` (R127). -/
def vxor (a b : Block) : Block := a ^^^ b

/-- `VSHUFW` (R132): word j of the result is word `imm8[2j+1 : 2j]` of the source. -/
def vshufw (s : Block) (imm8 : BitVec 8) : Block := blockOfWords fun j => wordOf s (imm8.extractLsb' (2 * j) 2).toNat

/-- `VSLLB` (R133): the Block moved `imm8` bytes toward higher byte numbers; zero past 15. -/
def vsllb (s : Block) (imm8 : BitVec 8) : Block := if 15 < imm8.toNat then 0 else s <<< (8 * imm8.toNat)

/-- One word of `VRORW` (R134): rotated right by `n` bits, `n` below 32. -/
def rorWord (w : Column) (n : Nat) : Column := if n = 0 then w else (w >>> n) ||| (w <<< (32 - n))

/-- `VRORW` (R134). -/
def vrorw (s : Block) (n : Nat) : Block := blockOfWords fun j => rorWord (wordOf s j) n

/-- `VIMMW` (R135): the immediate, zero-extended, in every word. -/
def vimmw (imm16 : BitVec 16) : Block := blockOfWords fun _ => imm16.setWidth 32

end Sys2Proof.Machine
end

