-- ==== Sys2Proof/Machine/AesFunctions.lean ====
section
/-! DEFINITION. The functions of AES (41_block_ops_and_aes_functions.md R120 to R127), of the two instruction families
(42_aes_x86_primitives.md R151 to R153, 43_aes_arm_primitives.md R161, R162), and of the whole-cipher operations
(44_aes_cipher_ops.md R171 to R178): pure functions on Blocks. -/

namespace Sys2Proof.Machine

/-! The field GF(2^8) (R120). -/

/-- `xtime` (R120): doubling modulo 0x11B. -/
def xtime (a : Byte) : Byte := if a.getLsbD 7 then (a <<< 1) ^^^ 0x1b else a <<< 1

/-- `xtime` applied n times. -/
def xtimes (n : Nat) (a : Byte) : Byte :=
  match n with
  | 0 => a
  | k + 1 => xtime (xtimes k a)

/-- `gmul(a, b)` (R120): the xor of `xtime^i(a)` over the set bits i of `b`. -/
def gmul (a b : Byte) : Byte :=
  (List.range 8).foldl (fun acc i => if b.getLsbD i then acc ^^^ xtimes i a else acc) 0

/-! The S-box and the round functions. -/

/-- The rows of the S-box table of R121, each written as the table has it: the entry of column 0 first. -/
def sboxRows : List (BitVec 128) :=
    [0x637c777bf26b6fc53001672bfed7ab76,
     0xca82c97dfa5947f0add4a2af9ca472c0,
     0xb7fd9326363ff7cc34a5e5f171d83115,
     0x04c723c31896059a071280e2eb27b275,
     0x09832c1a1b6e5aa0523bd6b329e32f84,
     0x53d100ed20fcb15b6acbbe394a4c58cf,
     0xd0efaafb434d338545f9027f503c9fa8,
     0x51a3408f929d38f5bcb6da2110fff3d2,
     0xcd0c13ec5f974417c4a77e3d645d1973,
     0x60814fdc222a908846eeb814de5e0bdb,
     0xe0323a0a4906245cc2d3ac629195e479,
     0xe7c8376d8dd54ea96c56f4ea657aae08,
     0xba78252e1ca6b4c6e8dd741f4bbd8b8a,
     0x703eb5664803f60e613557b986c11d9e,
     0xe1f8981169d98e949b1e87e9ce5528df,
     0x8ca1890dbfe6426841992d0fb054bb16]

/-- `SBOX[a]` (R121): row of the high hexadecimal digit, column of the low digit. -/
def sbox (a : Byte) : Byte :=
  (sboxRows.getD (a.toNat / 16) 0).extractLsb' (8 * (15 - a.toNat % 16)) 8

/-- `SubBytes` (R122). -/
def subBytes (b : Block) : Block := blockOfBytes fun i => sbox (byteOf b i)

/-- `ShiftRows` (R123): state byte (r, c), which is byte r + 4c, comes from column (c + r) mod 4. -/
def shiftRows (b : Block) : Block := blockOfBytes fun i => byteOf b (i % 4 + 4 * ((i / 4 + i % 4) % 4))

/-- One column of `MixColumns` (R124). -/
def mixColumn (w : Column) : Column :=
  let a0 := columnByte w 0
  let a1 := columnByte w 1
  let a2 := columnByte w 2
  let a3 := columnByte w 3
  columnOfBytes
    (gmul a0 2 ^^^ gmul a1 3 ^^^ a2 ^^^ a3)
    (a0 ^^^ gmul a1 2 ^^^ gmul a2 3 ^^^ a3)
    (a0 ^^^ a1 ^^^ gmul a2 2 ^^^ gmul a3 3)
    (gmul a0 3 ^^^ a1 ^^^ a2 ^^^ gmul a3 2)

/-- `MixColumns` (R124). -/
def mixColumns (b : Block) : Block := blockOfWords fun j => mixColumn (wordOf b j)

/-- `SubWord` (R125). -/
def subWord (w : Column) : Column :=
  columnOfBytes (sbox (columnByte w 0)) (sbox (columnByte w 1)) (sbox (columnByte w 2)) (sbox (columnByte w 3))

/-- `RotWord` (R125): the byte of row 0 moves to row 3. -/
def rotWord (w : Column) : Column := (w >>> 8) ||| (w <<< 24)

/-- `RCON[r]` (R126), r from 1 to 10; `RCON[0]` does not exist and nothing reads it. -/
def rcon (r : Nat) : Byte :=
  match r with
  | 0 => 0
  | 1 => 0x01
  | k + 2 => xtime (rcon (k + 1))

/-! The x86 family (42_aes_x86_primitives.md), without the capability check. -/

/-- `AESENC` (R151). -/
def aesenc (s k : Block) : Block := mixColumns (shiftRows (subBytes s)) ^^^ k

/-- `AESENCLAST` (R152). -/
def aesenclast (s k : Block) : Block := shiftRows (subBytes s) ^^^ k

/-- `AESKEYGENASSIST` (R153). -/
def aeskeygenassist (s : Block) (imm8 : BitVec 8) : Block :=
  let x1 := wordOf s 1
  let x3 := wordOf s 3
  let rc := imm8.setWidth 32
  blockOfWords fun j =>
    match j with
    | 0 => subWord x1
    | 1 => rotWord (subWord x1) ^^^ rc
    | 2 => subWord x3
    | _ => rotWord (subWord x3) ^^^ rc

/-! The ARM family (43_aes_arm_primitives.md), without the capability check. -/

/-- `AESE` (R161). -/
def aese (s k : Block) : Block := shiftRows (subBytes (s ^^^ k))

/-- `AESMC` (R162). -/
def aesmc (s : Block) : Block := mixColumns s

/-! Key expansion (44_aes_cipher_ops.md R171 to R173): the bank from a rule for round key r out of round key r - 1. -/

/-- Round key `r` of a schedule: the key itself, then each by `next` from the one before. -/
def roundKey (next : Nat → Block → Block) (key : Block) (r : Nat) : Block :=
  match r with
  | 0 => key
  | k + 1 => next (k + 1) (roundKey next key k)

/-- The eleven round keys. -/
def schedule (next : Nat → Block → Block) (key : Block) : Vector Block 11 :=
  Vector.ofFn fun r : Fin 11 => roundKey next key r.val

/-- One round of `KeyExpand` (R171): round key `r` from `p`, round key r - 1. -/
def nextKey (r : Nat) (p : Block) : Block :=
  let t := rotWord (subWord (wordOf p 3)) ^^^ (rcon r).setWidth 32
  let w0 := wordOf p 0 ^^^ t
  let w1 := wordOf p 1 ^^^ w0
  let w2 := wordOf p 2 ^^^ w1
  let w3 := wordOf p 3 ^^^ w2
  blockOfWords fun j =>
    match j with
    | 0 => w0
    | 1 => w1
    | 2 => w2
    | _ => w3

/-- The shift-and-xor steps that both paths share (R172, R173): `k` of the last line, from `p`. -/
def spreadKey (p : Block) : Block :=
  let s1 := vsllb p 4
  let s2 := vsllb s1 4
  let s3 := vsllb s2 4
  vxor (vxor (vxor p s1) s2) s3

/-- One round of `KeyExpandX86` (R172). -/
def nextKeyX86 (r : Nat) (p : Block) : Block :=
  let t := vshufw (aeskeygenassist p (rcon r)) 0xff
  vxor (spreadKey p) t

/-- One round of `KeyExpandARM` (R173). -/
def nextKeyArm (r : Nat) (p : Block) : Block :=
  let z := vimmw 0
  let t := vxor (vrorw (aese (vshufw p 0xff) z) 8) (vimmw ((rcon r).setWidth 16))
  vxor (spreadKey p) t

/-- `KeyExpand` (R171). -/
def keyExpand (key : Block) : Vector Block 11 := schedule nextKey key

/-- `KeyExpandX86` (R172). -/
def keyExpandX86 (key : Block) : Vector Block 11 := schedule nextKeyX86 key

/-- `KeyExpandARM` (R173). -/
def keyExpandArm (key : Block) : Vector Block 11 := schedule nextKeyArm key

/-! Encryption of one Block (R176 to R178). -/

/-- `Encrypt(rk, p)` (R176). -/
def encrypt (rk : Vector Block 11) (p : Block) : Block :=
  let s0 := p ^^^ rk.get 0
  let s9 := ([1, 2, 3, 4, 5, 6, 7, 8, 9] : List (Fin 11)).foldl
    (fun s r => mixColumns (shiftRows (subBytes s)) ^^^ rk.get r) s0
  shiftRows (subBytes s9) ^^^ rk.get 10

/-- `EncryptX86(rk, p)` (R177). -/
def encryptX86 (rk : Vector Block 11) (p : Block) : Block :=
  let s9 := ([1, 2, 3, 4, 5, 6, 7, 8, 9] : List (Fin 11)).foldl (fun s r => aesenc s (rk.get r)) (vxor p (rk.get 0))
  aesenclast s9 (rk.get 10)

/-- `EncryptARM(rk, p)` (R178). -/
def encryptArm (rk : Vector Block 11) (p : Block) : Block :=
  let u9 := ([0, 1, 2, 3, 4, 5, 6, 7, 8] : List (Fin 11)).foldl (fun s r => aesmc (aese s (rk.get r))) p
  vxor (aese u9 (rk.get 9)) (rk.get 10)

end Sys2Proof.Machine
end

