-- ==== Sys2Proof/Syntax.lean ====
section
/-! DEFINITION. The instructions of PFC32 1.0 as terms (30_encoding.md R71 to R78): one constructor per row of the opcode
table, width variants included. -/

namespace Sys2Proof

/-- The number of an X register (R71: a 4-bit field). -/
abbrev XReg := Fin 16

/-- The number of a V register (R71: a 4-bit field). -/
abbrev VReg := Fin 16

/-- The operand width W of a widening instruction or of `LDX` and `STX` (R73). -/
inductive Width where
  | w8 | w16 | w32 | w64 | w128
  deriving DecidableEq, Repr

/-- The carry-in or borrow-in select `cin`, `bin` (R75, 40_widening_arithmetic.md R102). -/
inductive CarrySel where
  /-- Select 0: constant false. -/
  | zero
  /-- Select 1: constant true. -/
  | one
  /-- Select 2: the flag `C`. -/
  | flag
  deriving DecidableEq, Repr

/-- The six control and status registers (10_state.md R38). -/
inductive Csr where
  | cap | ctrl | status | cause | epc | finfo
  deriving DecidableEq, Repr

/-- Why a word or a byte string is no instruction (R79, R80): the decoder rejects by name. The machine treats every one of
them alike, as IllegalInstruction. -/
inductive DecodeError where
  /-- Fewer than four bytes are left. -/
  | tooShort
  /-- The major opcode is outside the opcode map (R77, R80). -/
  | unknownOpcode
  /-- A must-be-zero bit is set (R74). -/
  | mustBeZero
  /-- A width code from 5 to 15 (R73). -/
  | reservedWidth
  /-- A carry-in or borrow-in select from 3 to 15 (R75). -/
  | reservedCarrySelect
  /-- `xl` = `xh` in `WMUL` or `CMUL` (R80). -/
  | sameDestinations
  /-- `VRORW` by more than 31 (R80). -/
  | rotateCount
  /-- `VLDRK` of an index above 10 (R80). -/
  | roundKeyIndex
  /-- `ENCM` with a count above 8 or a run past `V15` (R80). -/
  | batchRun
  /-- A CSR number above 5, or a `CSRW` of another register than `CTRL` (R80). -/
  | csrNumber
  deriving DecidableEq, Repr

/-- The instructions: one constructor per row of the opcode table (R78). -/
inductive Instr where
  /-- `HALT` (R216). -/
  | halt
  /-- `CLRC` (R217). -/
  | clrc
  /-- `SETC` (R218). -/
  | setc
  /-- `CSRR xd, csr` (R219). -/
  | csrr (xd : XReg) (csr : Csr)
  /-- `CSRW csr, xa` (R220); legal only for `CTRL`. -/
  | csrw (csr : Csr) (xa : XReg)
  /-- `JMP target` (R210). -/
  | jmp (off16 : BitVec 16)
  /-- `BZ xa, target` (R211). -/
  | bz (xa : XReg) (off16 : BitVec 16)
  /-- `BNZ xa, target` (R212). -/
  | bnz (xa : XReg) (off16 : BitVec 16)
  /-- `BC target` (R213). -/
  | bc (off16 : BitVec 16)
  /-- `BNC target` (R214). -/
  | bnc (off16 : BitVec 16)
  /-- `LI xd, imm16` (R201). -/
  | li (xd : XReg) (imm16 : BitVec 16)
  /-- `MOVX xd, xa` (R202). -/
  | movx (xd xa : XReg)
  /-- `ADDI xd, xa, simm16` (R203). -/
  | addi (xd xa : XReg) (simm16 : BitVec 16)
  /-- `LDX.8 xd, simm12(xa)` (R205). -/
  | ldx8 (xd xa : XReg) (simm12 : BitVec 12)
  /-- `LDX.16 xd, simm12(xa)` (R205). -/
  | ldx16 (xd xa : XReg) (simm12 : BitVec 12)
  /-- `LDX.32 xd, simm12(xa)` (R205). -/
  | ldx32 (xd xa : XReg) (simm12 : BitVec 12)
  /-- `LDX.64 xd, simm12(xa)` (R205). -/
  | ldx64 (xd xa : XReg) (simm12 : BitVec 12)
  /-- `LDX.128 xd, simm12(xa)` (R205). -/
  | ldx128 (xd xa : XReg) (simm12 : BitVec 12)
  /-- `STX.8 xs, simm12(xa)` (R206). -/
  | stx8 (xs xa : XReg) (simm12 : BitVec 12)
  /-- `STX.16 xs, simm12(xa)` (R206). -/
  | stx16 (xs xa : XReg) (simm12 : BitVec 12)
  /-- `STX.32 xs, simm12(xa)` (R206). -/
  | stx32 (xs xa : XReg) (simm12 : BitVec 12)
  /-- `STX.64 xs, simm12(xa)` (R206). -/
  | stx64 (xs xa : XReg) (simm12 : BitVec 12)
  /-- `STX.128 xs, simm12(xa)` (R206). -/
  | stx128 (xs xa : XReg) (simm12 : BitVec 12)
  /-- `VLD vd, simm12(xa)` (R207). -/
  | vld (vd : VReg) (xa : XReg) (simm12 : BitVec 12)
  /-- `VST vs, simm12(xa)` (R208). -/
  | vst (vs : VReg) (xa : XReg) (simm12 : BitVec 12)
  /-- `CADD.8 xd, xa, xb, cin` (R103). -/
  | cadd8 (xd xa xb : XReg) (cin : CarrySel)
  /-- `CADD.16 xd, xa, xb, cin` (R103). -/
  | cadd16 (xd xa xb : XReg) (cin : CarrySel)
  /-- `CADD.32 xd, xa, xb, cin` (R103). -/
  | cadd32 (xd xa xb : XReg) (cin : CarrySel)
  /-- `CADD.64 xd, xa, xb, cin` (R103). -/
  | cadd64 (xd xa xb : XReg) (cin : CarrySel)
  /-- `CADD.128 xd, xa, xb, cin` (R103). -/
  | cadd128 (xd xa xb : XReg) (cin : CarrySel)
  /-- `BSUB.8 xd, xa, xb, bin` (R104). -/
  | bsub8 (xd xa xb : XReg) (bin : CarrySel)
  /-- `BSUB.16 xd, xa, xb, bin` (R104). -/
  | bsub16 (xd xa xb : XReg) (bin : CarrySel)
  /-- `BSUB.32 xd, xa, xb, bin` (R104). -/
  | bsub32 (xd xa xb : XReg) (bin : CarrySel)
  /-- `BSUB.64 xd, xa, xb, bin` (R104). -/
  | bsub64 (xd xa xb : XReg) (bin : CarrySel)
  /-- `BSUB.128 xd, xa, xb, bin` (R104). -/
  | bsub128 (xd xa xb : XReg) (bin : CarrySel)
  /-- `WMUL.8 xl, xh, xa, xb` (R105); legal only for `xl` unlike `xh`. -/
  | wmul8 (xl xh xa xb : XReg)
  /-- `WMUL.16 xl, xh, xa, xb` (R105); legal only for `xl` unlike `xh`. -/
  | wmul16 (xl xh xa xb : XReg)
  /-- `WMUL.32 xl, xh, xa, xb` (R105); legal only for `xl` unlike `xh`. -/
  | wmul32 (xl xh xa xb : XReg)
  /-- `WMUL.64 xl, xh, xa, xb` (R105); legal only for `xl` unlike `xh`. -/
  | wmul64 (xl xh xa xb : XReg)
  /-- `WMUL.128 xl, xh, xa, xb` (R105); legal only for `xl` unlike `xh`. -/
  | wmul128 (xl xh xa xb : XReg)
  /-- `CMUL.8 xl, xh, xa, xb, xc` (R106); legal only for `xl` unlike `xh`. -/
  | cmul8 (xl xh xa xb xc : XReg)
  /-- `CMUL.16 xl, xh, xa, xb, xc` (R106); legal only for `xl` unlike `xh`. -/
  | cmul16 (xl xh xa xb xc : XReg)
  /-- `CMUL.32 xl, xh, xa, xb, xc` (R106); legal only for `xl` unlike `xh`. -/
  | cmul32 (xl xh xa xb xc : XReg)
  /-- `CMUL.64 xl, xh, xa, xb, xc` (R106); legal only for `xl` unlike `xh`. -/
  | cmul64 (xl xh xa xb xc : XReg)
  /-- `CMUL.128 xl, xh, xa, xb, xc` (R106); legal only for `xl` unlike `xh`. -/
  | cmul128 (xl xh xa xb xc : XReg)
  /-- `VMOV vd, va` (R130). -/
  | vmov (vd va : VReg)
  /-- `VXOR vd, va, vb` (R131). -/
  | vxor (vd va vb : VReg)
  /-- `VSHUFW vd, va, imm8` (R132). -/
  | vshufw (vd va : VReg) (imm8 : BitVec 8)
  /-- `VSLLB vd, va, imm8` (R133). -/
  | vsllb (vd va : VReg) (imm8 : BitVec 8)
  /-- `VRORW vd, va, imm8` (R134); `imm8` is legal from 0 to 31. -/
  | vrorw (vd va : VReg) (imm8 : Fin 32)
  /-- `VIMMW vd, imm16` (R135). -/
  | vimmw (vd : VReg) (imm16 : BitVec 16)
  /-- `VLDRK vd, idx` (R136); `idx` is legal from 0 to 10. -/
  | vldrk (vd : VReg) (idx : Fin 11)
  /-- `AESENC vd, va, vk` (R151). -/
  | aesenc (vd va vk : VReg)
  /-- `AESENCLAST vd, va, vk` (R152). -/
  | aesenclast (vd va vk : VReg)
  /-- `AESKEYGENASSIST vd, va, imm8` (R153). -/
  | aeskeygenassist (vd va : VReg) (imm8 : BitVec 8)
  /-- `AESE vd, va, vk` (R161). -/
  | aese (vd va vk : VReg)
  /-- `AESMC vd, va` (R162). -/
  | aesmc (vd va : VReg)
  /-- `KEXP va` (R175). -/
  | kexp (va : VReg)
  /-- `ENCB vd, va` (R180). -/
  | encb (vd va : VReg)
  /-- `ENCM vd, va, n` (R181); `n` is legal from 0 to 8, and both runs end inside the register file. -/
  | encm (vd va : VReg) (n : Fin 9)
  /-- `ENCS xa, xn` (R182). -/
  | encs (xa xn : XReg)
  deriving DecidableEq, Repr

/-! The width variants of one instruction, by width (R73). -/

/-- `LDX.W`. -/
def Instr.ldx (w : Width) (xd xa : XReg) (simm12 : BitVec 12) : Instr :=
  match w with
  | .w8 => .ldx8 xd xa simm12
  | .w16 => .ldx16 xd xa simm12
  | .w32 => .ldx32 xd xa simm12
  | .w64 => .ldx64 xd xa simm12
  | .w128 => .ldx128 xd xa simm12

/-- `STX.W`. -/
def Instr.stx (w : Width) (xs xa : XReg) (simm12 : BitVec 12) : Instr :=
  match w with
  | .w8 => .stx8 xs xa simm12
  | .w16 => .stx16 xs xa simm12
  | .w32 => .stx32 xs xa simm12
  | .w64 => .stx64 xs xa simm12
  | .w128 => .stx128 xs xa simm12

/-- `CADD.W`. -/
def Instr.cadd (w : Width) (xd xa xb : XReg) (cin : CarrySel) : Instr :=
  match w with
  | .w8 => .cadd8 xd xa xb cin
  | .w16 => .cadd16 xd xa xb cin
  | .w32 => .cadd32 xd xa xb cin
  | .w64 => .cadd64 xd xa xb cin
  | .w128 => .cadd128 xd xa xb cin

/-- `BSUB.W`. -/
def Instr.bsub (w : Width) (xd xa xb : XReg) (bin : CarrySel) : Instr :=
  match w with
  | .w8 => .bsub8 xd xa xb bin
  | .w16 => .bsub16 xd xa xb bin
  | .w32 => .bsub32 xd xa xb bin
  | .w64 => .bsub64 xd xa xb bin
  | .w128 => .bsub128 xd xa xb bin

/-- `WMUL.W`. -/
def Instr.wmul (w : Width) (xl xh xa xb : XReg) : Instr :=
  match w with
  | .w8 => .wmul8 xl xh xa xb
  | .w16 => .wmul16 xl xh xa xb
  | .w32 => .wmul32 xl xh xa xb
  | .w64 => .wmul64 xl xh xa xb
  | .w128 => .wmul128 xl xh xa xb

/-- `CMUL.W`. -/
def Instr.cmul (w : Width) (xl xh xa xb xc : XReg) : Instr :=
  match w with
  | .w8 => .cmul8 xl xh xa xb xc
  | .w16 => .cmul16 xl xh xa xb xc
  | .w32 => .cmul32 xl xh xa xb xc
  | .w64 => .cmul64 xl xh xa xb xc
  | .w128 => .cmul128 xl xh xa xb xc

end Sys2Proof
end

