-- ==== Sys2Proof/WellFormed.lean ====
section
/-! DEFINITION. Which instruction terms are legal (30_encoding.md R79, R80): the constraints that the types of the fields
do not already make impossible to break. -/

namespace Sys2Proof

/-- The constraint column of R78: `CSRW` names `CTRL`; the two destinations of `WMUL` and `CMUL` differ; the runs of `ENCM`
do not pass `V15`. -/
def Instr.wellFormed : Instr → Bool
  | .halt => true
  | .clrc => true
  | .setc => true
  | .csrr _ _ => true
  | .csrw csr _ => csr == .ctrl
  | .jmp _ => true
  | .bz _ _ => true
  | .bnz _ _ => true
  | .bc _ => true
  | .bnc _ => true
  | .li _ _ => true
  | .movx _ _ => true
  | .addi _ _ _ => true
  | .ldx8 _ _ _ => true
  | .ldx16 _ _ _ => true
  | .ldx32 _ _ _ => true
  | .ldx64 _ _ _ => true
  | .ldx128 _ _ _ => true
  | .stx8 _ _ _ => true
  | .stx16 _ _ _ => true
  | .stx32 _ _ _ => true
  | .stx64 _ _ _ => true
  | .stx128 _ _ _ => true
  | .vld _ _ _ => true
  | .vst _ _ _ => true
  | .cadd8 _ _ _ _ => true
  | .cadd16 _ _ _ _ => true
  | .cadd32 _ _ _ _ => true
  | .cadd64 _ _ _ _ => true
  | .cadd128 _ _ _ _ => true
  | .bsub8 _ _ _ _ => true
  | .bsub16 _ _ _ _ => true
  | .bsub32 _ _ _ _ => true
  | .bsub64 _ _ _ _ => true
  | .bsub128 _ _ _ _ => true
  | .wmul8 xl xh _ _ => xl != xh
  | .wmul16 xl xh _ _ => xl != xh
  | .wmul32 xl xh _ _ => xl != xh
  | .wmul64 xl xh _ _ => xl != xh
  | .wmul128 xl xh _ _ => xl != xh
  | .cmul8 xl xh _ _ _ => xl != xh
  | .cmul16 xl xh _ _ _ => xl != xh
  | .cmul32 xl xh _ _ _ => xl != xh
  | .cmul64 xl xh _ _ _ => xl != xh
  | .cmul128 xl xh _ _ _ => xl != xh
  | .vmov _ _ => true
  | .vxor _ _ _ => true
  | .vshufw _ _ _ => true
  | .vsllb _ _ _ => true
  | .vrorw _ _ _ => true
  | .vimmw _ _ => true
  | .vldrk _ _ => true
  | .aesenc _ _ _ => true
  | .aesenclast _ _ _ => true
  | .aeskeygenassist _ _ _ => true
  | .aese _ _ _ => true
  | .aesmc _ _ => true
  | .kexp _ => true
  | .encb _ _ => true
  | .encm vd va n => decide (vd.val + n.val ≤ 16) && decide (va.val + n.val ≤ 16)
  | .encs _ _ => true

end Sys2Proof
end

