-- ==== Sys2Proof/Decode.lean ====
section
/-! DEFINITION. Decoding and encoding (30_encoding.md R70 to R80). A word is cut into its opcode and six nibbles (R71); the
decoder reads an instruction from them or refuses by name; the encoder, at the end, lays the same fields out by the format
rows of R72. -/

namespace Sys2Proof

/-- The opcode and the nibbles a to f of a word (R71). -/
structure Fields where
  op : BitVec 8
  a : BitVec 4
  b : BitVec 4
  c : BitVec 4
  d : BitVec 4
  e : BitVec 4
  f : BitVec 4
  deriving DecidableEq, Repr

/-- The fields of a word, at the positions of R71. -/
def Fields.ofWord (w : InstrWord) : Fields :=
  { op := w.extractLsb' 24 8
    a := w.extractLsb' 20 4
    b := w.extractLsb' 16 4
    c := w.extractLsb' 12 4
    d := w.extractLsb' 8 4
    e := w.extractLsb' 4 4
    f := w.extractLsb' 0 4 }

/-- The word with given fields (R71). -/
def Fields.toWord (x : Fields) : InstrWord :=
  x.op ++ x.a ++ x.b ++ x.c ++ x.d ++ x.e ++ x.f

/-- `imm16`, `simm16`, `off16`: bits 15:0 (R71, R75). -/
def Fields.imm16 (x : Fields) : BitVec 16 := x.c ++ x.d ++ x.e ++ x.f

/-- `simm12`, `csr`: bits 11:0 (R71, R75). -/
def Fields.imm12 (x : Fields) : BitVec 12 := x.d ++ x.e ++ x.f

/-- `imm8`: bits 7:0 (R71, R75). -/
def Fields.imm8 (x : Fields) : BitVec 8 := x.e ++ x.f

/-- The width a code stands for (R73); codes 5 to 15 are reserved. -/
def Width.ofCode (w : BitVec 4) : Option Width :=
  match w with
  | 0 => some .w8
  | 1 => some .w16
  | 2 => some .w32
  | 3 => some .w64
  | 4 => some .w128
  | _ => none

/-- The width code (R73). -/
def Width.code (w : Width) : BitVec 4 :=
  match w with
  | .w8 => 0
  | .w16 => 1
  | .w32 => 2
  | .w64 => 3
  | .w128 => 4

/-- The carry-in select a field stands for (R75); 3 to 15 are reserved. -/
def CarrySel.ofCode (x : BitVec 4) : Option CarrySel :=
  match x with
  | 0 => some .zero
  | 1 => some .one
  | 2 => some .flag
  | _ => none

/-- The code of a carry-in select (R75). -/
def CarrySel.code (x : CarrySel) : BitVec 4 :=
  match x with
  | .zero => 0
  | .one => 1
  | .flag => 2

/-- The CSR with a number (10_state.md R38). -/
def Csr.ofNumber (n : BitVec 12) : Option Csr :=
  match n with
  | 0 => some .cap
  | 1 => some .ctrl
  | 2 => some .status
  | 3 => some .cause
  | 4 => some .epc
  | 5 => some .finfo
  | _ => none

/-- The number of a CSR (10_state.md R38). -/
def Csr.number (c : Csr) : BitVec 12 :=
  match c with
  | .cap => 0
  | .ctrl => 1
  | .status => 2
  | .cause => 3
  | .epc => 4
  | .finfo => 5

/-! Decoding. -/

/-- What a decoder answers. -/
abbrev Decoded := Except DecodeError Instr

/-- The must-be-zero rule (R74): `k` unless one of the nibbles in `zs` has a bit set. -/
def needZero (zs : List (BitVec 4)) (k : Decoded) : Decoded :=
  if zs.all (fun z => z == 0) then k else .error .mustBeZero

/-- The width rule (R73). -/
def needWidth (w : BitVec 4) (k : Width → Decoded) : Decoded :=
  match Width.ofCode w with
  | some w => k w
  | none => .error .reservedWidth

/-- The carry-in select rule (R75). -/
def needCarrySel (x : BitVec 4) (k : CarrySel → Decoded) : Decoded :=
  match CarrySel.ofCode x with
  | some x => k x
  | none => .error .reservedCarrySelect

/-- The CSR number rule (R75). -/
def needCsr (n : BitVec 12) (k : Csr → Decoded) : Decoded :=
  match Csr.ofNumber n with
  | some c => k c
  | none => .error .csrNumber

/-- A constraint of R78 between the fields of an instruction. -/
def needLegal (why : DecodeError) (i : Instr) : Decoded :=
  if i.wellFormed then .ok i else .error why

/-- The register a nibble names. -/
def regOf (n : BitVec 4) : Fin 16 := n.toFin

/-- The nibble that names a register. -/
def regCode (r : Fin 16) : BitVec 4 := BitVec.ofFin r

/-- The rotate count rule of `VRORW`: 0 to 31 (R80). -/
def needRotate (n : BitVec 8) (k : Fin 32 → Decoded) : Decoded :=
  if h : n.toNat < 32 then k ⟨n.toNat, h⟩ else .error .rotateCount

/-- The round-key index rule of `VLDRK`: 0 to 10 (R80). -/
def needIndex (n : BitVec 4) (k : Fin 11 → Decoded) : Decoded :=
  if h : n.toNat < 11 then k ⟨n.toNat, h⟩ else .error .roundKeyIndex

/-- The batch count rule of `ENCM`: 0 to 8 (R80). -/
def needCount (n : BitVec 4) (k : Fin 9 → Decoded) : Decoded :=
  if h : n.toNat < 9 then k ⟨n.toNat, h⟩ else .error .batchRun

/-- The opcode map of R77 with the formats of R72 and the constraints of R78. -/
def decodeFields (x : Fields) : Decoded :=
  match x.op with
  -- system and control flow
  | 0x01#8 => needZero [x.a, x.b, x.c, x.d, x.e, x.f] (.ok .halt)
  | 0x02#8 => needZero [x.a, x.b, x.c, x.d, x.e, x.f] (.ok .clrc)
  | 0x03#8 => needZero [x.a, x.b, x.c, x.d, x.e, x.f] (.ok .setc)
  | 0x04#8 => needZero [x.b, x.c] (needCsr x.imm12 fun csr => .ok (.csrr (regOf x.a) csr))
  | 0x05#8 => needZero [x.b, x.c] (needCsr x.imm12 fun csr => needLegal .csrNumber (.csrw csr (regOf x.a)))
  | 0x08#8 => needZero [x.a, x.b] (.ok (.jmp x.imm16))
  | 0x09#8 => needZero [x.b] (.ok (.bz (regOf x.a) x.imm16))
  | 0x0a#8 => needZero [x.b] (.ok (.bnz (regOf x.a) x.imm16))
  | 0x0b#8 => needZero [x.a, x.b] (.ok (.bc x.imm16))
  | 0x0c#8 => needZero [x.a, x.b] (.ok (.bnc x.imm16))
  -- moves and memory
  | 0x10#8 => needZero [x.b] (.ok (.li (regOf x.a) x.imm16))
  | 0x11#8 => needZero [x.c, x.d, x.e, x.f] (.ok (.movx (regOf x.a) (regOf x.b)))
  | 0x12#8 => .ok (.addi (regOf x.a) (regOf x.b) x.imm16)
  | 0x14#8 => needWidth x.c fun w => .ok (.ldx w (regOf x.a) (regOf x.b) x.imm12)
  | 0x15#8 => needWidth x.c fun w => .ok (.stx w (regOf x.a) (regOf x.b) x.imm12)
  | 0x16#8 => needZero [x.c] (.ok (.vld (regOf x.a) (regOf x.b) x.imm12))
  | 0x17#8 => needZero [x.c] (.ok (.vst (regOf x.a) (regOf x.b) x.imm12))
  -- widening arithmetic
  | 0x20#8 => needZero [x.f] (needWidth x.a fun w => needCarrySel x.e fun cin => .ok (.cadd w (regOf x.b) (regOf x.c) (regOf x.d) cin))
  | 0x21#8 => needZero [x.f] (needWidth x.a fun w => needCarrySel x.e fun bin => .ok (.bsub w (regOf x.b) (regOf x.c) (regOf x.d) bin))
  | 0x22#8 => needZero [x.f] (needWidth x.a fun w => needLegal .sameDestinations (.wmul w (regOf x.b) (regOf x.c) (regOf x.d) (regOf x.e)))
  | 0x23#8 => needWidth x.a fun w => needLegal .sameDestinations (.cmul w (regOf x.b) (regOf x.c) (regOf x.d) (regOf x.e) (regOf x.f))
  -- Block operations
  | 0x30#8 => needZero [x.c, x.d, x.e, x.f] (.ok (.vmov (regOf x.a) (regOf x.b)))
  | 0x31#8 => needZero [x.d, x.e, x.f] (.ok (.vxor (regOf x.a) (regOf x.b) (regOf x.c)))
  | 0x32#8 => needZero [x.c, x.d] (.ok (.vshufw (regOf x.a) (regOf x.b) x.imm8))
  | 0x33#8 => needZero [x.c, x.d] (.ok (.vsllb (regOf x.a) (regOf x.b) x.imm8))
  | 0x34#8 => needZero [x.c, x.d] (needRotate x.imm8 fun n => .ok (.vrorw (regOf x.a) (regOf x.b) n))
  | 0x35#8 => needZero [x.b] (.ok (.vimmw (regOf x.a) x.imm16))
  | 0x36#8 => needZero [x.c, x.d, x.e, x.f] (needIndex x.b fun idx => .ok (.vldrk (regOf x.a) idx))
  -- x86-family AES instructions
  | 0x40#8 => needZero [x.d, x.e, x.f] (.ok (.aesenc (regOf x.a) (regOf x.b) (regOf x.c)))
  | 0x41#8 => needZero [x.d, x.e, x.f] (.ok (.aesenclast (regOf x.a) (regOf x.b) (regOf x.c)))
  | 0x42#8 => needZero [x.c, x.d] (.ok (.aeskeygenassist (regOf x.a) (regOf x.b) x.imm8))
  -- ARM-family AES instructions
  | 0x50#8 => needZero [x.d, x.e, x.f] (.ok (.aese (regOf x.a) (regOf x.b) (regOf x.c)))
  | 0x51#8 => needZero [x.c, x.d, x.e, x.f] (.ok (.aesmc (regOf x.a) (regOf x.b)))
  -- whole-cipher operations
  | 0x60#8 => needZero [x.b, x.c, x.d, x.e, x.f] (.ok (.kexp (regOf x.a)))
  | 0x61#8 => needZero [x.c, x.d, x.e, x.f] (.ok (.encb (regOf x.a) (regOf x.b)))
  | 0x62#8 => needZero [x.d, x.e, x.f] (needCount x.c fun n => needLegal .batchRun (.encm (regOf x.a) (regOf x.b) n))
  | 0x63#8 => needZero [x.c, x.d, x.e, x.f] (.ok (.encs (regOf x.a) (regOf x.b)))
  | _ => .error .unknownOpcode

/-- Decoding of one word (R79): total, from the word alone. -/
def decodeWord (w : InstrWord) : Decoded := decodeFields (Fields.ofWord w)

/-- The word that four bytes in address order hold (20_memory.md R51). -/
def wordOfBytes (b0 b1 b2 b3 : Byte) : InstrWord := b3 ++ b2 ++ b1 ++ b0

/-- The four bytes of a word in address order (20_memory.md R51). -/
def bytesOfWord (w : InstrWord) : List Byte :=
  [w.extractLsb' 0 8, w.extractLsb' 8 8, w.extractLsb' 16 8, w.extractLsb' 24 8]

/-- Decoding of a byte string: the first instruction and the bytes after it (R70). -/
def decode (bytes : List Byte) : Except DecodeError (Instr × List Byte) :=
  match bytes with
  | b0 :: b1 :: b2 :: b3 :: rest =>
    match decodeWord (wordOfBytes b0 b1 b2 b3) with
    | .ok i => .ok (i, rest)
    | .error e => .error e
  | _ => .error .tooShort

/-- The instruction that the decoder reads from the table word `w` of `nbits` bits: the word is laid out in bytes as IMEM
holds it and given to `decode`. -/
def decodeTableWord (nbits w : Nat) : Option Instr :=
  match decode (bytesOfWord (BitVec.ofNat 32 (w % 2 ^ nbits))) with
  | .ok (i, _) => some i
  | .error _ => none

/-! Encoding, from the format rows of R72 and the opcode map of R77. -/

/-- Format Z. -/
def fmtZ (op : BitVec 8) : Fields := ⟨op, 0, 0, 0, 0, 0, 0⟩

/-- Formats J, B, I and IU: two nibbles and a 16-bit immediate. -/
def fmtImm16 (op : BitVec 8) (a b : BitVec 4) (imm : BitVec 16) : Fields :=
  ⟨op, a, b, imm.extractLsb' 12 4, imm.extractLsb' 8 4, imm.extractLsb' 4 4, imm.extractLsb' 0 4⟩

/-- Formats M, MV and C: three nibbles and a 12-bit immediate. -/
def fmtImm12 (op : BitVec 8) (a b c : BitVec 4) (imm : BitVec 12) : Fields :=
  ⟨op, a, b, c, imm.extractLsb' 8 4, imm.extractLsb' 4 4, imm.extractLsb' 0 4⟩

/-- Format V8. -/
def fmtV8 (op : BitVec 8) (a b : BitVec 4) (imm : BitVec 8) : Fields :=
  ⟨op, a, b, 0, 0, imm.extractLsb' 4 4, imm.extractLsb' 0 4⟩

/-- Formats R1, R2 and R3: up to three nibbles, the rest zero. -/
def fmtR (op : BitVec 8) (a b c : BitVec 4) : Fields := ⟨op, a, b, c, 0, 0, 0⟩

/-- Formats WA, WM and WC: the width code and five nibbles. -/
def fmtW (op : BitVec 8) (w : Width) (b c d e f : BitVec 4) : Fields := ⟨op, w.code, b, c, d, e, f⟩

/-- The fields of an instruction's word. -/
def encodeFields : Instr → Fields
  | .halt => fmtZ 0x01
  | .clrc => fmtZ 0x02
  | .setc => fmtZ 0x03
  | .csrr xd csr => fmtImm12 0x04 (regCode xd) 0 0 csr.number
  | .csrw csr xa => fmtImm12 0x05 (regCode xa) 0 0 csr.number
  | .jmp off16 => fmtImm16 0x08 0 0 off16
  | .bz xa off16 => fmtImm16 0x09 (regCode xa) 0 off16
  | .bnz xa off16 => fmtImm16 0x0a (regCode xa) 0 off16
  | .bc off16 => fmtImm16 0x0b 0 0 off16
  | .bnc off16 => fmtImm16 0x0c 0 0 off16
  | .li xd imm16 => fmtImm16 0x10 (regCode xd) 0 imm16
  | .movx xd xa => fmtR 0x11 (regCode xd) (regCode xa) 0
  | .addi xd xa simm16 => fmtImm16 0x12 (regCode xd) (regCode xa) simm16
  | .ldx8 xd xa simm12 => fmtImm12 0x14 (regCode xd) (regCode xa) (Width.code .w8) simm12
  | .ldx16 xd xa simm12 => fmtImm12 0x14 (regCode xd) (regCode xa) (Width.code .w16) simm12
  | .ldx32 xd xa simm12 => fmtImm12 0x14 (regCode xd) (regCode xa) (Width.code .w32) simm12
  | .ldx64 xd xa simm12 => fmtImm12 0x14 (regCode xd) (regCode xa) (Width.code .w64) simm12
  | .ldx128 xd xa simm12 => fmtImm12 0x14 (regCode xd) (regCode xa) (Width.code .w128) simm12
  | .stx8 xs xa simm12 => fmtImm12 0x15 (regCode xs) (regCode xa) (Width.code .w8) simm12
  | .stx16 xs xa simm12 => fmtImm12 0x15 (regCode xs) (regCode xa) (Width.code .w16) simm12
  | .stx32 xs xa simm12 => fmtImm12 0x15 (regCode xs) (regCode xa) (Width.code .w32) simm12
  | .stx64 xs xa simm12 => fmtImm12 0x15 (regCode xs) (regCode xa) (Width.code .w64) simm12
  | .stx128 xs xa simm12 => fmtImm12 0x15 (regCode xs) (regCode xa) (Width.code .w128) simm12
  | .vld vd xa simm12 => fmtImm12 0x16 (regCode vd) (regCode xa) 0 simm12
  | .vst vs xa simm12 => fmtImm12 0x17 (regCode vs) (regCode xa) 0 simm12
  | .cadd8 xd xa xb cin => fmtW 0x20 .w8 (regCode xd) (regCode xa) (regCode xb) cin.code 0
  | .cadd16 xd xa xb cin => fmtW 0x20 .w16 (regCode xd) (regCode xa) (regCode xb) cin.code 0
  | .cadd32 xd xa xb cin => fmtW 0x20 .w32 (regCode xd) (regCode xa) (regCode xb) cin.code 0
  | .cadd64 xd xa xb cin => fmtW 0x20 .w64 (regCode xd) (regCode xa) (regCode xb) cin.code 0
  | .cadd128 xd xa xb cin => fmtW 0x20 .w128 (regCode xd) (regCode xa) (regCode xb) cin.code 0
  | .bsub8 xd xa xb bin => fmtW 0x21 .w8 (regCode xd) (regCode xa) (regCode xb) bin.code 0
  | .bsub16 xd xa xb bin => fmtW 0x21 .w16 (regCode xd) (regCode xa) (regCode xb) bin.code 0
  | .bsub32 xd xa xb bin => fmtW 0x21 .w32 (regCode xd) (regCode xa) (regCode xb) bin.code 0
  | .bsub64 xd xa xb bin => fmtW 0x21 .w64 (regCode xd) (regCode xa) (regCode xb) bin.code 0
  | .bsub128 xd xa xb bin => fmtW 0x21 .w128 (regCode xd) (regCode xa) (regCode xb) bin.code 0
  | .wmul8 xl xh xa xb => fmtW 0x22 .w8 (regCode xl) (regCode xh) (regCode xa) (regCode xb) 0
  | .wmul16 xl xh xa xb => fmtW 0x22 .w16 (regCode xl) (regCode xh) (regCode xa) (regCode xb) 0
  | .wmul32 xl xh xa xb => fmtW 0x22 .w32 (regCode xl) (regCode xh) (regCode xa) (regCode xb) 0
  | .wmul64 xl xh xa xb => fmtW 0x22 .w64 (regCode xl) (regCode xh) (regCode xa) (regCode xb) 0
  | .wmul128 xl xh xa xb => fmtW 0x22 .w128 (regCode xl) (regCode xh) (regCode xa) (regCode xb) 0
  | .cmul8 xl xh xa xb xc => fmtW 0x23 .w8 (regCode xl) (regCode xh) (regCode xa) (regCode xb) (regCode xc)
  | .cmul16 xl xh xa xb xc => fmtW 0x23 .w16 (regCode xl) (regCode xh) (regCode xa) (regCode xb) (regCode xc)
  | .cmul32 xl xh xa xb xc => fmtW 0x23 .w32 (regCode xl) (regCode xh) (regCode xa) (regCode xb) (regCode xc)
  | .cmul64 xl xh xa xb xc => fmtW 0x23 .w64 (regCode xl) (regCode xh) (regCode xa) (regCode xb) (regCode xc)
  | .cmul128 xl xh xa xb xc => fmtW 0x23 .w128 (regCode xl) (regCode xh) (regCode xa) (regCode xb) (regCode xc)
  | .vmov vd va => fmtR 0x30 (regCode vd) (regCode va) 0
  | .vxor vd va vb => fmtR 0x31 (regCode vd) (regCode va) (regCode vb)
  | .vshufw vd va imm8 => fmtV8 0x32 (regCode vd) (regCode va) imm8
  | .vsllb vd va imm8 => fmtV8 0x33 (regCode vd) (regCode va) imm8
  | .vrorw vd va imm8 => fmtV8 0x34 (regCode vd) (regCode va) (BitVec.ofNat 8 imm8.val)
  | .vimmw vd imm16 => fmtImm16 0x35 (regCode vd) 0 imm16
  | .vldrk vd idx => fmtR 0x36 (regCode vd) (BitVec.ofNat 4 idx.val) 0
  | .aesenc vd va vk => fmtR 0x40 (regCode vd) (regCode va) (regCode vk)
  | .aesenclast vd va vk => fmtR 0x41 (regCode vd) (regCode va) (regCode vk)
  | .aeskeygenassist vd va imm8 => fmtV8 0x42 (regCode vd) (regCode va) imm8
  | .aese vd va vk => fmtR 0x50 (regCode vd) (regCode va) (regCode vk)
  | .aesmc vd va => fmtR 0x51 (regCode vd) (regCode va) 0
  | .kexp va => fmtR 0x60 (regCode va) 0 0
  | .encb vd va => fmtR 0x61 (regCode vd) (regCode va) 0
  | .encm vd va n => fmtR 0x62 (regCode vd) (regCode va) (BitVec.ofNat 4 n.val)
  | .encs xa xn => fmtR 0x63 (regCode xa) (regCode xn) 0

/-- The word of an instruction. -/
def encode (i : Instr) : InstrWord := (encodeFields i).toWord

/-- The bytes of an instruction, in address order. -/
def encodeBytes (i : Instr) : List Byte := bytesOfWord (encode i)

/-! The opcode table of R78, row by row, as a second reading of the encoding that the decoder above does not use. -/

/-- A row of R78: its match, its mask, and its constraint on the word. -/
structure Row where
  mnemonic : String
  matchBits : InstrWord
  mask : InstrWord
  constraint : InstrWord → Bool

/-- The bits `hi:lo` of a word, as a number (00_scope.md R15). -/
def bitsOf (w : InstrWord) (hi lo : Nat) : Nat := w.toNat / 2 ^ lo % 2 ^ (hi - lo + 1)

/-- A word is of a row when the masked bits match and the constraint holds (R78). -/
def Row.admits (r : Row) (w : InstrWord) : Bool := w &&& r.mask == r.matchBits && r.constraint w

/-- No constraint. -/
def freeRow (m : String) (matchBits mask : InstrWord) : Row := ⟨m, matchBits, mask, fun _ => true⟩

/-- System and control-flow rows. -/
def tableSystem : List Row :=
  [ freeRow "HALT" 0x01000000 0xffffffff,
    freeRow "CLRC" 0x02000000 0xffffffff,
    freeRow "SETC" 0x03000000 0xffffffff,
    ⟨"CSRR", 0x04000000, 0xff0ff000, fun w => decide (bitsOf w 11 0 ≤ 5)⟩,
    ⟨"CSRW", 0x05000000, 0xff0ff000, fun w => decide (bitsOf w 11 0 = 1)⟩,
    freeRow "JMP" 0x08000000 0xffff0000,
    freeRow "BZ" 0x09000000 0xff0f0000,
    freeRow "BNZ" 0x0a000000 0xff0f0000,
    freeRow "BC" 0x0b000000 0xffff0000,
    freeRow "BNC" 0x0c000000 0xffff0000 ]

/-- Move and memory rows. -/
def tableMove : List Row :=
  [ freeRow "LI" 0x10000000 0xff0f0000,
    freeRow "MOVX" 0x11000000 0xff00ffff,
    freeRow "ADDI" 0x12000000 0xff000000,
    freeRow "LDX.8" 0x14000000 0xff00f000,
    freeRow "LDX.16" 0x14001000 0xff00f000,
    freeRow "LDX.32" 0x14002000 0xff00f000,
    freeRow "LDX.64" 0x14003000 0xff00f000,
    freeRow "LDX.128" 0x14004000 0xff00f000,
    freeRow "STX.8" 0x15000000 0xff00f000,
    freeRow "STX.16" 0x15001000 0xff00f000,
    freeRow "STX.32" 0x15002000 0xff00f000,
    freeRow "STX.64" 0x15003000 0xff00f000,
    freeRow "STX.128" 0x15004000 0xff00f000,
    freeRow "VLD" 0x16000000 0xff00f000,
    freeRow "VST" 0x17000000 0xff00f000 ]

/-- `CADD` and `BSUB` rows. -/
def tableWideningAdd : List Row :=
  [ ⟨"CADD.8", 0x20000000, 0xfff0000f, fun w => decide (bitsOf w 7 4 ≤ 2)⟩,
    ⟨"CADD.16", 0x20100000, 0xfff0000f, fun w => decide (bitsOf w 7 4 ≤ 2)⟩,
    ⟨"CADD.32", 0x20200000, 0xfff0000f, fun w => decide (bitsOf w 7 4 ≤ 2)⟩,
    ⟨"CADD.64", 0x20300000, 0xfff0000f, fun w => decide (bitsOf w 7 4 ≤ 2)⟩,
    ⟨"CADD.128", 0x20400000, 0xfff0000f, fun w => decide (bitsOf w 7 4 ≤ 2)⟩,
    ⟨"BSUB.8", 0x21000000, 0xfff0000f, fun w => decide (bitsOf w 7 4 ≤ 2)⟩,
    ⟨"BSUB.16", 0x21100000, 0xfff0000f, fun w => decide (bitsOf w 7 4 ≤ 2)⟩,
    ⟨"BSUB.32", 0x21200000, 0xfff0000f, fun w => decide (bitsOf w 7 4 ≤ 2)⟩,
    ⟨"BSUB.64", 0x21300000, 0xfff0000f, fun w => decide (bitsOf w 7 4 ≤ 2)⟩,
    ⟨"BSUB.128", 0x21400000, 0xfff0000f, fun w => decide (bitsOf w 7 4 ≤ 2)⟩ ]

/-- `WMUL` and `CMUL` rows. -/
def tableWideningMul : List Row :=
  [ ⟨"WMUL.8", 0x22000000, 0xfff0000f, fun w => decide (bitsOf w 19 16 ≠ bitsOf w 15 12)⟩,
    ⟨"WMUL.16", 0x22100000, 0xfff0000f, fun w => decide (bitsOf w 19 16 ≠ bitsOf w 15 12)⟩,
    ⟨"WMUL.32", 0x22200000, 0xfff0000f, fun w => decide (bitsOf w 19 16 ≠ bitsOf w 15 12)⟩,
    ⟨"WMUL.64", 0x22300000, 0xfff0000f, fun w => decide (bitsOf w 19 16 ≠ bitsOf w 15 12)⟩,
    ⟨"WMUL.128", 0x22400000, 0xfff0000f, fun w => decide (bitsOf w 19 16 ≠ bitsOf w 15 12)⟩,
    ⟨"CMUL.8", 0x23000000, 0xfff00000, fun w => decide (bitsOf w 19 16 ≠ bitsOf w 15 12)⟩,
    ⟨"CMUL.16", 0x23100000, 0xfff00000, fun w => decide (bitsOf w 19 16 ≠ bitsOf w 15 12)⟩,
    ⟨"CMUL.32", 0x23200000, 0xfff00000, fun w => decide (bitsOf w 19 16 ≠ bitsOf w 15 12)⟩,
    ⟨"CMUL.64", 0x23300000, 0xfff00000, fun w => decide (bitsOf w 19 16 ≠ bitsOf w 15 12)⟩,
    ⟨"CMUL.128", 0x23400000, 0xfff00000, fun w => decide (bitsOf w 19 16 ≠ bitsOf w 15 12)⟩ ]

/-- Block operation rows. -/
def tableBlock : List Row :=
  [ freeRow "VMOV" 0x30000000 0xff00ffff,
    freeRow "VXOR" 0x31000000 0xff000fff,
    freeRow "VSHUFW" 0x32000000 0xff00ff00,
    freeRow "VSLLB" 0x33000000 0xff00ff00,
    ⟨"VRORW", 0x34000000, 0xff00ff00, fun w => decide (bitsOf w 7 0 ≤ 31)⟩,
    freeRow "VIMMW" 0x35000000 0xff0f0000,
    ⟨"VLDRK", 0x36000000, 0xff00ffff, fun w => decide (bitsOf w 19 16 ≤ 10)⟩ ]

/-- AES rows. -/
def tableAes : List Row :=
  [ freeRow "AESENC" 0x40000000 0xff000fff,
    freeRow "AESENCLAST" 0x41000000 0xff000fff,
    freeRow "AESKEYGENASSIST" 0x42000000 0xff00ff00,
    freeRow "AESE" 0x50000000 0xff000fff,
    freeRow "AESMC" 0x51000000 0xff00ffff,
    freeRow "KEXP" 0x60000000 0xff0fffff,
    freeRow "ENCB" 0x61000000 0xff00ffff,
    ⟨"ENCM", 0x62000000, 0xff000fff, fun w => decide (bitsOf w 15 12 ≤ 8) && decide (bitsOf w 23 20 + bitsOf w 15 12 ≤ 16) && decide (bitsOf w 19 16 + bitsOf w 15 12 ≤ 16)⟩,
    freeRow "ENCS" 0x63000000 0xff00ffff ]

/-- The complete table (R78): 61 rows. -/
def opcodeTable : List Row :=
  tableSystem ++ tableMove ++ tableWideningAdd ++ tableWideningMul ++ tableBlock ++ tableAes

end Sys2Proof
end

