-- ==== Sys2Proof/Config.lean ====
section
/-! DEFINITION. The open parameters of the engine (00_scope.md R13). No rule fixes their value, so the model takes them
as data: every statement about a state holds for every engine (DESIGN CHOICE: assumption log 1). -/

namespace Sys2Proof

/-- The four open parameters of R13. -/
structure Config where
  /-- `HAS_X86AES`: the x86-family AES instructions are implemented. -/
  hasX86Aes : Bool
  /-- `HAS_ARMAES`: the ARM-family AES instructions are implemented. -/
  hasArmAes : Bool
  /-- `IMEM_BYTES`: the size of instruction memory. -/
  imemBytes : Nat
  /-- `DMEM_BYTES`: the size of data memory. -/
  dmemBytes : Nat
  deriving DecidableEq, Repr

/-- The constraints R13 puts on the parameters; a record outside them is not an engine (93_implementation_defined.md V15). -/
def Config.wf (c : Config) : Bool :=
  c.imemBytes % 4 == 0 && decide (4 ≤ c.imemBytes) && decide (c.imemBytes ≤ 2 ^ 32) &&
  c.dmemBytes % 16 == 0 && decide (16 ≤ c.dmemBytes) && decide (c.dmemBytes ≤ 2 ^ 32)

/-- The engine that the test vectors assume (R13, 95_test_vectors.md): both backends, `IMEM_BYTES` 4096, `DMEM_BYTES` 65536. -/
def Config.testVectors : Config :=
  { hasX86Aes := true, hasArmAes := true, imemBytes := 4096, dmemBytes := 65536 }

end Sys2Proof
end

