-- ==== Sys2Proof/Machine/State.lean ====
section
/-! DEFINITION. The state of the engine (10_state.md), as plain data, its reset value (R48, R260), and the reasons a step
can stop. -/

namespace Sys2Proof.Machine

/-- The run state `STATE` (R33). Value 3 never occurs (DEDUCED, safe: assumption log 9). -/
inductive RunState where
  | halted | running | faulted
  deriving DecidableEq, Repr

/-- The content of `CAUSE` (R42, 60_exceptions.md R230). Codes 8 to 15 are reserved and never occur (R239;
DEDUCED, safe: assumption log 9). -/
inductive Cause where
  /-- Code 0: no fault since reset. -/
  | noFault
  /-- Code 1 (R232). -/
  | illegalInstruction
  /-- Code 2 (R233). -/
  | unsupportedHardware
  /-- Code 3 (R234). -/
  | cipherNotReady
  /-- Code 4 (R235). -/
  | keyScheduleLocked
  /-- Code 5 (R236). -/
  | misalignedAccess
  /-- Code 6 (R237). -/
  | accessFault
  /-- Code 7 (R238). -/
  | fetchFault
  deriving DecidableEq, Repr

/-- A memory: the bytes listed, addresses strictly rising, none equal to what an unlisted address reads as
(`Memory.wf`). -/
abbrev Memory := List Host.Cell

/-- Everything the spec gives the machine (10_state.md R20 to R46). -/
structure State where
  /-- The open parameters (00_scope.md R13); constant (70_reset_and_hazards.md R262). -/
  cfg : Config
  /-- `X[0..15]` (R20). -/
  x : Vector Word 16
  /-- `V[0..15]` (R24). -/
  v : Vector Block 16
  /-- `RK[0..10]` (R28). -/
  rk : Vector Block 11
  /-- `C` (R23). -/
  c : Bool
  /-- `RDY` (R29). -/
  rdy : Bool
  /-- `BSEL` (R32). -/
  bsel : Bool
  /-- `STATE` (R33). -/
  run : RunState
  /-- `pc` (R34). -/
  pc : CodeAddr
  /-- `CAUSE` (R42). -/
  cause : Cause
  /-- `EPC` (R43). -/
  epc : CodeAddr
  /-- `FINFO` (R44). -/
  finfo : Word
  /-- `IMEM` (R45). -/
  imem : Memory
  /-- `DMEM` (R46). -/
  dmem : Memory
  deriving DecidableEq, Repr

/-- Why the model's `step` stops. The seven fault causes of the engine are not here: they are taken as next states
(60_exceptions.md R231). -/
inductive Fault where
  /-- Raised by `step` in HALTED: the engine executes nothing until `HostStart` (R33, 70_reset_and_hazards.md R260). Safe:
  nothing runs (DEDUCED, assumption log 4). -/
  | engineHalted
  /-- Raised by `step` in FAULTED: the engine is stuck until reset (R33, 60_exceptions.md R243). Safe: nothing runs (DEDUCED,
  assumption log 4). -/
  | engineFaulted
  deriving DecidableEq, Repr

/-- What the model gives no meaning. -/
inductive Refusal where
  /-- Raised by an arm of `exec` whose instruction has no meaning yet. Safe: the model stops. -/
  | notModelled (mnemonic : String)
  /-- Raised by `hostStep` for a host operation outside its "allowed when" column: the host has no such move
  (60_exceptions.md R250, 93_implementation_defined.md V4). Safe: the model stops. -/
  | hostMoveNotAllowed
  deriving DecidableEq, Repr

/-- The state of the engine with parameters `c` right after a power-on reset (R48, R260). `RK` and the memories, which the
spec leaves unspecified there, are as assumption logs 3 and 2 say (DESIGN CHOICE, unsafe). -/
def State.resetOn (c : Config) : State :=
  { cfg := c
    x := Vector.replicate 16 0
    v := Vector.replicate 16 0
    rk := Vector.replicate 11 0
    c := false
    rdy := false
    bsel := false
    run := .halted
    pc := 0
    cause := .noFault
    epc := 0
    finfo := 0
    imem := []
    dmem := [] }

/-- The reset state of the engine of the test vectors (DESIGN CHOICE, unsafe: assumption log 1). -/
def State.reset : State := State.resetOn Config.testVectors

end Sys2Proof.Machine
end

