-- ==== Sys2Proof/Machine/Ops.lean ====
section
/-! DEFINITION. The named operations over memory, registers and control: bytes and little-endian values (20_memory.md R50 to
R53), register access (00_scope.md R16), advancing the pc (10_state.md R36), fetching (R35), and taking a fault
(60_exceptions.md R231). There is no return from a fault: FAULTED is left by reset alone (R243, Machine/HostOps.lean). -/

namespace Sys2Proof.Machine

/-- What a meaning answers. -/
abbrev Result := Host.Outcome State Fault Refusal

/-! Bytes of memory. -/

/-- What an address that is not listed reads as (DESIGN CHOICE, unsafe: assumption log 2). -/
def unlistedByte : Byte := 0

/-- The byte at an address. -/
def Memory.read (m : Memory) (a : Nat) : Byte :=
  match m with
  | [] => unlistedByte
  | cell :: rest => if cell.1 = a then cell.2 else Memory.read rest a

/-- Put a cell at its place among cells of other addresses. -/
def Memory.insert (m : Memory) (cell : Host.Cell) : Memory :=
  match m with
  | [] => [cell]
  | first :: rest => if cell.1 < first.1 then cell :: first :: rest else first :: Memory.insert rest cell

/-- Write a byte, keeping the canonical form: the old cell goes, and the new one is listed unless it equals what an unlisted
address reads as. -/
def Memory.write (m : Memory) (a : Nat) (b : Byte) : Memory :=
  let others := m.filter (fun cell => cell.1 != a)
  if b = unlistedByte then others else Memory.insert others (a, b)

/-- The canonical form: addresses strictly rising, no cell equal to what an unlisted address reads as. -/
def Memory.wf (m : Memory) : Bool :=
  match m with
  | [] => true
  | [cell] => cell.2 != unlistedByte
  | cell :: next :: rest => cell.2 != unlistedByte && decide (cell.1 < next.1) && Memory.wf (next :: rest)

/-- Every listed address exists in a memory of `size` bytes. -/
def Memory.inside (m : Memory) (size : Nat) : Bool := m.all (fun cell => decide (cell.1 < size))

/-- The `n`-byte little-endian value at address `a` (R50, the sum of R52). -/
def Memory.readLE (m : Memory) (a n : Nat) : Nat :=
  match n with
  | 0 => 0
  | k + 1 => (m.read a).toNat + 256 * m.readLE (a + 1) k

/-- Write the low `n` bytes of a value at address `a`, little-endian (R50, the loop of R53). -/
def Memory.writeLE (m : Memory) (a n v : Nat) : Memory :=
  match n with
  | 0 => m
  | k + 1 => (m.write a (BitVec.ofNat 8 v)).writeLE (a + 1) k (v / 256)

/-! Registers (R16). No register is hard-wired (R20, R24). -/

/-- `X[r]`. -/
def State.getX (s : State) (r : XReg) : Word := s.x.get r

/-- `X[r] <- a`. -/
def State.setX (s : State) (r : XReg) (a : Word) : State := { s with x := s.x.set r.val a r.isLt }

/-- `V[r]`. -/
def State.getV (s : State) (r : VReg) : Block := s.v.get r

/-- `V[r] <- b`. -/
def State.setV (s : State) (r : VReg) (b : Block) : State := { s with v := s.v.set r.val b r.isLt }

/-- `C <- b`. -/
def State.setC (s : State) (b : Bool) : State := { s with c := b }

/-- `pc <- t`. -/
def State.setPc (s : State) (t : CodeAddr) : State := { s with pc := t }

/-- `DMEM <- m`. -/
def State.setDmem (s : State) (m : Memory) : State := { s with dmem := m }

/-- `BSEL <- b`. -/
def State.setBsel (s : State) (b : Bool) : State := { s with bsel := b }

/-- `STATE <- r`. -/
def State.setRun (s : State) (r : RunState) : State := { s with run := r }

/-- `RK[0..10] <- ks; RDY <- 1` (44_aes_cipher_ops.md R175). -/
def State.setKeys (s : State) (ks : Vector Block 11) : State := { s with rk := ks, rdy := true }

/-- The end of an instruction that does not write `pc`: `pc <- (pc + 4) mod 2^32` (R36). -/
def State.advance (s : State) : State := s.setPc (s.pc + 4)

/-- An instruction completes in state `s` and `pc` advances. -/
def finish (s : State) : Result := .next s.advance

/-! Faults. -/

/-- Fault entry (60_exceptions.md R231): `CAUSE`, `EPC`, `FINFO` and `STATE` are written, and nothing else. -/
def takeFault (f : Cause) (info : Word) (s : State) : State :=
  { s with cause := f, epc := s.pc, finfo := info, run := .faulted }

/-- `raise f(info)` (R16). -/
def raise (f : Cause) (info : Word) (s : State) : Result := .next (takeFault f info s)

/-- A fault whose information is the instruction word (R44). The word is the instruction's encoding (DEDUCED:
assumption log 8). -/
def raiseWord (f : Cause) (i : Instr) (s : State) : Result := raise f ((encode i).setWidth 128) s

/-- The IllegalInstruction fault for a term that stands for an illegal word (30_encoding.md R80). `step` never meets one
(DEDUCED, safe: assumption log 7). -/
def raiseIllegal (i : Instr) (s : State) : Result := raiseWord .illegalInstruction i s

/-! Data memory (R52, R53). -/

/-- The fault an access of `n` bytes at `addr` raises, if any: alignment first, then range, over unbounded integers. -/
def accessCheck (s : State) (addr : Word) (n : Nat) : Option Cause :=
  if addr.toNat % n ≠ 0 then some .misalignedAccess
  else if addr.toNat + n > s.cfg.dmemBytes then some .accessFault
  else none

/-- `MemRead(addr, n)` (R52), then `k` with the value. -/
def memRead (s : State) (addr : Word) (n : Nat) (k : Word → Result) : Result :=
  match accessCheck s addr n with
  | some f => raise f addr s
  | none => k (BitVec.ofNat 128 (s.dmem.readLE addr.toNat n))

/-- `MemWrite(addr, n, v)` (R53), then `k` with the state written. -/
def memWrite (s : State) (addr : Word) (n v : Nat) (k : State → Result) : Result :=
  match accessCheck s addr n with
  | some f => raise f addr s
  | none => k (s.setDmem (s.dmem.writeLE addr.toNat n v))

/-! Fetching (R35, R51). -/

/-- Step (1) of R35 passes: the pc is aligned and the word lies inside instruction memory. -/
def fetchable (s : State) : Bool :=
  s.pc.toNat % 4 == 0 && decide (s.pc.toNat + 4 ≤ s.cfg.imemBytes)

/-- The four bytes at the pc, in address order. -/
def fetchBytes (s : State) : List Byte :=
  [s.imem.read s.pc.toNat, s.imem.read (s.pc.toNat + 1), s.imem.read (s.pc.toNat + 2), s.imem.read (s.pc.toNat + 3)]

/-- The little-endian word at the pc (R51). -/
def fetchWord (s : State) : InstrWord :=
  wordOfBytes (s.imem.read s.pc.toNat) (s.imem.read (s.pc.toNat + 1)) (s.imem.read (s.pc.toNat + 2))
    (s.imem.read (s.pc.toNat + 3))

/-- FetchFault (60_exceptions.md R238): the information is the pc. -/
def raiseFetch (s : State) : Result := raise .fetchFault (s.pc.setWidth 128) s

/-- IllegalInstruction on the fetched word (60_exceptions.md R232). -/
def raiseFetchedIllegal (s : State) : Result := raise .illegalInstruction ((fetchWord s).setWidth 128) s

/-- A word laid out at the pc in IMEM and the engine RUNNING, as the host does it (DESIGN CHOICE, safe: assumption log
5). -/
def placeWord (s : State) (w : InstrWord) : State :=
  { s with imem := s.imem.writeLE s.pc.toNat 4 w.toNat, run := .running }

end Sys2Proof.Machine
end

