-- ==== Sys2Proof/Machine/Operands.lean ====
section
/-! DEFINITION. Operand forms (30_encoding.md R75, R76): words of width W in X registers (10_state.md R21), effective
addresses (45_move_memory_control.md R204), branch targets (R209), CSR values (10_state.md R38 to R44). -/

namespace Sys2Proof.Machine

/-- W, in bits (30_encoding.md R73). -/
def widthBits (w : Width) : Nat :=
  match w with
  | .w8 => 8
  | .w16 => 16
  | .w32 => 32
  | .w64 => 64
  | .w128 => 128

/-- W/8, in bytes (20_memory.md R56). -/
def widthBytes (w : Width) : Nat :=
  match w with
  | .w8 => 1
  | .w16 => 2
  | .w32 => 4
  | .w64 => 8
  | .w128 => 16

/-- `X[r][W-1:0]`: bits 127 down to W are ignored (R21). -/
def readW (w : Width) (r : XReg) (s : State) : Nat := (s.getX r).toNat % 2 ^ widthBits w

/-- `X[r] <- zext_128(v)` for a W-bit result `v` (R21). -/
def writeW (r : XReg) (v : Nat) (s : State) : State := s.setX r (BitVec.ofNat 128 v)

/-- `EA = (X[xa] + sext_128(simm12)) mod 2^128` (R204). -/
def effectiveAddress (xa : XReg) (simm12 : BitVec 12) (s : State) : Word := s.getX xa + simm12.signExtend 128

/-- `target = (pc + 4 * signed_16(off16)) mod 2^32` (R209). -/
def branchTarget (off16 : BitVec 16) (s : State) : CodeAddr := BitVec.ofInt 32 ((s.pc.toNat : Int) + 4 * off16.toInt)

/-- A control transfer: taken to its target, not taken to the next instruction (R209). -/
def branchIf (taken : Bool) (off16 : BitVec 16) (s : State) : Result :=
  if taken then .next (s.setPc (branchTarget off16 s)) else finish s

/-- The value of `STATE` (R33). -/
def runCode (r : RunState) : BitVec 2 :=
  match r with
  | .halted => 0
  | .running => 1
  | .faulted => 2

/-- The fault code (60_exceptions.md R230). -/
def causeCode (c : Cause) : BitVec 4 :=
  match c with
  | .noFault => 0
  | .illegalInstruction => 1
  | .unsupportedHardware => 2
  | .cipherNotReady => 3
  | .keyScheduleLocked => 4
  | .misalignedAccess => 5
  | .accessFault => 6
  | .fetchFault => 7

/-- `CSR[n]`, the 128-bit value; every unnamed bit reads 0 (R38 to R44). -/
def readCsr (n : Csr) (s : State) : Word :=
  match n with
  | .cap => (BitVec.ofBool s.cfg.hasArmAes ++ BitVec.ofBool s.cfg.hasX86Aes).setWidth 128
  | .ctrl => (BitVec.ofBool s.bsel).setWidth 128
  | .status => (runCode s.run ++ BitVec.ofBool s.rdy ++ BitVec.ofBool s.c).setWidth 128
  | .cause => (causeCode s.cause).setWidth 128
  | .epc => s.epc.setWidth 128
  | .finfo => s.finfo

/-- A write of `CTRL`: bit 0 goes to `BSEL`, the others are ignored (R40). -/
def writeCtrl (v : Word) (s : State) : State := s.setBsel (v.getLsbD 0)

end Sys2Proof.Machine
end

