-- ==== Sys2Proof/Machine/Flags.lean ====
section
/-! DEFINITION. The carry flag: the carry-in select (40_widening_arithmetic.md R102) and the sums and differences that write
`C` (R103, R104). The engine has no other flag (10_state.md R23). -/

namespace Sys2Proof.Machine

/-- `SelC(cin)` (R102). -/
def selC (x : CarrySel) (s : State) : Bool :=
  match x with
  | .zero => false
  | .one => true
  | .flag => s.c

/-- `carry_add` on W-bit words (R103): the sum and the carry-out, the OR of the overflow flags of the two constituent
additions. -/
def carryAdd (w : Width) (a b : Nat) (ci : Bool) : Nat × Bool :=
  let s1 := a + b
  let o1 := decide (2 ^ widthBits w ≤ s1)
  let t := s1 % 2 ^ widthBits w
  let s2 := t + ci.toNat
  let o2 := decide (2 ^ widthBits w ≤ s2)
  (s2 % 2 ^ widthBits w, o1 || o2)

/-- `borrow_sub` on W-bit words (R104): the difference and the borrow-out, true when either constituent subtraction
underflowed. The differences are taken over the integers. -/
def borrowSub (w : Width) (a b : Nat) (bi : Bool) : Nat × Bool :=
  let d1 := (a : Int) - (b : Int)
  let u1 := decide (d1 < 0)
  let t := d1 % 2 ^ widthBits w
  let d2 := t - (bi.toNat : Int)
  let u2 := decide (d2 < 0)
  ((d2 % 2 ^ widthBits w).toNat, u1 || u2)

/-- The two W-bit words of an exact product (R105, R106): low, then high. -/
def splitWide (w : Width) (p : Nat) : Nat × Nat := (p % 2 ^ widthBits w, p / 2 ^ widthBits w)

end Sys2Proof.Machine
end

