-- ==== Sys2Proof/Machine/AesArm.lean ====
section
/-! DEFINITION. The ARM-family AES instructions (43_aes_arm_primitives.md R160 to R162). -/

namespace Sys2Proof.Machine

/-- The capability check of R160: `HAS_ARMAES`, whatever `BSEL` holds. -/
def withArm (i : Instr) (s : State) (k : Result) : Result :=
  if s.cfg.hasArmAes then k else raiseWord .unsupportedHardware i s

/-- `AESE vd, va, vk` (R161). -/
def execAese (vd va vk : VReg) (s : State) : Result :=
  withArm (.aese vd va vk) s (finish (s.setV vd (aese (s.getV va) (s.getV vk))))

/-- `AESMC vd, va` (R162). -/
def execAesmc (vd va : VReg) (s : State) : Result :=
  withArm (.aesmc vd va) s (finish (s.setV vd (aesmc (s.getV va))))

end Sys2Proof.Machine
end

