-- ==== Sys2Proof/Machine/AesX86.lean ====
section
/-! DEFINITION. The x86-family AES instructions (42_aes_x86_primitives.md R150 to R153). -/

namespace Sys2Proof.Machine

/-- The capability check of R150: `HAS_X86AES`, whatever `BSEL` holds. -/
def withX86 (i : Instr) (s : State) (k : Result) : Result :=
  if s.cfg.hasX86Aes then k else raiseWord .unsupportedHardware i s

/-- `AESENC vd, va, vk` (R151). -/
def execAesenc (vd va vk : VReg) (s : State) : Result :=
  withX86 (.aesenc vd va vk) s (finish (s.setV vd (aesenc (s.getV va) (s.getV vk))))

/-- `AESENCLAST vd, va, vk` (R152). -/
def execAesenclast (vd va vk : VReg) (s : State) : Result :=
  withX86 (.aesenclast vd va vk) s (finish (s.setV vd (aesenclast (s.getV va) (s.getV vk))))

/-- `AESKEYGENASSIST vd, va, imm8` (R153). -/
def execAeskeygenassist (vd va : VReg) (imm8 : BitVec 8) (s : State) : Result :=
  withX86 (.aeskeygenassist vd va imm8) s (finish (s.setV vd (aeskeygenassist (s.getV va) imm8)))

end Sys2Proof.Machine
end

