-- ==== Sys2Proof/Machine/BlockOps.lean ====
section
/-! DEFINITION. Block helper instructions (41_block_ops_and_aes_functions.md R128 to R136). They need no backend (R128). -/

namespace Sys2Proof.Machine

/-- `VMOV vd, va` (R130). -/
def execVmov (vd va : VReg) (s : State) : Result := finish (s.setV vd (s.getV va))

/-- `VXOR vd, va, vb` (R131). -/
def execVxor (vd va vb : VReg) (s : State) : Result := finish (s.setV vd (vxor (s.getV va) (s.getV vb)))

/-- `VSHUFW vd, va, imm8` (R132). -/
def execVshufw (vd va : VReg) (imm8 : BitVec 8) (s : State) : Result := finish (s.setV vd (vshufw (s.getV va) imm8))

/-- `VSLLB vd, va, imm8` (R133). -/
def execVsllb (vd va : VReg) (imm8 : BitVec 8) (s : State) : Result := finish (s.setV vd (vsllb (s.getV va) imm8))

/-- `VRORW vd, va, imm8` (R134). -/
def execVrorw (vd va : VReg) (imm8 : Fin 32) (s : State) : Result := finish (s.setV vd (vrorw (s.getV va) imm8.val))

/-- `VIMMW vd, imm16` (R135). -/
def execVimmw (vd : VReg) (imm16 : BitVec 16) (s : State) : Result := finish (s.setV vd (vimmw imm16))

/-- `VLDRK vd, idx` (R136): the bank is unreadable while `RDY` is 0. -/
def execVldrk (vd : VReg) (idx : Fin 11) (s : State) : Result :=
  if s.rdy then finish (s.setV vd (s.rk.get idx)) else raiseWord .cipherNotReady (.vldrk vd idx) s

end Sys2Proof.Machine
end

