-- ==== Sys2Proof/Machine/Cipher.lean ====
section
/-! DEFINITION. The whole-cipher instructions (44_aes_cipher_ops.md R170 to R182). -/

namespace Sys2Proof.Machine

/-- A backend, as a path of the whole-cipher operations (R170). -/
inductive Path where
  | x86 | arm
  deriving DecidableEq, Repr

/-- `Path()` (R170); `none` when the engine has no backend. -/
def pathOf (s : State) : Option Path :=
  if s.cfg.hasX86Aes && (!s.cfg.hasArmAes || !s.bsel) then some .x86
  else if s.cfg.hasArmAes && (!s.cfg.hasX86Aes || s.bsel) then some .arm
  else none

/-- Key expansion on a path (R175). -/
def keyExpandOn (p : Path) (key : Block) : Vector Block 11 :=
  match p with
  | .x86 => keyExpandX86 key
  | .arm => keyExpandArm key

/-- Encryption of one Block on a path (R180); `ENCM` and `ENCS` use it too (DEDUCED from R179: assumption log 10). -/
def encryptOn (p : Path) (rk : Vector Block 11) (b : Block) : Block :=
  match p with
  | .x86 => encryptX86 rk b
  | .arm => encryptArm rk b

/-- The backend check, first of the checks of every whole-cipher instruction (R170, 60_exceptions.md R241). -/
def withPath (i : Instr) (s : State) (k : Path → Result) : Result :=
  match pathOf s with
  | none => raiseWord .unsupportedHardware i s
  | some p => k p

/-- The checks of the encryption instructions, in their order: UnsupportedHardware, CipherNotReady (R180 to R182). -/
def withCipher (i : Instr) (s : State) (k : Path → Result) : Result :=
  withPath i s fun p => if s.rdy then k p else raiseWord .cipherNotReady i s

/-- `KEXP va` (R175). -/
def execKexp (va : VReg) (s : State) : Result :=
  withPath (.kexp va) s fun p =>
    if s.rdy then raiseWord .keyScheduleLocked (.kexp va) s
    else finish (s.setKeys (keyExpandOn p (s.getV va)))

/-- `ENCB vd, va` (R180). -/
def execEncb (vd va : VReg) (s : State) : Result :=
  withCipher (.encb vd va) s fun p => finish (s.setV vd (encryptOn p s.rk (s.getV va)))

/-- The V register `i` places after `r`; the run stays inside the file in every legal `ENCM` (R181). -/
def regAfter (r : VReg) (i : Nat) : VReg := Fin.ofNat 16 (r.val + i)

/-- `V[va .. va + n - 1]`, in order. -/
def readRun (va : VReg) (n : Nat) (s : State) : List Block := (List.range n).map fun i => s.getV (regAfter va i)

/-- Write Blocks to consecutive V registers, the first at place `i` of the run that starts at `vd`. -/
def writeRun (vd : VReg) (i : Nat) (bs : List Block) (s : State) : State :=
  match bs with
  | [] => s
  | b :: rest => writeRun vd (i + 1) rest (s.setV (regAfter vd i) b)

/-- `ENCM vd, va, n` (R181): all sources are read first. A word whose runs pass `V15` is illegal. -/
def execEncm (vd va : VReg) (n : Fin 9) (s : State) : Result :=
  if (Instr.encm vd va n).wellFormed then
    withCipher (.encm vd va n) s fun p =>
      finish (writeRun vd 0 ((readRun va n.val s).map (encryptOn p s.rk)) s)
  else raiseIllegal (.encm vd va n) s

/-- The `n` Blocks in memory from address `a` on (R50: byte i of a Block at address + i). -/
def readBlocks (m : Memory) (a n : Nat) : List Block :=
  (List.range n).map fun j => BitVec.ofNat 128 (m.readLE (a + 16 * j) 16)

/-- Write Blocks to memory from address `a` on. -/
def writeBlocks (m : Memory) (a : Nat) (bs : List Block) : Memory :=
  match bs with
  | [] => m
  | b :: rest => writeBlocks (m.writeLE a 16 b.toNat) (a + 16) rest

/-- One batch of `ENCS` (R182): the `n` Blocks are read, then the results are written. -/
def encryptBatch (enc : Block → Block) (m : Memory) (a n : Nat) : Memory :=
  writeBlocks m a ((readBlocks m a n).map enc)

/-- `k` maximal batches of 8 Blocks from address `a` on (R182). -/
def encryptBatches (enc : Block → Block) (m : Memory) (a k : Nat) : Memory :=
  match k with
  | 0 => m
  | j + 1 => encryptBatches enc (encryptBatch enc m a 8) (a + 128) j

/-- The loop of `ENCS` (R182): maximal batches of 8, then the remainder of 0 to 7. -/
def encryptSlice (enc : Block → Block) (m : Memory) (base count : Nat) : Memory :=
  encryptBatch enc (encryptBatches enc m base (count / 8)) (base + 128 * (count / 8)) (count % 8)

/-- The address checks of `ENCS` for a count above 0 (R182): alignment, then range over unbounded integers; the range fault
records the first byte address of the slice that does not exist. -/
def sliceCheck (s : State) (base : Word) (count : Nat) : Option (Cause × Word) :=
  if base.toNat % 16 ≠ 0 then some (.misalignedAccess, base)
  else if base.toNat + 16 * count > s.cfg.dmemBytes then
    some (.accessFault, if base.toNat ≥ s.cfg.dmemBytes then base else BitVec.ofNat 128 s.cfg.dmemBytes)
  else none

/-- `ENCS xa, xn` (R182). An empty slice touches nothing and has no address to be wrong. -/
def execEncs (xa xn : XReg) (s : State) : Result :=
  withCipher (.encs xa xn) s fun p =>
    let base := s.getX xa
    let count := (s.getX xn).toNat
    if count = 0 then finish s
    else
      match sliceCheck s base count with
      | some (f, info) => raise f info s
      | none => finish (s.setDmem (encryptSlice (encryptOn p s.rk) s.dmem base.toNat count))

end Sys2Proof.Machine
end

