-- ==== Sys2Proof/Machine/Control.lean ====
section
/-! DEFINITION. Control transfers (45_move_memory_control.md R209 to R214). The target is not checked here: a bad one is
found by the next fetch (R209). -/

namespace Sys2Proof.Machine

/-- `JMP target` (R210). -/
def execJmp (off16 : BitVec 16) (s : State) : Result := branchIf true off16 s

/-- `BZ xa, target` (R211): the test is on all 128 bits. -/
def execBz (xa : XReg) (off16 : BitVec 16) (s : State) : Result := branchIf (s.getX xa == 0) off16 s

/-- `BNZ xa, target` (R212). -/
def execBnz (xa : XReg) (off16 : BitVec 16) (s : State) : Result := branchIf (s.getX xa != 0) off16 s

/-- `BC target` (R213). -/
def execBc (off16 : BitVec 16) (s : State) : Result := branchIf s.c off16 s

/-- `BNC target` (R214). -/
def execBnc (off16 : BitVec 16) (s : State) : Result := branchIf (!s.c) off16 s

end Sys2Proof.Machine
end

