-- ==== Sys2Proof/Machine/LoadStore.lean ====
section
/-! DEFINITION. Memory instructions (45_move_memory_control.md R204 to R208). -/

namespace Sys2Proof.Machine

/-- `LDX.W xd, simm12(xa)` (R205): zero-extends. -/
def loadX (w : Width) (xd xa : XReg) (simm12 : BitVec 12) (s : State) : Result :=
  memRead s (effectiveAddress xa simm12 s) (widthBytes w) fun v => finish (s.setX xd v)

/-- `STX.W xs, simm12(xa)` (R206): stores the low W bits. -/
def storeX (w : Width) (xs xa : XReg) (simm12 : BitVec 12) (s : State) : Result :=
  memWrite s (effectiveAddress xa simm12 s) (widthBytes w) (readW w xs s) finish

/-- `LDX.8` (R205). -/
def execLdx8 (xd xa : XReg) (simm12 : BitVec 12) (s : State) : Result := loadX .w8 xd xa simm12 s

/-- `LDX.16` (R205). -/
def execLdx16 (xd xa : XReg) (simm12 : BitVec 12) (s : State) : Result := loadX .w16 xd xa simm12 s

/-- `LDX.32` (R205). -/
def execLdx32 (xd xa : XReg) (simm12 : BitVec 12) (s : State) : Result := loadX .w32 xd xa simm12 s

/-- `LDX.64` (R205). -/
def execLdx64 (xd xa : XReg) (simm12 : BitVec 12) (s : State) : Result := loadX .w64 xd xa simm12 s

/-- `LDX.128` (R205). -/
def execLdx128 (xd xa : XReg) (simm12 : BitVec 12) (s : State) : Result := loadX .w128 xd xa simm12 s

/-- `STX.8` (R206). -/
def execStx8 (xs xa : XReg) (simm12 : BitVec 12) (s : State) : Result := storeX .w8 xs xa simm12 s

/-- `STX.16` (R206). -/
def execStx16 (xs xa : XReg) (simm12 : BitVec 12) (s : State) : Result := storeX .w16 xs xa simm12 s

/-- `STX.32` (R206). -/
def execStx32 (xs xa : XReg) (simm12 : BitVec 12) (s : State) : Result := storeX .w32 xs xa simm12 s

/-- `STX.64` (R206). -/
def execStx64 (xs xa : XReg) (simm12 : BitVec 12) (s : State) : Result := storeX .w64 xs xa simm12 s

/-- `STX.128` (R206). -/
def execStx128 (xs xa : XReg) (simm12 : BitVec 12) (s : State) : Result := storeX .w128 xs xa simm12 s

/-- `VLD vd, simm12(xa)` (R207). -/
def execVld (vd : VReg) (xa : XReg) (simm12 : BitVec 12) (s : State) : Result :=
  memRead s (effectiveAddress xa simm12 s) 16 fun v => finish (s.setV vd v)

/-- `VST vs, simm12(xa)` (R208). -/
def execVst (vs : VReg) (xa : XReg) (simm12 : BitVec 12) (s : State) : Result :=
  memWrite s (effectiveAddress xa simm12 s) 16 (s.getV vs).toNat finish

end Sys2Proof.Machine
end

