-- ==== Sys2Proof/Machine/Move.lean ====
section
/-! DEFINITION. Moves (45_move_memory_control.md R201 to R203). -/

namespace Sys2Proof.Machine

/-- `LI xd, imm16` (R201): zero-extended. -/
def execLi (xd : XReg) (imm16 : BitVec 16) (s : State) : Result := finish (s.setX xd (imm16.setWidth 128))

/-- `MOVX xd, xa` (R202). -/
def execMovx (xd xa : XReg) (s : State) : Result := finish (s.setX xd (s.getX xa))

/-- `ADDI xd, xa, simm16` (R203): sign-extended, modulo 2^128, no flag. -/
def execAddi (xd xa : XReg) (simm16 : BitVec 16) (s : State) : Result :=
  finish (s.setX xd (s.getX xa + simm16.signExtend 128))

end Sys2Proof.Machine
end

