-- ==== Sys2Proof/Machine/System.lean ====
section
/-! DEFINITION. System instructions (45_move_memory_control.md R216 to R220). -/

namespace Sys2Proof.Machine

/-- `HALT` (R216): `STATE <- HALTED; pc <- (pc + 4) mod 2^32`. -/
def execHalt (s : State) : Result := finish (s.setRun .halted)

/-- `CLRC` (R217). -/
def execClrc (s : State) : Result := finish (s.setC false)

/-- `SETC` (R218). -/
def execSetc (s : State) : Result := finish (s.setC true)

/-- `CSRR xd, csr` (R219). -/
def execCsrr (xd : XReg) (csr : Csr) (s : State) : Result := finish (s.setX xd (readCsr csr s))

/-- `CSRW csr, xa` (R220): `CTRL` alone can be written; the words of the other registers are illegal. -/
def execCsrw (csr : Csr) (xa : XReg) (s : State) : Result :=
  if csr = .ctrl then finish (writeCtrl (s.getX xa) s) else raiseIllegal (.csrw csr xa) s

end Sys2Proof.Machine
end

