-- ==== Sys2Proof/Machine/Widening.lean ====
section
/-! DEFINITION. The widening arithmetic unit (40_widening_arithmetic.md R100 to R106). Sources and `C` are read before any
destination is written (R101). -/

namespace Sys2Proof.Machine

/-- `CADD.W xd, xa, xb, cin` (R103). -/
def addWithCarry (w : Width) (xd xa xb : XReg) (cin : CarrySel) (s : State) : Result :=
  let r := carryAdd w (readW w xa s) (readW w xb s) (selC cin s)
  finish ((writeW xd r.1 s).setC r.2)

/-- `BSUB.W xd, xa, xb, bin` (R104). -/
def subWithBorrow (w : Width) (xd xa xb : XReg) (bin : CarrySel) (s : State) : Result :=
  let r := borrowSub w (readW w xa s) (readW w xb s) (selC bin s)
  finish ((writeW xd r.1 s).setC r.2)

/-- Both words of an exact product to `xl` and `xh` (R105, R106); a word with `xl` = `xh` is illegal, and `i` is its term. -/
def writeWide (w : Width) (i : Instr) (xl xh : XReg) (p : Nat) (s : State) : Result :=
  if xl = xh then raiseIllegal i s
  else finish (writeW xh (splitWide w p).2 (writeW xl (splitWide w p).1 s))

/-- `WMUL.W xl, xh, xa, xb` (R105). -/
def wideMul (w : Width) (xl xh xa xb : XReg) (s : State) : Result :=
  writeWide w (.wmul w xl xh xa xb) xl xh (readW w xa s * readW w xb s) s

/-- `CMUL.W xl, xh, xa, xb, xc` (R106). -/
def wideMulAdd (w : Width) (xl xh xa xb xc : XReg) (s : State) : Result :=
  writeWide w (.cmul w xl xh xa xb xc) xl xh (readW w xa s * readW w xb s + readW w xc s) s

/-- `CADD.8` (R103). -/
def execCadd8 (xd xa xb : XReg) (cin : CarrySel) (s : State) : Result := addWithCarry .w8 xd xa xb cin s

/-- `CADD.16` (R103). -/
def execCadd16 (xd xa xb : XReg) (cin : CarrySel) (s : State) : Result := addWithCarry .w16 xd xa xb cin s

/-- `CADD.32` (R103). -/
def execCadd32 (xd xa xb : XReg) (cin : CarrySel) (s : State) : Result := addWithCarry .w32 xd xa xb cin s

/-- `CADD.64` (R103). -/
def execCadd64 (xd xa xb : XReg) (cin : CarrySel) (s : State) : Result := addWithCarry .w64 xd xa xb cin s

/-- `CADD.128` (R103). -/
def execCadd128 (xd xa xb : XReg) (cin : CarrySel) (s : State) : Result := addWithCarry .w128 xd xa xb cin s

/-- `BSUB.8` (R104). -/
def execBsub8 (xd xa xb : XReg) (bin : CarrySel) (s : State) : Result := subWithBorrow .w8 xd xa xb bin s

/-- `BSUB.16` (R104). -/
def execBsub16 (xd xa xb : XReg) (bin : CarrySel) (s : State) : Result := subWithBorrow .w16 xd xa xb bin s

/-- `BSUB.32` (R104). -/
def execBsub32 (xd xa xb : XReg) (bin : CarrySel) (s : State) : Result := subWithBorrow .w32 xd xa xb bin s

/-- `BSUB.64` (R104). -/
def execBsub64 (xd xa xb : XReg) (bin : CarrySel) (s : State) : Result := subWithBorrow .w64 xd xa xb bin s

/-- `BSUB.128` (R104). -/
def execBsub128 (xd xa xb : XReg) (bin : CarrySel) (s : State) : Result := subWithBorrow .w128 xd xa xb bin s

/-- `WMUL.8` (R105). -/
def execWmul8 (xl xh xa xb : XReg) (s : State) : Result := wideMul .w8 xl xh xa xb s

/-- `WMUL.16` (R105). -/
def execWmul16 (xl xh xa xb : XReg) (s : State) : Result := wideMul .w16 xl xh xa xb s

/-- `WMUL.32` (R105). -/
def execWmul32 (xl xh xa xb : XReg) (s : State) : Result := wideMul .w32 xl xh xa xb s

/-- `WMUL.64` (R105). -/
def execWmul64 (xl xh xa xb : XReg) (s : State) : Result := wideMul .w64 xl xh xa xb s

/-- `WMUL.128` (R105). -/
def execWmul128 (xl xh xa xb : XReg) (s : State) : Result := wideMul .w128 xl xh xa xb s

/-- `CMUL.8` (R106). -/
def execCmul8 (xl xh xa xb xc : XReg) (s : State) : Result := wideMulAdd .w8 xl xh xa xb xc s

/-- `CMUL.16` (R106). -/
def execCmul16 (xl xh xa xb xc : XReg) (s : State) : Result := wideMulAdd .w16 xl xh xa xb xc s

/-- `CMUL.32` (R106). -/
def execCmul32 (xl xh xa xb xc : XReg) (s : State) : Result := wideMulAdd .w32 xl xh xa xb xc s

/-- `CMUL.64` (R106). -/
def execCmul64 (xl xh xa xb xc : XReg) (s : State) : Result := wideMulAdd .w64 xl xh xa xb xc s

/-- `CMUL.128` (R106). -/
def execCmul128 (xl xh xa xb xc : XReg) (s : State) : Result := wideMulAdd .w128 xl xh xa xb xc s

end Sys2Proof.Machine
end

