-- ==== Sys2Proof/Machine/Dispatch.lean ====
section
/-! DEFINITION. The dispatch: one arm per constructor of Instr, each one direct call of its meaning. -/

namespace Sys2Proof.Machine

def exec (i : Instr) (s : State) : Host.Outcome State Fault Refusal :=
  match i with
  | .halt => Sys2Proof.Machine.execHalt s
  | .clrc => Sys2Proof.Machine.execClrc s
  | .setc => Sys2Proof.Machine.execSetc s
  | .csrr xd csr => Sys2Proof.Machine.execCsrr xd csr s
  | .csrw csr xa => Sys2Proof.Machine.execCsrw csr xa s
  | .jmp off16 => Sys2Proof.Machine.execJmp off16 s
  | .bz xa off16 => Sys2Proof.Machine.execBz xa off16 s
  | .bnz xa off16 => Sys2Proof.Machine.execBnz xa off16 s
  | .bc off16 => Sys2Proof.Machine.execBc off16 s
  | .bnc off16 => Sys2Proof.Machine.execBnc off16 s
  | .li xd imm16 => Sys2Proof.Machine.execLi xd imm16 s
  | .movx xd xa => Sys2Proof.Machine.execMovx xd xa s
  | .addi xd xa simm16 => Sys2Proof.Machine.execAddi xd xa simm16 s
  | .ldx8 xd xa simm12 => Sys2Proof.Machine.execLdx8 xd xa simm12 s
  | .ldx16 xd xa simm12 => Sys2Proof.Machine.execLdx16 xd xa simm12 s
  | .ldx32 xd xa simm12 => Sys2Proof.Machine.execLdx32 xd xa simm12 s
  | .ldx64 xd xa simm12 => Sys2Proof.Machine.execLdx64 xd xa simm12 s
  | .ldx128 xd xa simm12 => Sys2Proof.Machine.execLdx128 xd xa simm12 s
  | .stx8 xs xa simm12 => Sys2Proof.Machine.execStx8 xs xa simm12 s
  | .stx16 xs xa simm12 => Sys2Proof.Machine.execStx16 xs xa simm12 s
  | .stx32 xs xa simm12 => Sys2Proof.Machine.execStx32 xs xa simm12 s
  | .stx64 xs xa simm12 => Sys2Proof.Machine.execStx64 xs xa simm12 s
  | .stx128 xs xa simm12 => Sys2Proof.Machine.execStx128 xs xa simm12 s
  | .vld vd xa simm12 => Sys2Proof.Machine.execVld vd xa simm12 s
  | .vst vs xa simm12 => Sys2Proof.Machine.execVst vs xa simm12 s
  | .cadd8 xd xa xb cin => Sys2Proof.Machine.execCadd8 xd xa xb cin s
  | .cadd16 xd xa xb cin => Sys2Proof.Machine.execCadd16 xd xa xb cin s
  | .cadd32 xd xa xb cin => Sys2Proof.Machine.execCadd32 xd xa xb cin s
  | .cadd64 xd xa xb cin => Sys2Proof.Machine.execCadd64 xd xa xb cin s
  | .cadd128 xd xa xb cin => Sys2Proof.Machine.execCadd128 xd xa xb cin s
  | .bsub8 xd xa xb bin => Sys2Proof.Machine.execBsub8 xd xa xb bin s
  | .bsub16 xd xa xb bin => Sys2Proof.Machine.execBsub16 xd xa xb bin s
  | .bsub32 xd xa xb bin => Sys2Proof.Machine.execBsub32 xd xa xb bin s
  | .bsub64 xd xa xb bin => Sys2Proof.Machine.execBsub64 xd xa xb bin s
  | .bsub128 xd xa xb bin => Sys2Proof.Machine.execBsub128 xd xa xb bin s
  | .wmul8 xl xh xa xb => Sys2Proof.Machine.execWmul8 xl xh xa xb s
  | .wmul16 xl xh xa xb => Sys2Proof.Machine.execWmul16 xl xh xa xb s
  | .wmul32 xl xh xa xb => Sys2Proof.Machine.execWmul32 xl xh xa xb s
  | .wmul64 xl xh xa xb => Sys2Proof.Machine.execWmul64 xl xh xa xb s
  | .wmul128 xl xh xa xb => Sys2Proof.Machine.execWmul128 xl xh xa xb s
  | .cmul8 xl xh xa xb xc => Sys2Proof.Machine.execCmul8 xl xh xa xb xc s
  | .cmul16 xl xh xa xb xc => Sys2Proof.Machine.execCmul16 xl xh xa xb xc s
  | .cmul32 xl xh xa xb xc => Sys2Proof.Machine.execCmul32 xl xh xa xb xc s
  | .cmul64 xl xh xa xb xc => Sys2Proof.Machine.execCmul64 xl xh xa xb xc s
  | .cmul128 xl xh xa xb xc => Sys2Proof.Machine.execCmul128 xl xh xa xb xc s
  | .vmov vd va => Sys2Proof.Machine.execVmov vd va s
  | .vxor vd va vb => Sys2Proof.Machine.execVxor vd va vb s
  | .vshufw vd va imm8 => Sys2Proof.Machine.execVshufw vd va imm8 s
  | .vsllb vd va imm8 => Sys2Proof.Machine.execVsllb vd va imm8 s
  | .vrorw vd va imm8 => Sys2Proof.Machine.execVrorw vd va imm8 s
  | .vimmw vd imm16 => Sys2Proof.Machine.execVimmw vd imm16 s
  | .vldrk vd idx => Sys2Proof.Machine.execVldrk vd idx s
  | .aesenc vd va vk => Sys2Proof.Machine.execAesenc vd va vk s
  | .aesenclast vd va vk => Sys2Proof.Machine.execAesenclast vd va vk s
  | .aeskeygenassist vd va imm8 => Sys2Proof.Machine.execAeskeygenassist vd va imm8 s
  | .aese vd va vk => Sys2Proof.Machine.execAese vd va vk s
  | .aesmc vd va => Sys2Proof.Machine.execAesmc vd va s
  | .kexp va => Sys2Proof.Machine.execKexp va s
  | .encb vd va => Sys2Proof.Machine.execEncb vd va s
  | .encm vd va n => Sys2Proof.Machine.execEncm vd va n s
  | .encs xa xn => Sys2Proof.Machine.execEncs xa xn s

end Sys2Proof.Machine
end

