-- ==== Sys2Proof/Machine/Step.lean ====
section
/-! DEFINITION. One step of the engine (10_state.md R35), and the placing of a word where the next step fetches it. -/

namespace Sys2Proof.Machine

/-- One step (R35): only in RUNNING (R33); fetch, decode, execute. A word that is no instruction raises IllegalInstruction
(60_exceptions.md R232), a pc that cannot be fetched raises FetchFault (R238). -/
def step (s : State) : Host.Outcome State Fault Refusal :=
  match s.run with
  | .halted => .fault .engineHalted
  | .faulted => .fault .engineFaulted
  | .running =>
    if fetchable s then
      match decode (fetchBytes s) with
      | .ok (i, _) => exec i s
      | .error _ => raiseFetchedIllegal s
    else raiseFetch s

/-- The state with the table word `w` of `nbits` bits at the pc in IMEM and the engine RUNNING, so that the next step runs
it (DESIGN CHOICE, safe: assumption log 5). -/
def State.withFetchWord (s : State) (nbits w : Nat) : State := placeWord s (BitVec.ofNat 32 (w % 2 ^ nbits))

end Sys2Proof.Machine
end

