-- ==== Sys2Proof/Machine/HostOps.lean ====
section
/-! DEFINITION. The host's operations on the engine (60_exceptions.md R250) and reset (70_reset_and_hazards.md R260 to
R263). The host is an agent of its own: its operations stand beside `step`, between two steps (DEDUCED,
safe: assumption log 6). -/

namespace Sys2Proof.Machine

/-- The host operations that change the engine (R250). -/
inductive HostOp where
  | reset
  | writeImem (addr : Nat) (b : Byte)
  | writeDmem (addr : Nat) (b : Byte)
  | writePc (v : CodeAddr)
  | writeCtrl (v : Word)
  | start
  deriving DecidableEq, Repr

/-- HALTED or FAULTED: the host may touch memories, `pc` and `CTRL` (20_memory.md R61). -/
def idle (s : State) : Bool := s.run != .running

/-- `HostReset` (R260): every register to its reset value; `IMEM`, `DMEM` and the parameters stay (R262). `RK`, whose bits
the spec leaves unspecified, is cleared (R261; DESIGN CHOICE: assumption log 3). -/
def hostReset (s : State) : State := { State.resetOn s.cfg with imem := s.imem, dmem := s.dmem }

/-- `HostStart` (R250): HALTED becomes RUNNING; in RUNNING or FAULTED it does nothing. -/
def hostStart (s : State) : State := if s.run = .halted then s.setRun .running else s

/-- An operation the host has only under a condition (R250). -/
def hostMove (allowed : Bool) (t : State) : Result := if allowed then .next t else .refused .hostMoveNotAllowed

/-- One host operation (R250). `HostStart` "does nothing" where it has no effect, so it is never refused. -/
def hostStep (op : HostOp) (s : State) : Result :=
  match op with
  | .reset => .next (hostReset s)
  | .writeImem a b => hostMove (idle s && decide (a < s.cfg.imemBytes)) { s with imem := s.imem.write a b }
  | .writeDmem a b => hostMove (idle s && decide (a < s.cfg.dmemBytes)) { s with dmem := s.dmem.write a b }
  | .writePc v => hostMove (idle s) (s.setPc v)
  | .writeCtrl v => hostMove (idle s) (writeCtrl v s)
  | .start => .next (hostStart s)

/-- `HostReadDMEM(addr)` (R250): no value outside its condition. -/
def hostReadDmem (a : Nat) (s : State) : Option Byte :=
  if idle s && decide (a < s.cfg.dmemBytes) then some (s.dmem.read a) else none

/-- `HostReadCSR(n)` (R250), in any `STATE`. -/
def hostReadCsr (n : Csr) (s : State) : Word := readCsr n s

/-- `HostReadPC` (R250), in any `STATE`. -/
def hostReadPc (s : State) : CodeAddr := s.pc

/-- `HostReadX(i)` (R250). -/
def hostReadX (r : XReg) (s : State) : Option Word := if idle s then some (s.getX r) else none

/-- `HostReadV(i)` (R250). -/
def hostReadV (r : VReg) (s : State) : Option Block := if idle s then some (s.getV r) else none

end Sys2Proof.Machine
end

