-- ==== Sys2Proof/Safety.lean ====
section
/-! DEFINITION. The terms the claims use: the parts of the state and what leaves them alone, what an instruction may write,
fault entry, the invariant of every engine, the states an engine reaches, and multi-limb integers. -/

namespace Sys2Proof.Machine

/-! Frames. -/

/-- One part of the state that software or the host can tell from the others (10_state.md); a memory is taken byte by
byte. -/
inductive Part where
  | cfg
  | x (r : XReg)
  | v (r : VReg)
  | rk (r : Fin 11)
  | c
  | rdy
  | bsel
  | run
  | pc
  | cause
  | epc
  | finfo
  | imem (a : Nat)
  | dmem (a : Nat)
  deriving DecidableEq, Repr

/-- The part is the same in both states. -/
def Part.same (p : Part) (s t : State) : Prop :=
  match p with
  | .cfg => t.cfg = s.cfg
  | .x r => t.getX r = s.getX r
  | .v r => t.getV r = s.getV r
  | .rk r => t.rk.get r = s.rk.get r
  | .c => t.c = s.c
  | .rdy => t.rdy = s.rdy
  | .bsel => t.bsel = s.bsel
  | .run => t.run = s.run
  | .pc => t.pc = s.pc
  | .cause => t.cause = s.cause
  | .epc => t.epc = s.epc
  | .finfo => t.finfo = s.finfo
  | .imem a => t.imem.read a = s.imem.read a
  | .dmem a => t.dmem.read a = s.dmem.read a

/-- Every part outside `changes` is the same in both states. -/
def OnlyChanges (changes : Part → Prop) (s t : State) : Prop := ∀ p, ¬ changes p → p.same s t

/-- Fault entry as 60_exceptions.md R231 and R242 have it: the four registers, and nothing else. -/
def FaultEntry (f : Cause) (info : Word) (s t : State) : Prop :=
  t.cause = f ∧ t.epc = s.pc ∧ t.finfo = info ∧ t.run = .faulted ∧
  OnlyChanges (fun p => p = .cause ∨ p = .epc ∨ p = .finfo ∨ p = .run) s t

/-- The instruction raises a fault: its next state is the fault's entry. -/
def Raises (i : Instr) (s : State) (f : Cause) (info : Word) : Prop :=
  ∃ t, exec i s = .next t ∧ FaultEntry f info s t

/-- The instruction word as a fault records it (10_state.md R44). -/
def wordInfo (i : Instr) : Word := (encode i).setWidth 128

/-- The instruction completes with `post`, advances the pc (10_state.md R36), and changes only the parts in `changes` and
the pc. -/
def Completes (i : Instr) (s : State) (changes : Part → Prop) (post : State → Prop) : Prop :=
  ∃ t, exec i s = .next t ∧ post t ∧ t.pc = s.pc + 4 ∧ OnlyChanges (fun p => p = .pc ∨ changes p) s t

/-! What an instruction may write (10_state.md R22, R25, R23; 20_memory.md R56). -/

/-- The X registers an instruction writes (10_state.md R22). -/
def xDestsOf : Instr → List XReg
  | .halt => []
  | .clrc => []
  | .setc => []
  | .csrr xd _ => [xd]
  | .csrw _ _ => []
  | .jmp _ => []
  | .bz _ _ => []
  | .bnz _ _ => []
  | .bc _ => []
  | .bnc _ => []
  | .li xd _ => [xd]
  | .movx xd _ => [xd]
  | .addi xd _ _ => [xd]
  | .ldx8 xd _ _ => [xd]
  | .ldx16 xd _ _ => [xd]
  | .ldx32 xd _ _ => [xd]
  | .ldx64 xd _ _ => [xd]
  | .ldx128 xd _ _ => [xd]
  | .stx8 _ _ _ => []
  | .stx16 _ _ _ => []
  | .stx32 _ _ _ => []
  | .stx64 _ _ _ => []
  | .stx128 _ _ _ => []
  | .vld _ _ _ => []
  | .vst _ _ _ => []
  | .cadd8 xd _ _ _ => [xd]
  | .cadd16 xd _ _ _ => [xd]
  | .cadd32 xd _ _ _ => [xd]
  | .cadd64 xd _ _ _ => [xd]
  | .cadd128 xd _ _ _ => [xd]
  | .bsub8 xd _ _ _ => [xd]
  | .bsub16 xd _ _ _ => [xd]
  | .bsub32 xd _ _ _ => [xd]
  | .bsub64 xd _ _ _ => [xd]
  | .bsub128 xd _ _ _ => [xd]
  | .wmul8 xl xh _ _ => [xl, xh]
  | .wmul16 xl xh _ _ => [xl, xh]
  | .wmul32 xl xh _ _ => [xl, xh]
  | .wmul64 xl xh _ _ => [xl, xh]
  | .wmul128 xl xh _ _ => [xl, xh]
  | .cmul8 xl xh _ _ _ => [xl, xh]
  | .cmul16 xl xh _ _ _ => [xl, xh]
  | .cmul32 xl xh _ _ _ => [xl, xh]
  | .cmul64 xl xh _ _ _ => [xl, xh]
  | .cmul128 xl xh _ _ _ => [xl, xh]
  | .vmov _ _ => []
  | .vxor _ _ _ => []
  | .vshufw _ _ _ => []
  | .vsllb _ _ _ => []
  | .vrorw _ _ _ => []
  | .vimmw _ _ => []
  | .vldrk _ _ => []
  | .aesenc _ _ _ => []
  | .aesenclast _ _ _ => []
  | .aeskeygenassist _ _ _ => []
  | .aese _ _ _ => []
  | .aesmc _ _ => []
  | .kexp _ => []
  | .encb _ _ => []
  | .encm _ _ _ => []
  | .encs _ _ => []

/-- The V registers an instruction writes (10_state.md R25); `ENCM` writes a run (44_aes_cipher_ops.md R181). -/
def vDestsOf : Instr → List VReg
  | .halt => []
  | .clrc => []
  | .setc => []
  | .csrr _ _ => []
  | .csrw _ _ => []
  | .jmp _ => []
  | .bz _ _ => []
  | .bnz _ _ => []
  | .bc _ => []
  | .bnc _ => []
  | .li _ _ => []
  | .movx _ _ => []
  | .addi _ _ _ => []
  | .ldx8 _ _ _ => []
  | .ldx16 _ _ _ => []
  | .ldx32 _ _ _ => []
  | .ldx64 _ _ _ => []
  | .ldx128 _ _ _ => []
  | .stx8 _ _ _ => []
  | .stx16 _ _ _ => []
  | .stx32 _ _ _ => []
  | .stx64 _ _ _ => []
  | .stx128 _ _ _ => []
  | .vld vd _ _ => [vd]
  | .vst _ _ _ => []
  | .cadd8 _ _ _ _ => []
  | .cadd16 _ _ _ _ => []
  | .cadd32 _ _ _ _ => []
  | .cadd64 _ _ _ _ => []
  | .cadd128 _ _ _ _ => []
  | .bsub8 _ _ _ _ => []
  | .bsub16 _ _ _ _ => []
  | .bsub32 _ _ _ _ => []
  | .bsub64 _ _ _ _ => []
  | .bsub128 _ _ _ _ => []
  | .wmul8 _ _ _ _ => []
  | .wmul16 _ _ _ _ => []
  | .wmul32 _ _ _ _ => []
  | .wmul64 _ _ _ _ => []
  | .wmul128 _ _ _ _ => []
  | .cmul8 _ _ _ _ _ => []
  | .cmul16 _ _ _ _ _ => []
  | .cmul32 _ _ _ _ _ => []
  | .cmul64 _ _ _ _ _ => []
  | .cmul128 _ _ _ _ _ => []
  | .vmov vd _ => [vd]
  | .vxor vd _ _ => [vd]
  | .vshufw vd _ _ => [vd]
  | .vsllb vd _ _ => [vd]
  | .vrorw vd _ _ => [vd]
  | .vimmw vd _ => [vd]
  | .vldrk vd _ => [vd]
  | .aesenc vd _ _ => [vd]
  | .aesenclast vd _ _ => [vd]
  | .aeskeygenassist vd _ _ => [vd]
  | .aese vd _ _ => [vd]
  | .aesmc vd _ => [vd]
  | .kexp _ => []
  | .encb vd _ => [vd]
  | .encm vd _ n => (List.range n.val).map (regAfter vd)
  | .encs _ _ => []

/-- The instructions that write `C`: `CADD`, `BSUB`, `CLRC`, `SETC` (10_state.md R23). -/
def writesC : Instr → Bool
  | .halt => false
  | .clrc => true
  | .setc => true
  | .csrr _ _ => false
  | .csrw _ _ => false
  | .jmp _ => false
  | .bz _ _ => false
  | .bnz _ _ => false
  | .bc _ => false
  | .bnc _ => false
  | .li _ _ => false
  | .movx _ _ => false
  | .addi _ _ _ => false
  | .ldx8 _ _ _ => false
  | .ldx16 _ _ _ => false
  | .ldx32 _ _ _ => false
  | .ldx64 _ _ _ => false
  | .ldx128 _ _ _ => false
  | .stx8 _ _ _ => false
  | .stx16 _ _ _ => false
  | .stx32 _ _ _ => false
  | .stx64 _ _ _ => false
  | .stx128 _ _ _ => false
  | .vld _ _ _ => false
  | .vst _ _ _ => false
  | .cadd8 _ _ _ _ => true
  | .cadd16 _ _ _ _ => true
  | .cadd32 _ _ _ _ => true
  | .cadd64 _ _ _ _ => true
  | .cadd128 _ _ _ _ => true
  | .bsub8 _ _ _ _ => true
  | .bsub16 _ _ _ _ => true
  | .bsub32 _ _ _ _ => true
  | .bsub64 _ _ _ _ => true
  | .bsub128 _ _ _ _ => true
  | .wmul8 _ _ _ _ => false
  | .wmul16 _ _ _ _ => false
  | .wmul32 _ _ _ _ => false
  | .wmul64 _ _ _ _ => false
  | .wmul128 _ _ _ _ => false
  | .cmul8 _ _ _ _ _ => false
  | .cmul16 _ _ _ _ _ => false
  | .cmul32 _ _ _ _ _ => false
  | .cmul64 _ _ _ _ _ => false
  | .cmul128 _ _ _ _ _ => false
  | .vmov _ _ => false
  | .vxor _ _ _ => false
  | .vshufw _ _ _ => false
  | .vsllb _ _ _ => false
  | .vrorw _ _ _ => false
  | .vimmw _ _ => false
  | .vldrk _ _ => false
  | .aesenc _ _ _ => false
  | .aesenclast _ _ _ => false
  | .aeskeygenassist _ _ _ => false
  | .aese _ _ _ => false
  | .aesmc _ _ => false
  | .kexp _ => false
  | .encb _ _ => false
  | .encm _ _ _ => false
  | .encs _ _ => false

/-- The data bytes an instruction stores to, as a start address and a length (20_memory.md R56): the effective address of
`STX` and `VST`, the slice of `ENCS`; nothing for any other. -/
def storedRange (s : State) : Instr → Nat × Nat
  | .halt => (0, 0)
  | .clrc => (0, 0)
  | .setc => (0, 0)
  | .csrr _ _ => (0, 0)
  | .csrw _ _ => (0, 0)
  | .jmp _ => (0, 0)
  | .bz _ _ => (0, 0)
  | .bnz _ _ => (0, 0)
  | .bc _ => (0, 0)
  | .bnc _ => (0, 0)
  | .li _ _ => (0, 0)
  | .movx _ _ => (0, 0)
  | .addi _ _ _ => (0, 0)
  | .ldx8 _ _ _ => (0, 0)
  | .ldx16 _ _ _ => (0, 0)
  | .ldx32 _ _ _ => (0, 0)
  | .ldx64 _ _ _ => (0, 0)
  | .ldx128 _ _ _ => (0, 0)
  | .stx8 _ xa simm12 => ((effectiveAddress xa simm12 s).toNat, widthBytes .w8)
  | .stx16 _ xa simm12 => ((effectiveAddress xa simm12 s).toNat, widthBytes .w16)
  | .stx32 _ xa simm12 => ((effectiveAddress xa simm12 s).toNat, widthBytes .w32)
  | .stx64 _ xa simm12 => ((effectiveAddress xa simm12 s).toNat, widthBytes .w64)
  | .stx128 _ xa simm12 => ((effectiveAddress xa simm12 s).toNat, widthBytes .w128)
  | .vld _ _ _ => (0, 0)
  | .vst _ xa simm12 => ((effectiveAddress xa simm12 s).toNat, 16)
  | .cadd8 _ _ _ _ => (0, 0)
  | .cadd16 _ _ _ _ => (0, 0)
  | .cadd32 _ _ _ _ => (0, 0)
  | .cadd64 _ _ _ _ => (0, 0)
  | .cadd128 _ _ _ _ => (0, 0)
  | .bsub8 _ _ _ _ => (0, 0)
  | .bsub16 _ _ _ _ => (0, 0)
  | .bsub32 _ _ _ _ => (0, 0)
  | .bsub64 _ _ _ _ => (0, 0)
  | .bsub128 _ _ _ _ => (0, 0)
  | .wmul8 _ _ _ _ => (0, 0)
  | .wmul16 _ _ _ _ => (0, 0)
  | .wmul32 _ _ _ _ => (0, 0)
  | .wmul64 _ _ _ _ => (0, 0)
  | .wmul128 _ _ _ _ => (0, 0)
  | .cmul8 _ _ _ _ _ => (0, 0)
  | .cmul16 _ _ _ _ _ => (0, 0)
  | .cmul32 _ _ _ _ _ => (0, 0)
  | .cmul64 _ _ _ _ _ => (0, 0)
  | .cmul128 _ _ _ _ _ => (0, 0)
  | .vmov _ _ => (0, 0)
  | .vxor _ _ _ => (0, 0)
  | .vshufw _ _ _ => (0, 0)
  | .vsllb _ _ _ => (0, 0)
  | .vrorw _ _ _ => (0, 0)
  | .vimmw _ _ => (0, 0)
  | .vldrk _ _ => (0, 0)
  | .aesenc _ _ _ => (0, 0)
  | .aesenclast _ _ _ => (0, 0)
  | .aeskeygenassist _ _ _ => (0, 0)
  | .aese _ _ _ => (0, 0)
  | .aesmc _ _ => (0, 0)
  | .kexp _ => (0, 0)
  | .encb _ _ => (0, 0)
  | .encm _ _ _ => (0, 0)
  | .encs xa xn => ((s.getX xa).toNat, 16 * (s.getX xn).toNat)

/-! The invariant and the reachable states. -/

/-- What every state of an engine satisfies: the parameters are those of an engine (00_scope.md R13); both memories are in
canonical form and list only addresses that exist (10_state.md R45, R46); `CAUSE` tells FAULTED from the other run states, and
`EPC` and `FINFO` are 0 until a fault (R42 to R44); a ready bank is the expansion of a key (R31). -/
structure State.Inv (s : State) : Prop where
  cfg_wf : s.cfg.wf = true
  imem_wf : s.imem.wf = true
  imem_inside : s.imem.inside s.cfg.imemBytes = true
  dmem_wf : s.dmem.wf = true
  dmem_inside : s.dmem.inside s.cfg.dmemBytes = true
  faulted_iff : s.run = .faulted ↔ s.cause ≠ .noFault
  no_fault : s.cause = .noFault → s.epc = 0 ∧ s.finfo = 0
  keys : s.rdy = true → ∃ key, s.rk = keyExpand key

/-- One move of the engine or of the host (00_scope.md R19). -/
inductive Moves : State → State → Prop where
  | engine {s t : State} : step s = .next t → Moves s t
  | host {s t : State} (op : HostOp) : hostStep op s = .next t → Moves s t

/-- The states an engine reaches from power-on, with the parameters of an engine (R13) and any memory content of its sizes
(70_reset_and_hazards.md R262: unspecified after power-on). -/
inductive Reachable : State → Prop where
  | powerOn (c : Config) (imem dmem : Memory) : c.wf = true → imem.wf = true → imem.inside c.imemBytes = true →
      dmem.wf = true → dmem.inside c.dmemBytes = true → Reachable { State.resetOn c with imem := imem, dmem := dmem }
  | move {s t : State} : Reachable s → Moves s t → Reachable t

/-! Multi-limb integers (20_memory.md R64) and the chains of 40_widening_arithmetic.md R108 and R110. -/

/-- The value of limbs of width W, limb 0 first (R64). -/
def limbValue (w : Width) : List Nat → Nat
  | [] => 0
  | l :: ls => l + 2 ^ widthBits w * limbValue w ls

/-- `carry_add` limb by limb, each carry-out the next carry-in (R108): the sums and the last carry-out. -/
def addChain (w : Width) (ci : Bool) : List (Nat × Nat) → List Nat × Bool
  | [] => ([], ci)
  | (a, b) :: rest =>
    let r := carryAdd w a b ci
    let tail := addChain w r.2 rest
    (r.1 :: tail.1, tail.2)

/-- `borrow_sub` limb by limb (R108): the differences and the last borrow-out. -/
def subChain (w : Width) (bi : Bool) : List (Nat × Nat) → List Nat × Bool
  | [] => ([], bi)
  | (a, b) :: rest =>
    let r := borrowSub w a b bi
    let tail := subChain w r.2 rest
    (r.1 :: tail.1, tail.2)

/-- `carry_mul` by one word limb by limb, each high word the next carry (R110): the low words, then the last high word. -/
def mulChain (w : Width) (m carry : Nat) : List Nat → List Nat
  | [] => [carry]
  | a :: rest =>
    let r := splitWide w (a * m + carry)
    r.1 :: mulChain w m r.2 rest

end Sys2Proof.Machine
end

