-- ==== Sys2Proof/Certificates/Slice0/Obligations.lean ====
section
/-! DEFINITION. The statements for the provers. Each says what the numbered rules of the spec say the engine does. -/

open Sys2Proof Sys2Proof.Machine

/-! Encoding. -/

/-- Words of the worked encodings of 30_encoding.md R84, one or two a family, decode to the instructions they stand for; and the
operand code tables that the other statements name by the model's functions are those of the spec: register numbers (R71), width
codes and widths in bits (R73) and bytes (20_memory.md R56), carry-in selects (R75). -/
def Obligations.SpecWordsDecode : Prop :=
  decodeTableWord 32 0x01000000 = some .halt ∧
  decodeTableWord 32 0x05400001 = some (.csrw .ctrl 4) ∧
  decodeTableWord 32 0x0a20fffd = some (.bnz 2 0xfffd) ∧
  decodeTableWord 32 0x1090beef = some (.li 9 0xbeef) ∧
  decodeTableWord 32 0x14523ff8 = some (.ldx64 5 2 0xff8) ∧
  decodeTableWord 32 0x17210020 = some (.vst 2 1 0x020) ∧
  decodeTableWord 32 0x20331220 = some (.cadd64 3 1 2 .flag) ∧
  decodeTableWord 32 0x234abcde = some (.cmul128 10 11 12 13 14) ∧
  decodeTableWord 32 0x34110008 = some (.vrorw 1 1 8) ∧
  decodeTableWord 32 0x42200001 = some (.aeskeygenassist 2 0 1) ∧
  decodeTableWord 32 0x50112000 = some (.aese 1 1 2) ∧
  decodeTableWord 32 0x62808000 = some (.encm 8 0 8) ∧
  (∀ r : Fin 16, (regCode r).toNat = r.val) ∧
  [Width.w8, .w16, .w32, .w64, .w128].map (fun w => (w.code.toNat, widthBits w, widthBytes w)) =
    [(0, 8, 1), (1, 16, 2), (2, 32, 4), (3, 64, 8), (4, 128, 16)] ∧
  [CarrySel.zero, .one, .flag].map (fun c => c.code.toNat) = [0, 1, 2]

/-- Decoding gives back every legal instruction from its word, and from its bytes whatever follows them. -/
def Obligations.DecodeInvertsEncode : Prop :=
  ∀ i : Instr, i.wellFormed = true →
    decodeWord (encode i) = .ok i ∧ ∀ rest : List Byte, decode (encodeBytes i ++ rest) = .ok (i, rest)

/-- A word that decodes gives a legal instruction, and is that instruction's word: no two words have one meaning, and no bit of
a legal word is ignored (30_encoding.md R74). -/
def Obligations.EncodeInvertsDecode : Prop :=
  ∀ (w : InstrWord) (i : Instr), decodeWord w = .ok i → i.wellFormed = true ∧ encode i = w

/-- The decoder reads exactly the words of the opcode table (R78, R79), and no two rows admit one word. -/
def Obligations.DecoderFollowsOpcodeTable : Prop :=
  (∀ w : InstrWord, (∃ i, decodeWord w = .ok i) ↔ ∃ r ∈ opcodeTable, r.admits w = true) ∧
  (∀ w : InstrWord, ∀ r ∈ opcodeTable, ∀ r' ∈ opcodeTable, r.admits w = true → r'.admits w = true →
    r.mnemonic = r'.mnemonic)

/-! The step, faults and run state. -/

/-- In RUNNING, with an aligned pc inside instruction memory, a step of an engine whose bytes at the pc decode is exactly the
instruction's execution in that state (R35). -/
def Obligations.StepRunsTheDecodedInstruction : Prop :=
  ∀ (s : State) (i : Instr) (rest : List Byte), s.run = .running → s.pc.toNat % 4 = 0 →
    s.pc.toNat + 4 ≤ s.cfg.imemBytes → decode (fetchBytes s) = .ok (i, rest) → step s = exec i s

/-- A pc that is misaligned or outside instruction memory raises FetchFault with the pc as `FINFO` and `EPC` (R238). -/
def Obligations.BadPcRaisesFetchFault : Prop :=
  ∀ s : State, s.run = .running → (s.pc.toNat % 4 ≠ 0 ∨ s.pc.toNat + 4 > s.cfg.imemBytes) →
    ∃ t, step s = .next t ∧ causeCode t.cause = 7 ∧ FaultEntry .fetchFault (s.pc.setWidth 128) s t

/-- A fetched word that the decoder refuses raises IllegalInstruction with the word as `FINFO` (R232), whatever the rest of the
state. -/
def Obligations.IllegalWordRaisesIllegalInstruction : Prop :=
  ∀ (s : State) (e : DecodeError), s.run = .running → s.pc.toNat % 4 = 0 → s.pc.toNat + 4 ≤ s.cfg.imemBytes →
    decodeWord (fetchWord s) = .error e →
    ∃ t, step s = .next t ∧ causeCode t.cause = 1 ∧ FaultEntry .illegalInstruction ((fetchWord s).setWidth 128) s t

/-- The fetched word is the little-endian value of the four bytes at the pc, so its opcode is the byte at pc + 3 (R51); the step
decodes that word. -/
def Obligations.FetchIsLittleEndian : Prop :=
  ∀ s : State,
    (fetchWord s).toNat =
      (s.imem.read s.pc.toNat).toNat + 256 * (s.imem.read (s.pc.toNat + 1)).toNat +
      65536 * (s.imem.read (s.pc.toNat + 2)).toNat + 16777216 * (s.imem.read (s.pc.toNat + 3)).toNat ∧
    (fetchWord s).extractLsb' 24 8 = s.imem.read (s.pc.toNat + 3) ∧
    (∀ i : Instr, (∃ rest, decode (fetchBytes s) = .ok (i, rest)) ↔ decodeWord (fetchWord s) = .ok i)

/-- The engine takes a step exactly in RUNNING (R33), and every instruction in every state has a next state: for a legal
instruction by R268; for a term of `Instr` that no legal word encodes by the model's choice, assumption log 7. -/
def Obligations.EngineStepsExactlyWhenRunning : Prop :=
  (∀ s : State, (∃ t, step s = .next t) ↔ s.run = .running) ∧ ∀ (i : Instr) (s : State), ∃ t, exec i s = .next t

/-- Faults are precise (R231, R242): a step that ends in FAULTED is a fault entry, with a cause from 1 to 7, `EPC` the pc of the
instruction, the pc unmoved, and no register, flag, key or memory byte written. -/
def Obligations.FaultsArePrecise : Prop :=
  ∀ s t : State, step s = .next t → t.run = .faulted →
    ∃ (f : Cause) (info : Word), 1 ≤ (causeCode f).toNat ∧ (causeCode f).toNat ≤ 7 ∧ FaultEntry f info s t

/-- What `FINFO` records, by cause (R44): the fetched word for IllegalInstruction, UnsupportedHardware, CipherNotReady and
KeyScheduleLocked; the pc for FetchFault; an address no aligned Block or word of data memory starts at for the other two: not
a multiple of 2 to 16 for MisalignedAccess, at an end past `DMEM_BYTES` for AccessFault. -/
def Obligations.FaultInformationByCause : Prop :=
  ∀ s t : State, s.cfg.wf = true → step s = .next t → t.run = .faulted →
    match t.cause with
    | .noFault => False
    | .illegalInstruction | .unsupportedHardware | .cipherNotReady | .keyScheduleLocked =>
      t.finfo = (fetchWord s).setWidth 128
    | .fetchFault => t.finfo = s.pc.setWidth 128
    | .misalignedAccess => t.finfo.toNat % 16 ≠ 0
    | .accessFault => s.cfg.dmemBytes < t.finfo.toNat + 16

/-- Only reset leaves FAULTED (R33, R243): no step exists there, and every host operation but reset, `HostStart` included, leaves
`STATE`, `CAUSE`, `EPC` and `FINFO` as they are. -/
def Obligations.OnlyResetLeavesFaulted : Prop :=
  ∀ s t : State, s.run = .faulted → Moves s t →
    (t = hostReset s ∧ t.run = .halted) ∨
    (t.run = .faulted ∧ t.cause = s.cause ∧ t.epc = s.epc ∧ t.finfo = s.finfo)

/-! The invariant. -/

/-- The reset state of every engine meets the invariant, with any memory content of its sizes; the model's own reset state is
one of them (the engine of the test vectors and the empty memories are the model's choice, assumption logs 1 and 2). -/
def Obligations.ResetStateMeetsInvariant : Prop :=
  (∀ (c : Config) (imem dmem : Memory), c.wf = true → imem.wf = true → imem.inside c.imemBytes = true → dmem.wf = true →
    dmem.inside c.dmemBytes = true → State.Inv { State.resetOn c with imem := imem, dmem := dmem }) ∧
  State.Inv State.reset

/-- Every step keeps the invariant. -/
def Obligations.StepKeepsInvariant : Prop :=
  ∀ s t : State, s.Inv → step s = .next t → t.Inv

/-- Every state an engine and its host reach from power-on meets the invariant; so a ready bank is the expansion of a key
(R31). -/
def Obligations.ReachableStatesMeetInvariant : Prop :=
  ∀ s : State, Reachable s → s.Inv

/-- Every pc the engine itself writes is a multiple of 4 when the old one was (R37). -/
def Obligations.PcStaysAligned : Prop :=
  ∀ s t : State, step s = .next t → s.pc.toNat % 4 = 0 → t.pc.toNat % 4 = 0

/-! Whole-machine rules. -/

/-- `RDY` is never cleared by a step, and while it is set the bank never changes (R29, R30). Only a completing `KEXP` sets it. -/
def Obligations.ReadyBankNeverChanges : Prop :=
  (∀ s t : State, step s = .next t → s.rdy = true → t.rdy = true ∧ t.rk = s.rk) ∧
  (∀ (i : Instr) (s t : State), exec i s = .next t → (t.rdy ≠ s.rdy ∨ t.rk ≠ s.rk) →
    ∃ va, i = .kexp va ∧ s.rdy = false ∧ t.rdy = true)

/-- No instruction writes an X or V register that its word does not name (R22, R25); `ENCM` names a run. -/
def Obligations.RegistersChangeOnlyWhereNamed : Prop :=
  ∀ (i : Instr) (s t : State), exec i s = .next t →
    (∀ r, r ∉ xDestsOf i → t.getX r = s.getX r) ∧ (∀ r, r ∉ vDestsOf i → t.getV r = s.getV r)

/-- `C` changes only by `CADD`, `BSUB`, `CLRC` and `SETC` (R23), `BSEL` only by `CSRW`, and `CAUSE`, `EPC`, `FINFO` only by a
fault. -/
def Obligations.StatusChangesOnlyWhereSaid : Prop :=
  ∀ (i : Instr) (s t : State), exec i s = .next t →
    (writesC i = false → t.c = s.c) ∧
    ((∀ csr xa, i ≠ .csrw csr xa) → t.bsel = s.bsel) ∧
    (t.run ≠ .faulted → t.cause = s.cause ∧ t.epc = s.epc ∧ t.finfo = s.finfo) ∧
    (t.run = s.run ∨ t.run = .faulted ∨ i = .halt)

/-- Only `STX`, `VST` and `ENCS` write data memory, each only the bytes it stores to (20_memory.md R56); no instruction writes
instruction memory (R45, R63); the parameters are constant (R262). -/
def Obligations.MemoryChangesOnlyWhereStored : Prop :=
  ∀ (i : Instr) (s t : State), exec i s = .next t →
    (∀ a, ¬ ((storedRange s i).1 ≤ a ∧ a < (storedRange s i).1 + (storedRange s i).2) → t.dmem.read a = s.dmem.read a) ∧
    (∀ a, t.imem.read a = s.imem.read a) ∧ t.cfg = s.cfg

/-- `BSEL` has no effect on any result (R32): but for the two instructions that read and write `CTRL` itself, every instruction
does the same under either value. -/
def Obligations.BackendSelectChangesNoResult : Prop :=
  ∀ (i : Instr) (s t : State) (b : Bool), (∀ xd, i ≠ .csrr xd .ctrl) → (∀ csr xa, i ≠ .csrw csr xa) →
    exec i s = .next t → exec i (s.setBsel b) = .next (t.setBsel b)

/-- The content of the bank cannot be observed while `RDY` is 0 (R30, R261): two states that differ in it alone go on alike, and a
`KEXP` that completes makes them equal. -/
def Obligations.UnreadyBankIsUnobservable : Prop :=
  ∀ (i : Instr) (s t : State) (ks : Vector Block 11), s.rdy = false → exec i s = .next t →
    ∃ u, exec i { s with rk := ks } = .next u ∧ { u with rk := t.rk } = t ∧ (t.rdy = true → u = t)

/-- A program that runs sees `CAUSE`, `EPC` and `FINFO` as 0 and `STATE` as RUNNING (R41, R42, R219). -/
def Obligations.ProgramReadsNoFault : Prop :=
  ∀ (s : State) (xd : XReg), s.Inv → s.run = .running →
    (∀ csr, csr = .cause ∨ csr = .epc ∨ csr = .finfo → ∃ t, exec (.csrr xd csr) s = .next t ∧ t.getX xd = 0) ∧
    ∃ t, exec (.csrr xd .status) s = .next t ∧ (t.getX xd).toNat / 4 = 1

/-! System instructions. -/

/-- `HALT` (R216): the word, the effect, that nothing else changes, that no step follows it, and that a later `HostStart` resumes
after it, or at the pc the host wrote. -/
def Obligations.HaltStopsTheEngine : Prop :=
  encode .halt = 0x01000000 ∧
  ∀ s : State, ∃ t, exec .halt s = .next t ∧ t.run = .halted ∧ t.pc = s.pc + 4 ∧
    OnlyChanges (fun p => p = .run ∨ p = .pc) s t ∧
    (∀ u, step t ≠ .next u) ∧
    (∃ u, hostStep .start t = .next u ∧ u.run = .running ∧ OnlyChanges (fun p => p = .run) t u) ∧
    ∀ v : CodeAddr, ∃ u u', hostStep (.writePc v) t = .next u ∧ hostStep .start u = .next u' ∧ u'.run = .running ∧ u'.pc = v

/-- `CLRC` and `SETC` (R217, R218). -/
def Obligations.CarryClearsAndSets : Prop :=
  encode .clrc = 0x02000000 ∧ encode .setc = 0x03000000 ∧
  ∀ s : State, Completes .clrc s (· = .c) (fun t => t.c = false) ∧ Completes .setc s (· = .c) (fun t => t.c = true)

/-- `CSRR` (R219) reads the six CSRs with the bits R39 to R44 name and every other bit 0; the codes of `STATE` are those of R33
and those of `CAUSE` those of R230. A CSR number above 5 is no instruction. -/
def Obligations.CsrReadsGiveTheNamedBits : Prop :=
  (∀ (xd : XReg) (csr : Csr), encode (.csrr xd csr) = 0x04#8 ++ regCode xd ++ 0#8 ++ csr.number) ∧
  [Csr.cap, .ctrl, .status, .cause, .epc, .finfo].map (fun c => c.number.toNat) = [0, 1, 2, 3, 4, 5] ∧
  (∀ (a : BitVec 4) (n : BitVec 12), 5 < n.toNat → ∃ e, decodeWord (0x04#8 ++ a ++ 0#8 ++ n) = .error e) ∧
  [RunState.halted, .running, .faulted].map (fun r => (runCode r).toNat) = [0, 1, 2] ∧
  [Cause.noFault, .illegalInstruction, .unsupportedHardware, .cipherNotReady, .keyScheduleLocked, .misalignedAccess,
    .accessFault, .fetchFault].map (fun c => (causeCode c).toNat) = [0, 1, 2, 3, 4, 5, 6, 7] ∧
  ∀ (s : State) (xd : XReg) (csr : Csr), Completes (.csrr xd csr) s (· = .x xd) fun t =>
    (t.getX xd).toNat =
      match csr with
      | .cap => s.cfg.hasX86Aes.toNat + 2 * s.cfg.hasArmAes.toNat
      | .ctrl => s.bsel.toNat
      | .status => s.c.toNat + 2 * s.rdy.toNat + 4 * (runCode s.run).toNat
      | .cause => (causeCode s.cause).toNat
      | .epc => s.epc.toNat
      | .finfo => s.finfo.toNat

/-- `CSRW` (R220, R40): on `CTRL`, bit 0 of the source goes to `BSEL` and nothing else happens; with any other CSR number the word
is no instruction. With fewer than two backends the bit selects nothing. -/
def Obligations.CsrWriteReachesBselAlone : Prop :=
  (∀ xa : XReg, encode (.csrw .ctrl xa) = 0x05#8 ++ regCode xa ++ 0#8 ++ 1#12) ∧
  (∀ (a : BitVec 4) (n : BitVec 12), n ≠ 1 → ∃ e, decodeWord (0x05#8 ++ a ++ 0#8 ++ n) = .error e) ∧
  ∀ (s : State) (xa : XReg), Completes (.csrw .ctrl xa) s (· = .bsel) fun t =>
    t.bsel = (s.getX xa).getLsbD 0 ∧ readCsr .ctrl t = (s.getX xa) &&& 1 ∧
    (¬ (s.cfg.hasX86Aes = true ∧ s.cfg.hasArmAes = true) → pathOf t = pathOf s)

/-! Control transfers and moves. -/

/-- The five control transfers (R210 to R214): taken to `(pc + 4 * off16) mod 2^32`, otherwise to `(pc + 4) mod 2^32`; nothing else
is written. -/
def Obligations.BranchesTransferControl : Prop :=
  (∀ off : BitVec 16, encode (.jmp off) = 0x08#8 ++ 0#8 ++ off ∧ encode (.bc off) = 0x0b#8 ++ 0#8 ++ off ∧
    encode (.bnc off) = 0x0c#8 ++ 0#8 ++ off) ∧
  (∀ (xa : XReg) (off : BitVec 16), encode (.bz xa off) = 0x09#8 ++ regCode xa ++ 0#4 ++ off ∧
    encode (.bnz xa off) = 0x0a#8 ++ regCode xa ++ 0#4 ++ off) ∧
  ∀ (s : State) (xa : XReg) (off : BitVec 16),
    let goes (i : Instr) (taken : Prop) : Prop :=
      ∃ t, exec i s = .next t ∧ OnlyChanges (· = .pc) s t ∧
        (taken → (t.pc.toNat : Int) = ((s.pc.toNat : Int) + 4 * off.toInt) % 2 ^ 32) ∧
        (¬ taken → t.pc.toNat = (s.pc.toNat + 4) % 2 ^ 32)
    goes (.jmp off) True ∧ goes (.bz xa off) ((s.getX xa).toNat = 0) ∧ goes (.bnz xa off) ((s.getX xa).toNat ≠ 0) ∧
      goes (.bc off) (s.c = true) ∧ goes (.bnc off) (s.c = false)

/-- `LI`, `MOVX`, `ADDI` (R201 to R203): the values written, that nothing but the destination and the pc changes, and that every
word with the opcode of `ADDI` is an `ADDI`. -/
def Obligations.MovesWriteTheirDestination : Prop :=
  (∀ (xd : XReg) (imm : BitVec 16), encode (.li xd imm) = 0x10#8 ++ regCode xd ++ 0#4 ++ imm) ∧
  (∀ xd xa : XReg, encode (.movx xd xa) = 0x11#8 ++ regCode xd ++ regCode xa ++ 0#16) ∧
  (∀ (xd xa : XReg) (imm : BitVec 16), encode (.addi xd xa imm) = 0x12#8 ++ regCode xd ++ regCode xa ++ imm) ∧
  (∀ w : InstrWord, w.extractLsb' 24 8 = 0x12 → ∃ xd xa imm, decodeWord w = .ok (.addi xd xa imm)) ∧
  ∀ (s : State) (xd xa : XReg) (imm : BitVec 16),
    Completes (.li xd imm) s (· = .x xd) (fun t => (t.getX xd).toNat = imm.toNat) ∧
    Completes (.movx xd xa) s (· = .x xd) (fun t => t.getX xd = s.getX xa) ∧
    Completes (.addi xd xa imm) s (· = .x xd) (fun t =>
      ((t.getX xd).toNat : Int) = (((s.getX xa).toNat : Int) + imm.toInt) % 2 ^ 128)

/-! Memory instructions. -/

/-- `LDX.W` and `VLD` (R204, R205, R207): at an effective address that is aligned and in range, the destination gets the bytes from
that address on, byte k from EA + k, and zero above them; nothing else but the pc changes. -/
def Obligations.LoadsReadLittleEndianBytes : Prop :=
  (∀ (w : Width) (xd xa : XReg) (d : BitVec 12),
    encode (.ldx w xd xa d) = 0x14#8 ++ regCode xd ++ regCode xa ++ w.code ++ d) ∧
  (∀ (vd : VReg) (xa : XReg) (d : BitVec 12), encode (.vld vd xa d) = 0x16#8 ++ regCode vd ++ regCode xa ++ 0#4 ++ d) ∧
  ∀ (s : State) (w : Width) (xd : XReg) (vd : VReg) (xa : XReg) (d : BitVec 12),
    let ea := (effectiveAddress xa d s).toNat
    (ea : Int) = (((s.getX xa).toNat : Int) + d.toInt) % 2 ^ 128 ∧
    (ea % widthBytes w = 0 → ea + widthBytes w ≤ s.cfg.dmemBytes →
      Completes (.ldx w xd xa d) s (· = .x xd) fun t =>
        ∀ k < 16, byteOf (t.getX xd) k = if k < widthBytes w then s.dmem.read (ea + k) else 0) ∧
    (ea % 16 = 0 → ea + 16 ≤ s.cfg.dmemBytes →
      Completes (.vld vd xa d) s (· = .v vd) fun t => ∀ k < 16, byteOf (t.getV vd) k = s.dmem.read (ea + k))

/-- `STX.W` and `VST` (R204, R206, R208): at an effective address that is aligned and in range, byte k of the source goes to EA + k
for the width's bytes; no other byte and no register changes. -/
def Obligations.StoresWriteLittleEndianBytes : Prop :=
  (∀ (w : Width) (xs xa : XReg) (d : BitVec 12),
    encode (.stx w xs xa d) = 0x15#8 ++ regCode xs ++ regCode xa ++ w.code ++ d) ∧
  (∀ (vs : VReg) (xa : XReg) (d : BitVec 12), encode (.vst vs xa d) = 0x17#8 ++ regCode vs ++ regCode xa ++ 0#4 ++ d) ∧
  ∀ (s : State) (w : Width) (xs : XReg) (vs : VReg) (xa : XReg) (d : BitVec 12),
    let ea := (effectiveAddress xa d s).toNat
    (ea : Int) = (((s.getX xa).toNat : Int) + d.toInt) % 2 ^ 128 ∧
    (ea % widthBytes w = 0 → ea + widthBytes w ≤ s.cfg.dmemBytes →
      Completes (.stx w xs xa d) s (fun p => ∃ a, p = .dmem a ∧ ea ≤ a ∧ a < ea + widthBytes w) fun t =>
        ∀ k < widthBytes w, t.dmem.read (ea + k) = byteOf (s.getX xs) k) ∧
    (ea % 16 = 0 → ea + 16 ≤ s.cfg.dmemBytes →
      Completes (.vst vs xa d) s (fun p => ∃ a, p = .dmem a ∧ ea ≤ a ∧ a < ea + 16) fun t =>
        ∀ k < 16, t.dmem.read (ea + k) = byteOf (s.getV vs) k)

/-- The memory faults of the four memory instructions (R236, R237, R52, R53, R55, R241): a misaligned effective address raises
MisalignedAccess whether or not it is in range; an aligned one whose bytes do not all exist raises AccessFault; each records
the effective address, and nothing is moved. -/
def Obligations.BadAddressesRaiseMemoryFaults : Prop :=
  ∀ (s : State) (w : Width) (xd : XReg) (vd : VReg) (xa : XReg) (d : BitVec 12),
    let ea := effectiveAddress xa d s
    (ea.toNat % widthBytes w ≠ 0 →
      Raises (.ldx w xd xa d) s .misalignedAccess ea ∧ Raises (.stx w xd xa d) s .misalignedAccess ea) ∧
    (ea.toNat % widthBytes w = 0 → ea.toNat + widthBytes w > s.cfg.dmemBytes →
      Raises (.ldx w xd xa d) s .accessFault ea ∧ Raises (.stx w xd xa d) s .accessFault ea) ∧
    (ea.toNat % 16 ≠ 0 → Raises (.vld vd xa d) s .misalignedAccess ea ∧ Raises (.vst vd xa d) s .misalignedAccess ea) ∧
    (ea.toNat % 16 = 0 → ea.toNat + 16 > s.cfg.dmemBytes →
      Raises (.vld vd xa d) s .accessFault ea ∧ Raises (.vst vd xa d) s .accessFault ea)

/-- Mixed widths (R54): a load after a store sees the stored bytes where it overlaps them and the older bytes elsewhere, whatever
the two widths and addresses. -/
def Obligations.LoadAfterStoreSeesTheBytes : Prop :=
  ∀ (s t u : State) (w w' : Width) (xs xa xd xb : XReg) (d d' : BitVec 12),
    exec (.stx w xs xa d) s = .next t → t.run ≠ .faulted → exec (.ldx w' xd xb d') t = .next u → u.run ≠ .faulted →
    ∀ k < widthBytes w',
      let at' := (effectiveAddress xb d' s).toNat + k
      let ea := (effectiveAddress xa d s).toNat
      byteOf (u.getX xd) k =
        if ea ≤ at' ∧ at' < ea + widthBytes w then byteOf (s.getX xs) (at' - ea) else s.dmem.read at'

/-! The widening arithmetic unit. -/

/-- `CADD.W` (R103, R107): the sum and the carry-out hold the exact sum of the W-bit words and the selected carry-in; the destination
is zero-extended; nothing but it, `C` and the pc changes; it never faults. A word with a width code above 4, a carry-in select
above 2 or a nonzero last nibble is no instruction. -/
def Obligations.CaddIsExact : Prop :=
  (∀ (w : Width) (xd xa xb : XReg) (cin : CarrySel),
    encode (.cadd w xd xa xb cin) = 0x20#8 ++ w.code ++ regCode xd ++ regCode xa ++ regCode xb ++ cin.code ++ 0#4) ∧
  (∀ w d a b sel z : BitVec 4, 4 < w.toNat ∨ 2 < sel.toNat ∨ z ≠ 0 →
    ∃ e, decodeWord (0x20#8 ++ w ++ d ++ a ++ b ++ sel ++ z) = .error e) ∧
  ∀ (s : State) (w : Width) (xd xa xb : XReg) (cin : CarrySel),
    let a := (s.getX xa).toNat % 2 ^ widthBits w
    let b := (s.getX xb).toNat % 2 ^ widthBits w
    let ci := match cin with | .zero => 0 | .one => 1 | .flag => s.c.toNat
    Completes (.cadd w xd xa xb cin) s (fun p => p = .x xd ∨ p = .c) fun t =>
      (t.getX xd).toNat < 2 ^ widthBits w ∧ t.c.toNat * 2 ^ widthBits w + (t.getX xd).toNat = a + b + ci

/-- `BSUB.W` (R104, R107): the difference and the borrow-out hold the exact difference; nothing but the destination, `C` and the pc
changes; it never faults. A word with a width code above 4, a borrow-in select above 2 or a nonzero last nibble is no
instruction. -/
def Obligations.BsubIsExact : Prop :=
  (∀ (w : Width) (xd xa xb : XReg) (bin : CarrySel),
    encode (.bsub w xd xa xb bin) = 0x21#8 ++ w.code ++ regCode xd ++ regCode xa ++ regCode xb ++ bin.code ++ 0#4) ∧
  (∀ w d a b sel z : BitVec 4, 4 < w.toNat ∨ 2 < sel.toNat ∨ z ≠ 0 →
    ∃ e, decodeWord (0x21#8 ++ w ++ d ++ a ++ b ++ sel ++ z) = .error e) ∧
  ∀ (s : State) (w : Width) (xd xa xb : XReg) (bin : CarrySel),
    let a := (s.getX xa).toNat % 2 ^ widthBits w
    let b := (s.getX xb).toNat % 2 ^ widthBits w
    let bi := match bin with | .zero => 0 | .one => 1 | .flag => s.c.toNat
    Completes (.bsub w xd xa xb bin) s (fun p => p = .x xd ∨ p = .c) fun t =>
      (t.getX xd).toNat < 2 ^ widthBits w ∧
      ((t.getX xd).toNat : Int) - (t.c.toNat : Int) * 2 ^ widthBits w = (a : Int) - b - bi

/-- `WMUL.W` (R105, R109): for destinations that differ the two words hold the exact product, each below 2^W, whatever registers
coincide with the sources; `C` is unchanged. A word with equal destinations, a width code above 4 or a nonzero last nibble is no
instruction. -/
def Obligations.WmulIsExact : Prop :=
  (∀ (w : Width) (xl xh xa xb : XReg),
    encode (.wmul w xl xh xa xb) = 0x22#8 ++ w.code ++ regCode xl ++ regCode xh ++ regCode xa ++ regCode xb ++ 0#4) ∧
  (∀ w l h a b z : BitVec 4, 4 < w.toNat ∨ l = h ∨ z ≠ 0 →
    ∃ e, decodeWord (0x22#8 ++ w ++ l ++ h ++ a ++ b ++ z) = .error e) ∧
  ∀ (s : State) (w : Width) (xl xh xa xb : XReg), xl ≠ xh →
    Completes (.wmul w xl xh xa xb) s (fun p => p = .x xl ∨ p = .x xh) fun t =>
      (t.getX xl).toNat < 2 ^ widthBits w ∧ (t.getX xh).toNat < 2 ^ widthBits w ∧
      (t.getX xh).toNat * 2 ^ widthBits w + (t.getX xl).toNat =
        (s.getX xa).toNat % 2 ^ widthBits w * ((s.getX xb).toNat % 2 ^ widthBits w)

/-- `CMUL.W` (R106, R110): as `WMUL`, with the W-bit addend. -/
def Obligations.CmulIsExact : Prop :=
  (∀ (w : Width) (xl xh xa xb xc : XReg), encode (.cmul w xl xh xa xb xc) =
    0x23#8 ++ w.code ++ regCode xl ++ regCode xh ++ regCode xa ++ regCode xb ++ regCode xc) ∧
  (∀ w l h a b c : BitVec 4, 4 < w.toNat ∨ l = h →
    ∃ e, decodeWord (0x23#8 ++ w ++ l ++ h ++ a ++ b ++ c) = .error e) ∧
  ∀ (s : State) (w : Width) (xl xh xa xb xc : XReg), xl ≠ xh →
    Completes (.cmul w xl xh xa xb xc) s (fun p => p = .x xl ∨ p = .x xh) fun t =>
      (t.getX xl).toNat < 2 ^ widthBits w ∧ (t.getX xh).toNat < 2 ^ widthBits w ∧
      (t.getX xh).toNat * 2 ^ widthBits w + (t.getX xl).toNat =
        (s.getX xa).toNat % 2 ^ widthBits w * ((s.getX xb).toNat % 2 ^ widthBits w) + (s.getX xc).toNat % 2 ^ widthBits w

/-- The carry chain (R108): limb by limb, first carry-in false, the sums are the limbs of `(A + B) mod 2^(kW)` and the last
carry-out is 1 exactly when `A + B > 2^(kW) - 1`; the differences are the limbs of `(A - B) mod 2^(kW)` and the last borrow-out
is 1 exactly when `A < B`. The limbs of a chain are what `CADD` and `BSUB` write. -/
def Obligations.CarryChainsAreExact : Prop :=
  (∀ (w : Width) (ls : List (Nat × Nat)), (∀ p ∈ ls, p.1 < 2 ^ widthBits w ∧ p.2 < 2 ^ widthBits w) →
    let A := limbValue w (ls.map Prod.fst)
    let B := limbValue w (ls.map Prod.snd)
    let M := 2 ^ (ls.length * widthBits w)
    (addChain w false ls).1.length = ls.length ∧ (∀ l ∈ (addChain w false ls).1, l < 2 ^ widthBits w) ∧
    limbValue w (addChain w false ls).1 = (A + B) % M ∧ ((addChain w false ls).2 = true ↔ M - 1 < A + B) ∧
    (subChain w false ls).1.length = ls.length ∧ (∀ l ∈ (subChain w false ls).1, l < 2 ^ widthBits w) ∧
    (limbValue w (subChain w false ls).1 : Int) = ((A : Int) - B) % M ∧ ((subChain w false ls).2 = true ↔ A < B)) ∧
  ∀ (s : State) (w : Width) (xd xa xb : XReg) (sel : CarrySel),
    let a := (s.getX xa).toNat % 2 ^ widthBits w
    let b := (s.getX xb).toNat % 2 ^ widthBits w
    (∃ t, exec (.cadd w xd xa xb sel) s = .next t ∧ ((t.getX xd).toNat, t.c) = carryAdd w a b (selC sel s)) ∧
    (∃ t, exec (.bsub w xd xa xb sel) s = .next t ∧ ((t.getX xd).toNat, t.c) = borrowSub w a b (selC sel s))

/-- The carry-mul chain (R110): the low words followed by the last high word are the k + 1 limbs of `A * m`. The words of a chain
are what `CMUL` writes. -/
def Obligations.CarryMulChainIsSchoolbook : Prop :=
  (∀ (w : Width) (m : Nat) (ls : List Nat), m < 2 ^ widthBits w → (∀ l ∈ ls, l < 2 ^ widthBits w) →
    (mulChain w m 0 ls).length = ls.length + 1 ∧ (∀ l ∈ mulChain w m 0 ls, l < 2 ^ widthBits w) ∧
    limbValue w (mulChain w m 0 ls) = limbValue w ls * m) ∧
  ∀ (s : State) (w : Width) (xl xh xa xb xc : XReg), xl ≠ xh →
    ∃ t, exec (.cmul w xl xh xa xb xc) s = .next t ∧
      ((t.getX xl).toNat, (t.getX xh).toNat) =
        splitWide w ((s.getX xa).toNat % 2 ^ widthBits w * ((s.getX xb).toNat % 2 ^ widthBits w) +
          (s.getX xc).toNat % 2 ^ widthBits w)

/-- No legal instruction of the WAU and no Block helper but `VLDRK` can fault, on any engine and in any state (R230, R100, R128). -/
def Obligations.ArithmeticAndHelpersNeverFault : Prop :=
  ∀ (i : Instr) (s : State), i.wellFormed = true → (0x20 ≤ (encodeFields i).op.toNat ∧ (encodeFields i).op.toNat ≤ 0x35) →
    ∃ t, exec i s = .next t ∧ t.run = s.run ∧ t.cause = s.cause ∧ t.epc = s.epc ∧ t.finfo = s.finfo ∧ t.pc = s.pc + 4

/-! Block helpers. -/

/-- `VMOV`, `VXOR`, `VSHUFW`, `VSLLB`, `VRORW`, `VIMMW` (R130 to R135), byte by byte or word by word; nothing but the destination and
the pc changes. -/
def Obligations.BlockHelpersCompute : Prop :=
  (∀ vd va vb : VReg, encode (.vmov vd va) = 0x30#8 ++ regCode vd ++ regCode va ++ 0#16 ∧
    encode (.vxor vd va vb) = 0x31#8 ++ regCode vd ++ regCode va ++ regCode vb ++ 0#12) ∧
  (∀ (vd va : VReg) (imm : BitVec 8), encode (.vshufw vd va imm) = 0x32#8 ++ regCode vd ++ regCode va ++ 0#8 ++ imm ∧
    encode (.vsllb vd va imm) = 0x33#8 ++ regCode vd ++ regCode va ++ 0#8 ++ imm) ∧
  (∀ (vd va : VReg) (n : Fin 32), encode (.vrorw vd va n) = 0x34#8 ++ regCode vd ++ regCode va ++ 0#8 ++ BitVec.ofNat 8 n.val) ∧
  (∀ (vd va : VReg) (n : BitVec 8), 31 < n.toNat →
    ∃ e, decodeWord (0x34#8 ++ regCode vd ++ regCode va ++ 0#8 ++ n) = .error e) ∧
  (∀ (vd : VReg) (imm : BitVec 16), encode (.vimmw vd imm) = 0x35#8 ++ regCode vd ++ 0#4 ++ imm) ∧
  ∀ (s : State) (vd va vb : VReg) (imm8 : BitVec 8) (n : Fin 32) (imm16 : BitVec 16),
    Completes (.vmov vd va) s (· = .v vd) (fun t => t.getV vd = s.getV va) ∧
    Completes (.vxor vd va vb) s (· = .v vd) (fun t =>
      ∀ k < 128, (t.getV vd).getLsbD k = ((s.getV va).getLsbD k != (s.getV vb).getLsbD k)) ∧
    Completes (.vshufw vd va imm8) s (· = .v vd) (fun t =>
      ∀ j < 4, wordOf (t.getV vd) j = wordOf (s.getV va) (imm8.toNat / 4 ^ j % 4)) ∧
    Completes (.vsllb vd va imm8) s (· = .v vd) (fun t =>
      ∀ k < 16, byteOf (t.getV vd) k = if imm8.toNat ≤ k then byteOf (s.getV va) (k - imm8.toNat) else 0) ∧
    Completes (.vrorw vd va n) s (· = .v vd) (fun t =>
      ∀ j < 4, ∀ k < 32, (wordOf (t.getV vd) j).getLsbD k = (wordOf (s.getV va) j).getLsbD ((k + n.val) % 32)) ∧
    Completes (.vimmw vd imm16) s (· = .v vd) (fun t => ∀ j < 4, (wordOf (t.getV vd) j).toNat = imm16.toNat)

/-- `VLDRK` (R136, R234): with `RDY` set it reads the round key and changes nothing else, the bank included; with `RDY` clear it
raises CipherNotReady, on any engine; an index above 10 is no instruction. -/
def Obligations.VldrkReadsTheReadyBank : Prop :=
  (∀ (vd : VReg) (idx : Fin 11), encode (.vldrk vd idx) = 0x36#8 ++ regCode vd ++ BitVec.ofNat 4 idx.val ++ 0#16) ∧
  (∀ (vd : VReg) (n : BitVec 4), 10 < n.toNat → ∃ e, decodeWord (0x36#8 ++ regCode vd ++ n ++ 0#16) = .error e) ∧
  ∀ (s : State) (vd : VReg) (idx : Fin 11),
    (s.rdy = true → Completes (.vldrk vd idx) s (· = .v vd) (fun t => t.getV vd = s.rk.get idx)) ∧
    (s.rdy = false → Raises (.vldrk vd idx) s .cipherNotReady (wordInfo (.vldrk vd idx)))

/-! AES functions. -/

/-- `SBOX` (R121): the table agrees with the closed formula, for the inverse in GF(2^8) with 0 for 0, and is a permutation. -/
def Obligations.SboxIsAffineOfInverse : Prop :=
  (∃ inv : Byte → Byte, inv 0 = 0 ∧ (∀ a, a ≠ 0 → gmul a (inv a) = 1) ∧
    ∀ a, sbox a = (inv a ^^^ (inv a).rotateLeft 1 ^^^ (inv a).rotateLeft 2 ^^^ (inv a).rotateLeft 3 ^^^
      (inv a).rotateLeft 4 ^^^ 0x63)) ∧
  ∀ a b : Byte, sbox a = sbox b → a = b

/-- `SubBytes`, `ShiftRows`, `MixColumns`, `SubWord`, `RotWord` (R122 to R125), byte by byte with doubling and tripling in GF(2^8)
written out as R124 writes them; `SubWord` and `RotWord` commute, and so do `SubBytes` and `ShiftRows`. -/
def Obligations.AesFunctionsByteByByte : Prop :=
  (∀ (b : Block), ∀ k < 16, byteOf (subBytes b) k = sbox (byteOf b k)) ∧
  (∀ (b : Block), ∀ r < 4, ∀ c < 4, byteOf (shiftRows b) (r + 4 * c) = byteOf b (r + 4 * ((c + r) % 4))) ∧
  (∀ (b : Block), ∀ c < 4,
    let a0 := byteOf b (4 * c)
    let a1 := byteOf b (4 * c + 1)
    let a2 := byteOf b (4 * c + 2)
    let a3 := byteOf b (4 * c + 3)
    byteOf (mixColumns b) (4 * c) = xtime a0 ^^^ (xtime a1 ^^^ a1) ^^^ a2 ^^^ a3 ∧
    byteOf (mixColumns b) (4 * c + 1) = a0 ^^^ xtime a1 ^^^ (xtime a2 ^^^ a2) ^^^ a3 ∧
    byteOf (mixColumns b) (4 * c + 2) = a0 ^^^ a1 ^^^ xtime a2 ^^^ (xtime a3 ^^^ a3) ∧
    byteOf (mixColumns b) (4 * c + 3) = (xtime a0 ^^^ a0) ^^^ a1 ^^^ a2 ^^^ xtime a3) ∧
  (∀ (w : Column), ∀ k < 4, columnByte (subWord w) k = sbox (columnByte w k) ∧
    columnByte (rotWord w) k = columnByte w ((k + 1) % 4)) ∧
  (∀ w : Column, subWord (rotWord w) = rotWord (subWord w)) ∧
  (∀ b : Block, subBytes (shiftRows b) = shiftRows (subBytes b))

/-- `KeyExpand` (R171, R126): round key 0 is the key, each later one follows from the one before word by word, and the ten round
constants are those of R126. -/
def Obligations.KeyExpansionFollowsRecurrence : Prop :=
  [rcon 1, rcon 2, rcon 3, rcon 4, rcon 5, rcon 6, rcon 7, rcon 8, rcon 9, rcon 10] =
    [0x01, 0x02, 0x04, 0x08, 0x10, 0x20, 0x40, 0x80, 0x1b, 0x36] ∧
  ∀ key : Block, (keyExpand key).get 0 = key ∧
    ∀ r : Fin 10,
      let p := (keyExpand key).get r.castSucc
      let q := (keyExpand key).get r.succ
      wordOf q 0 = wordOf p 0 ^^^ (rotWord (subWord (wordOf p 3)) ^^^ (rcon (r.val + 1)).setWidth 32) ∧
      wordOf q 1 = wordOf p 1 ^^^ wordOf q 0 ∧ wordOf q 2 = wordOf p 2 ^^^ wordOf q 1 ∧ wordOf q 3 = wordOf p 3 ^^^ wordOf q 2

/-- The two paths of key expansion and the reference give one schedule, all eleven Blocks (R174), and the two paths of encryption and
the reference give one Block, for every bank and plaintext (R179). -/
def Obligations.CipherPathsAgree : Prop :=
  (∀ key : Block, keyExpandX86 key = keyExpand key ∧ keyExpandArm key = keyExpand key) ∧
  ∀ (rk : Vector Block 11) (p : Block), encryptX86 rk p = encrypt rk p ∧ encryptArm rk p = encrypt rk p

/-- The known-answer test of the source document (95_test_vectors.md section 1, property 5; R180, example), on both backends. -/
def Obligations.KnownAnswerTest : Prop :=
  let key := blockOfText 0x000102030405060708090a0b0c0d0e0f
  let plain := blockOfText 0x00112233445566778899aabbccddeeff
  let cipher := blockOfText 0x69c4e0d86a7b0430d8cdb78070b4c55a
  encrypt (keyExpand key) plain = cipher ∧ encryptX86 (keyExpandX86 key) plain = cipher ∧
    encryptArm (keyExpandArm key) plain = cipher

/-! AES instructions. -/

/-- `AESENC`, `AESENCLAST`, `AESKEYGENASSIST` (R150 to R153): with the backend each computes its function of V registers read before
the write, whatever `BSEL` and `RDY` hold, and changes nothing but its destination and the pc; without it each raises
UnsupportedHardware. -/
def Obligations.X86PrimitivesCompute : Prop :=
  (∀ vd va vk : VReg, encode (.aesenc vd va vk) = 0x40#8 ++ regCode vd ++ regCode va ++ regCode vk ++ 0#12 ∧
    encode (.aesenclast vd va vk) = 0x41#8 ++ regCode vd ++ regCode va ++ regCode vk ++ 0#12) ∧
  (∀ (vd va : VReg) (imm : BitVec 8), encode (.aeskeygenassist vd va imm) = 0x42#8 ++ regCode vd ++ regCode va ++ 0#8 ++ imm) ∧
  ∀ (s : State) (vd va vk : VReg) (imm : BitVec 8),
    (s.cfg.hasX86Aes = true →
      Completes (.aesenc vd va vk) s (· = .v vd) (fun t =>
        t.getV vd = mixColumns (shiftRows (subBytes (s.getV va))) ^^^ s.getV vk) ∧
      Completes (.aesenclast vd va vk) s (· = .v vd) (fun t => t.getV vd = shiftRows (subBytes (s.getV va)) ^^^ s.getV vk) ∧
      Completes (.aeskeygenassist vd va imm) s (· = .v vd) (fun t =>
        wordOf (t.getV vd) 0 = subWord (wordOf (s.getV va) 1) ∧
        wordOf (t.getV vd) 1 = rotWord (subWord (wordOf (s.getV va) 1)) ^^^ imm.setWidth 32 ∧
        wordOf (t.getV vd) 2 = subWord (wordOf (s.getV va) 3) ∧
        wordOf (t.getV vd) 3 = rotWord (subWord (wordOf (s.getV va) 3)) ^^^ imm.setWidth 32)) ∧
    (s.cfg.hasX86Aes = false →
      Raises (.aesenc vd va vk) s .unsupportedHardware (wordInfo (.aesenc vd va vk)) ∧
      Raises (.aesenclast vd va vk) s .unsupportedHardware (wordInfo (.aesenclast vd va vk)) ∧
      Raises (.aeskeygenassist vd va imm) s .unsupportedHardware (wordInfo (.aeskeygenassist vd va imm)))

/-- `AESE`, `AESMC` (R160 to R162): with the backend each computes its function; without it each raises UnsupportedHardware. -/
def Obligations.ArmPrimitivesCompute : Prop :=
  (∀ vd va vk : VReg, encode (.aese vd va vk) = 0x50#8 ++ regCode vd ++ regCode va ++ regCode vk ++ 0#12 ∧
    encode (.aesmc vd va) = 0x51#8 ++ regCode vd ++ regCode va ++ 0#16) ∧
  ∀ (s : State) (vd va vk : VReg),
    (s.cfg.hasArmAes = true →
      Completes (.aese vd va vk) s (· = .v vd) (fun t => t.getV vd = shiftRows (subBytes (s.getV va ^^^ s.getV vk))) ∧
      Completes (.aesmc vd va) s (· = .v vd) (fun t => t.getV vd = mixColumns (s.getV va))) ∧
    (s.cfg.hasArmAes = false →
      Raises (.aese vd va vk) s .unsupportedHardware (wordInfo (.aese vd va vk)) ∧
      Raises (.aesmc vd va) s .unsupportedHardware (wordInfo (.aesmc vd va)))

/-- `KEXP` (R175, R233, R235): with a backend and `RDY` clear it writes the eleven round keys of its operand and sets `RDY`, and
nothing else but the pc changes; with a backend and `RDY` set it raises KeyScheduleLocked; without a backend it raises
UnsupportedHardware, whatever `RDY` holds. -/
def Obligations.KexpBuildsTheSchedule : Prop :=
  (∀ va : VReg, encode (.kexp va) = 0x60#8 ++ regCode va ++ 0#20) ∧
  ∀ (s : State) (va : VReg),
    (s.cfg.hasX86Aes = true ∨ s.cfg.hasArmAes = true → s.rdy = false →
      Completes (.kexp va) s (fun p => p = .rdy ∨ ∃ r, p = .rk r) (fun t => t.rdy = true ∧ t.rk = keyExpand (s.getV va))) ∧
    (s.cfg.hasX86Aes = true ∨ s.cfg.hasArmAes = true → s.rdy = true →
      Raises (.kexp va) s .keyScheduleLocked (wordInfo (.kexp va))) ∧
    (s.cfg.hasX86Aes = false → s.cfg.hasArmAes = false →
      Raises (.kexp va) s .unsupportedHardware (wordInfo (.kexp va)))

/-- `ENCB` (R180): with a backend and `RDY` set the destination gets the encryption of the source under the bank; the two checks
come in their order. -/
def Obligations.EncbEncryptsOneBlock : Prop :=
  (∀ vd va : VReg, encode (.encb vd va) = 0x61#8 ++ regCode vd ++ regCode va ++ 0#16) ∧
  ∀ (s : State) (vd va : VReg),
    (s.cfg.hasX86Aes = true ∨ s.cfg.hasArmAes = true → s.rdy = true →
      Completes (.encb vd va) s (· = .v vd) (fun t => t.getV vd = encrypt s.rk (s.getV va))) ∧
    (s.cfg.hasX86Aes = true ∨ s.cfg.hasArmAes = true → s.rdy = false →
      Raises (.encb vd va) s .cipherNotReady (wordInfo (.encb vd va))) ∧
    (s.cfg.hasX86Aes = false → s.cfg.hasArmAes = false →
      Raises (.encb vd va) s .unsupportedHardware (wordInfo (.encb vd va)))

/-- `ENCM` (R181, R186): register `vd + i` gets what `ENCB` gives for the old register `va + i`, for every i below n, however the runs
overlap; nothing else but the pc changes; n = 0 writes nothing but still makes both checks; a count above 8 or a run past `V15` is
no instruction. -/
def Obligations.EncmEncryptsTheRun : Prop :=
  (∀ (vd va : VReg) (n : Fin 9),
    encode (.encm vd va n) = 0x62#8 ++ regCode vd ++ regCode va ++ BitVec.ofNat 4 n.val ++ 0#12) ∧
  (∀ d a n : BitVec 4, 8 < n.toNat ∨ d.toNat + n.toNat > 16 ∨ a.toNat + n.toNat > 16 →
    ∃ e, decodeWord (0x62#8 ++ d ++ a ++ n ++ 0#12) = .error e) ∧
  ∀ (s : State) (vd va : VReg) (n : Fin 9), vd.val + n.val ≤ 16 → va.val + n.val ≤ 16 →
    (s.cfg.hasX86Aes = true ∨ s.cfg.hasArmAes = true → s.rdy = true →
      Completes (.encm vd va n) s (fun p => ∃ r : VReg, p = .v r ∧ vd.val ≤ r.val ∧ r.val < vd.val + n.val) (fun t =>
        ∀ (d a : VReg) (k : Nat), k < n.val → d.val = vd.val + k → a.val = va.val + k →
          t.getV d = encrypt s.rk (s.getV a))) ∧
    (s.cfg.hasX86Aes = true ∨ s.cfg.hasArmAes = true → s.rdy = false →
      Raises (.encm vd va n) s .cipherNotReady (wordInfo (.encm vd va n))) ∧
    (s.cfg.hasX86Aes = false → s.cfg.hasArmAes = false →
      Raises (.encm vd va n) s .unsupportedHardware (wordInfo (.encm vd va n)))

/-- `ENCS` (R182, R186): for an aligned slice that exists, Block i becomes what `ENCB` gives for the old Block i, for every i below the
count, and no other byte and no register changes; an empty slice changes nothing but the pc, whatever its address. -/
def Obligations.EncsEncryptsTheSlice : Prop :=
  (∀ xa xn : XReg, encode (.encs xa xn) = 0x63#8 ++ regCode xa ++ regCode xn ++ 0#16) ∧
  ∀ (s : State) (xa xn : XReg), (s.cfg.hasX86Aes = true ∨ s.cfg.hasArmAes = true) → s.rdy = true →
    let base := (s.getX xa).toNat
    let count := (s.getX xn).toNat
    (count = 0 → Completes (.encs xa xn) s (fun _ => False) (fun _ => True)) ∧
    (base % 16 = 0 → base + 16 * count ≤ s.cfg.dmemBytes →
      Completes (.encs xa xn) s (fun p => ∃ a, p = .dmem a ∧ base ≤ a ∧ a < base + 16 * count) fun t =>
        ∀ i < count, ∀ old : Block, (∀ k < 16, byteOf old k = s.dmem.read (base + 16 * i + k)) →
          ∀ k < 16, t.dmem.read (base + 16 * i + k) = byteOf (encrypt s.rk old) k)

/-- The faults of `ENCS` in their order (R182, R241): UnsupportedHardware, CipherNotReady, MisalignedAccess with the base,
AccessFault with the first byte address of the slice that does not exist. -/
def Obligations.EncsFaultsInOrder : Prop :=
  ∀ (s : State) (xa xn : XReg),
    let base := (s.getX xa).toNat
    let count := (s.getX xn).toNat
    let backend := s.cfg.hasX86Aes = true ∨ s.cfg.hasArmAes = true
    (¬ backend → Raises (.encs xa xn) s .unsupportedHardware (wordInfo (.encs xa xn))) ∧
    (backend → s.rdy = false → Raises (.encs xa xn) s .cipherNotReady (wordInfo (.encs xa xn))) ∧
    (backend → s.rdy = true → count ≠ 0 → base % 16 ≠ 0 → Raises (.encs xa xn) s .misalignedAccess (s.getX xa)) ∧
    (backend → s.rdy = true → count ≠ 0 → base % 16 = 0 → base + 16 * count > s.cfg.dmemBytes →
      Raises (.encs xa xn) s .accessFault
        (if base ≥ s.cfg.dmemBytes then s.getX xa else BitVec.ofNat 128 s.cfg.dmemBytes))

/-! The host. -/

/-- `HostReset` (R260, R262): from any state every register goes to its reset value, both memories and the parameters stay, and no
step follows. (That the bank is cleared is the model's own, assumption log 3, and is not stated.) -/
def Obligations.HostResetGivesTheResetValues : Prop :=
  ∀ s : State, ∃ t, hostStep .reset s = .next t ∧
    (∀ r, (t.getX r).toNat = 0) ∧ (∀ r, (t.getV r).toNat = 0) ∧ t.c = false ∧ t.rdy = false ∧ t.bsel = false ∧ t.pc = 0 ∧
    t.run = .halted ∧ causeCode t.cause = 0 ∧ t.epc = 0 ∧ t.finfo = 0 ∧
    (∀ a, t.imem.read a = s.imem.read a) ∧ (∀ a, t.dmem.read a = s.dmem.read a) ∧ t.cfg = s.cfg ∧
    ∀ u, step t ≠ .next u

/-- The host's other operations (R250, R61): each write reaches its one place while the engine is not RUNNING and the address exists,
and is no move of the host otherwise; `HostStart` makes a HALTED engine RUNNING and does nothing otherwise; the reads give the byte,
the register, the CSR as `CSRR` reads it and the pc, each where it is allowed, and no value elsewhere. (That the host's operations
are `hostStep` and the `hostRead` functions, and that a read outside its column gives no value, is the model's form of R250,
assumption log 6.) -/
def Obligations.HostMovesWhereAllowed : Prop :=
  ∀ s : State,
    (s.run = .halted → ∃ t, hostStep .start s = .next t ∧ t.run = .running ∧ OnlyChanges (· = .run) s t) ∧
    (s.run ≠ .halted → hostStep .start s = .next s) ∧
    (∀ (a : Nat) (b : Byte), s.run ≠ .running → a < s.cfg.imemBytes →
      ∃ t, hostStep (.writeImem a b) s = .next t ∧ t.imem.read a = b ∧ OnlyChanges (· = .imem a) s t) ∧
    (∀ (a : Nat) (b : Byte), s.run ≠ .running → a < s.cfg.dmemBytes →
      ∃ t, hostStep (.writeDmem a b) s = .next t ∧ t.dmem.read a = b ∧ OnlyChanges (· = .dmem a) s t ∧
        hostReadDmem a t = some b) ∧
    (∀ v : CodeAddr, s.run ≠ .running → ∃ t, hostStep (.writePc v) s = .next t ∧ hostReadPc t = v ∧ OnlyChanges (· = .pc) s t) ∧
    (∀ v : Word, s.run ≠ .running →
      ∃ t, hostStep (.writeCtrl v) s = .next t ∧ t.bsel = v.getLsbD 0 ∧ OnlyChanges (· = .bsel) s t) ∧
    (∀ op t, s.run = .running → hostStep op s = .next t → (op = .start ∧ t = s) ∨ op = .reset) ∧
    (∀ (a : Nat) (b : Byte) (t : State), s.cfg.imemBytes ≤ a → hostStep (.writeImem a b) s ≠ .next t) ∧
    (∀ (a : Nat) (b : Byte) (t : State), s.cfg.dmemBytes ≤ a → hostStep (.writeDmem a b) s ≠ .next t) ∧
    (∀ a : Nat, s.run ≠ .running → a < s.cfg.dmemBytes → hostReadDmem a s = some (s.dmem.read a)) ∧
    (∀ a : Nat, s.run = .running ∨ s.cfg.dmemBytes ≤ a → hostReadDmem a s = none) ∧
    (∀ r, s.run ≠ .running → hostReadX r s = some (s.getX r) ∧ hostReadV r s = some (s.getV r)) ∧
    (∀ r, s.run = .running → hostReadX r s = none ∧ hostReadV r s = none) ∧
    hostReadPc s = s.pc ∧
    ∀ (csr : Csr) (xd : XReg), ∃ t, exec (.csrr xd csr) s = .next t ∧ hostReadCsr csr s = t.getX xd
end

