-- ==== Sys2Proof/Laws/Fields.lean ====
section
/-! SUPPORT. Words and their fields: cutting a word and putting it together again lose nothing (30_encoding.md R71). -/

namespace Sys2Proof

/-- A concatenation as a number (00_scope.md R15). -/
theorem toNat_append_add {m n : Nat} (x : BitVec m) (y : BitVec n) : (x ++ y).toNat = x.toNat * 2 ^ n + y.toNat := by
  rw [BitVec.toNat_append, ← Nat.shiftLeft_add_eq_or_of_lt y.isLt, Nat.shiftLeft_eq]

/-- A field of a word as a number (00_scope.md R15). -/
theorem toNat_extract {n : Nat} (x : BitVec n) (lo len : Nat) : (x.extractLsb' lo len).toNat = x.toNat / 2 ^ lo % 2 ^ len := by
  rw [BitVec.extractLsb'_toNat, Nat.shiftRight_eq_div_pow]

/-- The fields of a word put together from fields. -/
@[simp] theorem Fields.ofWord_toWord (x : Fields) : Fields.ofWord x.toWord = x := by
  obtain ⟨op, a, b, c, d, e, f⟩ := x
  simp only [Fields.ofWord, Fields.toWord, Fields.mk.injEq]
  have ha := a.isLt
  have hb := b.isLt
  have hc := c.isLt
  have hd := d.isLt
  have he := e.isLt
  have hf := f.isLt
  have ho := op.isLt
  refine ⟨?_, ?_, ?_, ?_, ?_, ?_, ?_⟩ <;>
    (apply BitVec.eq_of_toNat_eq; simp only [toNat_extract, toNat_append_add]; omega)

/-- The word put together from the fields of a word. -/
@[simp] theorem Fields.toWord_ofWord (w : InstrWord) : (Fields.ofWord w).toWord = w := by
  apply BitVec.eq_of_toNat_eq
  have := w.isLt
  simp only [Fields.ofWord, Fields.toWord, toNat_extract, toNat_append_add]
  omega

/-- Four nibbles cut from a 16-bit immediate and joined. -/
@[simp] theorem join16 (i : BitVec 16) :
    i.extractLsb' 12 4 ++ i.extractLsb' 8 4 ++ i.extractLsb' 4 4 ++ i.extractLsb' 0 4 = i := by
  apply BitVec.eq_of_toNat_eq
  have := i.isLt
  simp only [toNat_extract, toNat_append_add]
  omega

/-- Three nibbles cut from a 12-bit immediate and joined. -/
@[simp] theorem join12 (i : BitVec 12) : i.extractLsb' 8 4 ++ i.extractLsb' 4 4 ++ i.extractLsb' 0 4 = i := by
  apply BitVec.eq_of_toNat_eq
  have := i.isLt
  simp only [toNat_extract, toNat_append_add]
  omega

/-- Two nibbles cut from an 8-bit immediate and joined. -/
@[simp] theorem join8 (i : BitVec 8) : i.extractLsb' 4 4 ++ i.extractLsb' 0 4 = i := by
  apply BitVec.eq_of_toNat_eq
  have := i.isLt
  simp only [toNat_extract, toNat_append_add]
  omega

/-- The nibbles of a 16-bit immediate joined from nibbles. -/
theorem split16 (a b c d : BitVec 4) :
    (a ++ b ++ c ++ d).extractLsb' 12 4 = a ∧ (a ++ b ++ c ++ d).extractLsb' 8 4 = b ∧
    (a ++ b ++ c ++ d).extractLsb' 4 4 = c ∧ (a ++ b ++ c ++ d).extractLsb' 0 4 = d := by
  have ha := a.isLt
  have hb := b.isLt
  have hc := c.isLt
  have hd := d.isLt
  refine ⟨?_, ?_, ?_, ?_⟩ <;>
    (apply BitVec.eq_of_toNat_eq; simp only [toNat_extract, toNat_append_add]; omega)

/-- The nibbles of a 12-bit immediate joined from nibbles. -/
theorem split12 (a b c : BitVec 4) :
    (a ++ b ++ c).extractLsb' 8 4 = a ∧ (a ++ b ++ c).extractLsb' 4 4 = b ∧ (a ++ b ++ c).extractLsb' 0 4 = c := by
  have ha := a.isLt
  have hb := b.isLt
  have hc := c.isLt
  refine ⟨?_, ?_, ?_⟩ <;>
    (apply BitVec.eq_of_toNat_eq; simp only [toNat_extract, toNat_append_add]; omega)

/-- The nibbles of an 8-bit immediate joined from nibbles. -/
theorem split8 (a b : BitVec 4) : (a ++ b).extractLsb' 4 4 = a ∧ (a ++ b).extractLsb' 0 4 = b := by
  have ha := a.isLt
  have hb := b.isLt
  refine ⟨?_, ?_⟩ <;>
    (apply BitVec.eq_of_toNat_eq; simp only [toNat_extract, toNat_append_add]; omega)

@[simp] theorem regOf_regCode (r : Fin 16) : regOf (regCode r) = r := rfl

@[simp] theorem regCode_regOf (n : BitVec 4) : regCode (regOf n) = n := rfl

@[simp] theorem Width.ofCode_code (w : Width) : Width.ofCode w.code = some w := by cases w <;> rfl

@[simp] theorem CarrySel.ofCode_code (x : CarrySel) : CarrySel.ofCode x.code = some x := by cases x <;> rfl

@[simp] theorem Csr.ofNumber_number (c : Csr) : Csr.ofNumber c.number = some c := by cases c <;> rfl

/-- A width code stands for the width it encodes, and for nothing else. -/
theorem Width.code_of_ofCode {n : BitVec 4} {w : Width} (h : Width.ofCode n = some w) : w.code = n := by
  revert n w; decide

/-- A carry-in select stands for the choice it encodes, and for nothing else. -/
theorem CarrySel.code_of_ofCode {n : BitVec 4} {x : CarrySel} (h : CarrySel.ofCode n = some x) : x.code = n := by
  revert n x; decide

/-- A CSR number stands for the CSR it numbers, and for nothing else. -/
theorem Csr.number_of_ofNumber {n : BitVec 12} {c : Csr} (h : Csr.ofNumber n = some c) : c.number = n := by
  unfold Csr.ofNumber at h
  split at h <;> cases h <;> rfl

/-- The bytes of a word assemble to the word (20_memory.md R51). -/
@[simp] theorem wordOfBytes_bytesOfWord (w : InstrWord) :
    wordOfBytes (w.extractLsb' 0 8) (w.extractLsb' 8 8) (w.extractLsb' 16 8) (w.extractLsb' 24 8) = w := by
  apply BitVec.eq_of_toNat_eq
  have := w.isLt
  simp only [wordOfBytes, toNat_extract, toNat_append_add]
  omega

/-! Each rule of the decoder: what it needs to answer an instruction. -/

@[simp] theorem needRotate_ofNat (n : Fin 32) (k : Fin 32 → Decoded) : needRotate (BitVec.ofNat 8 n.val) k = k n := by
  have h : (BitVec.ofNat 8 n.val).toNat = n.val := by simp only [BitVec.toNat_ofNat]; omega
  simp [needRotate, h]

@[simp] theorem needIndex_ofNat (n : Fin 11) (k : Fin 11 → Decoded) : needIndex (BitVec.ofNat 4 n.val) k = k n := by
  have h : (BitVec.ofNat 4 n.val).toNat = n.val := by simp only [BitVec.toNat_ofNat]; omega
  simp [needIndex, h]

@[simp] theorem needCount_ofNat (n : Fin 9) (k : Fin 9 → Decoded) : needCount (BitVec.ofNat 4 n.val) k = k n := by
  have h : (BitVec.ofNat 4 n.val).toNat = n.val := by simp only [BitVec.toNat_ofNat]; omega
  simp [needCount, h]

@[simp] theorem needWidth_code (w : Width) (k : Width → Decoded) : needWidth w.code k = k w := by simp [needWidth]

@[simp] theorem needCarrySel_code (x : CarrySel) (k : CarrySel → Decoded) : needCarrySel x.code k = k x := by
  simp [needCarrySel]

@[simp] theorem needCsr_number (c : Csr) (k : Csr → Decoded) : needCsr c.number k = k c := by simp [needCsr]

theorem needZero_ok {zs : List (BitVec 4)} {k : Decoded} {i : Instr} :
    needZero zs k = .ok i ↔ (∀ z ∈ zs, z = 0) ∧ k = .ok i := by
  unfold needZero
  split
  · next h =>
    simp only [List.all_eq_true, beq_iff_eq] at h
    exact ⟨fun hk => ⟨h, hk⟩, fun hk => hk.2⟩
  · next h => simp only [reduceCtorEq, false_iff, not_and]; intro h'; exact absurd (by simpa using h') h

theorem needWidth_ok {n : BitVec 4} {k : Width → Decoded} {i : Instr} :
    needWidth n k = .ok i ↔ ∃ w, n = w.code ∧ k w = .ok i := by
  unfold needWidth
  split
  · next w h =>
    constructor
    · exact fun hk => ⟨w, (Width.code_of_ofCode h).symm, hk⟩
    · rintro ⟨w', rfl, hk⟩
      rw [Width.ofCode_code] at h
      cases h
      exact hk
  · next h => simp only [reduceCtorEq, false_iff]; rintro ⟨w', rfl, -⟩; simp at h

theorem needCarrySel_ok {n : BitVec 4} {k : CarrySel → Decoded} {i : Instr} :
    needCarrySel n k = .ok i ↔ ∃ x, n = x.code ∧ k x = .ok i := by
  unfold needCarrySel
  split
  · next w h =>
    constructor
    · exact fun hk => ⟨w, (CarrySel.code_of_ofCode h).symm, hk⟩
    · rintro ⟨w', rfl, hk⟩
      rw [CarrySel.ofCode_code] at h
      cases h
      exact hk
  · next h => simp only [reduceCtorEq, false_iff]; rintro ⟨w', rfl, -⟩; simp at h

theorem needCsr_ok {n : BitVec 12} {k : Csr → Decoded} {i : Instr} :
    needCsr n k = .ok i ↔ ∃ c, n = c.number ∧ k c = .ok i := by
  unfold needCsr
  split
  · next w h =>
    constructor
    · exact fun hk => ⟨w, (Csr.number_of_ofNumber h).symm, hk⟩
    · rintro ⟨w', rfl, hk⟩
      rw [Csr.ofNumber_number] at h
      cases h
      exact hk
  · next h => simp only [reduceCtorEq, false_iff]; rintro ⟨w', rfl, -⟩; simp at h

theorem needRotate_ok {n : BitVec 8} {k : Fin 32 → Decoded} {i : Instr} :
    needRotate n k = .ok i ↔ ∃ x : Fin 32, n = BitVec.ofNat 8 x.val ∧ k x = .ok i := by
  constructor
  · intro h
    unfold needRotate at h
    split at h
    · exact ⟨_, by simp, h⟩
    · cases h
  · rintro ⟨x, rfl, h⟩
    rwa [needRotate_ofNat]

theorem needIndex_ok {n : BitVec 4} {k : Fin 11 → Decoded} {i : Instr} :
    needIndex n k = .ok i ↔ ∃ x : Fin 11, n = BitVec.ofNat 4 x.val ∧ k x = .ok i := by
  constructor
  · intro h
    unfold needIndex at h
    split at h
    · exact ⟨_, by simp, h⟩
    · cases h
  · rintro ⟨x, rfl, h⟩
    rwa [needIndex_ofNat]

theorem needCount_ok {n : BitVec 4} {k : Fin 9 → Decoded} {i : Instr} :
    needCount n k = .ok i ↔ ∃ x : Fin 9, n = BitVec.ofNat 4 x.val ∧ k x = .ok i := by
  constructor
  · intro h
    unfold needCount at h
    split at h
    · exact ⟨_, by simp, h⟩
    · cases h
  · rintro ⟨x, rfl, h⟩
    rwa [needCount_ofNat]

theorem needLegal_ok {why : DecodeError} {j i : Instr} : needLegal why j = .ok i ↔ j.wellFormed = true ∧ j = i := by
  unfold needLegal
  split <;> simp_all

/-! The rows of the opcode table (30_encoding.md R78) read on the fields of a word. -/

/-- The bits of one word that another selects, field by field. -/
def Fields.masked (x m : Fields) : Fields :=
  ⟨x.op &&& m.op, x.a &&& m.a, x.b &&& m.b, x.c &&& m.c, x.d &&& m.d, x.e &&& m.e, x.f &&& m.f⟩

theorem Fields.ofWord_and (w m : InstrWord) : Fields.ofWord (w &&& m) = (Fields.ofWord w).masked (Fields.ofWord m) := by
  simp only [Fields.ofWord, Fields.masked, BitVec.extractLsb'_and]

/-- A match under a mask, field by field. -/
theorem Fields.masked_eq (x : Fields) (mask m : InstrWord) :
    x.toWord &&& mask = m ↔ x.masked (Fields.ofWord mask) = Fields.ofWord m := by
  constructor
  · rintro rfl
    rw [ofWord_and, ofWord_toWord]
  · intro h
    rw [← toWord_ofWord m, ← h, ← toWord_ofWord (_ &&& _), ofWord_and, ofWord_toWord]

theorem nibble_and_all (x : BitVec 4) : x &&& 15#4 = x := by revert x; decide

theorem opcode_and_all (x : BitVec 8) : x &&& 255#8 = x := by revert x; decide

/-- The bit ranges that the constraints of R78 read. -/
theorem Fields.bitsOf_toWord (x : Fields) :
    bitsOf x.toWord 11 0 = x.imm12.toNat ∧ bitsOf x.toWord 7 0 = x.imm8.toNat ∧ bitsOf x.toWord 7 4 = x.e.toNat ∧
    bitsOf x.toWord 15 12 = x.c.toNat ∧ bitsOf x.toWord 19 16 = x.b.toNat ∧ bitsOf x.toWord 23 20 = x.a.toNat := by
  obtain ⟨op, a, b, c, d, e, f⟩ := x
  refine ⟨?_, ?_, ?_, ?_, ?_, ?_⟩ <;>
    (simp only [bitsOf, Fields.toWord, Fields.imm12, Fields.imm8, toNat_append_add]; omega)

/-- A word of a row, by its fields. -/
theorem Row.admits_toWord (r : Row) (x : Fields) :
    r.admits x.toWord = true ↔
      x.masked (Fields.ofWord r.mask) = Fields.ofWord r.matchBits ∧ r.constraint x.toWord = true := by
  rw [Row.admits, Bool.and_eq_true, beq_iff_eq, Fields.masked_eq]

/-- Two rows that admit one word agree wherever both masks look. -/
theorem Row.admits_both {r r' : Row} {w : InstrWord} (h : r.admits w = true) (h' : r'.admits w = true) :
    r.matchBits &&& r'.mask = r'.matchBits &&& r.mask := by
  rw [Row.admits, Bool.and_eq_true, beq_iff_eq] at h h'
  rw [← h.1, ← h'.1, BitVec.and_assoc, BitVec.and_assoc, BitVec.and_comm r.mask]

end Sys2Proof
end

