-- ==== Sys2Proof/Laws/Blocks.lean ====
section
/-! SUPPORT. Blocks: their bytes and words, and that a Block is what its bytes or its words are (00_scope.md R17). -/

namespace Sys2Proof.Machine

/-- Byte i as a number. -/
theorem byteOf_toNat (b : Block) (i : Nat) : (byteOf b i).toNat = b.toNat / 256 ^ i % 256 := by
  rw [byteOf, toNat_extract, pow_mul]
  norm_num

/-- Word j as a number. -/
theorem wordOf_toNat (b : Block) (j : Nat) : (wordOf b j).toNat = b.toNat / 4294967296 ^ j % 4294967296 := by
  rw [wordOf, toNat_extract, pow_mul]
  norm_num

/-- Bit k of byte i. -/
theorem byteOf_bit (b : Block) (i k : Nat) (hk : k < 8) : (byteOf b i).getLsbD k = b.getLsbD (8 * i + k) := by
  simp [byteOf, hk]

/-- Bit k of word j. -/
theorem wordOf_bit (b : Block) (j k : Nat) (hk : k < 32) : (wordOf b j).getLsbD k = b.getLsbD (32 * j + k) := by
  simp [wordOf, hk]

/-- Byte k of word j is byte 4j + k of the Block (10_state.md R27). -/
theorem columnByte_wordOf (b : Block) (j k : Nat) (hk : k < 4) : columnByte (wordOf b j) k = byteOf b (4 * j + k) := by
  apply BitVec.eq_of_getLsbD_eq
  intro n hn
  have h : 8 * k + n < 32 := by omega
  simp only [columnByte, wordOf, byteOf, BitVec.getLsbD_extractLsb', hn, decide_true, Bool.true_and, h]
  congr 1
  omega

/-- Blocks with equal bytes are equal. -/
theorem block_ext_bytes {a b : Block} (h : ∀ k < 16, byteOf a k = byteOf b k) : a = b := by
  apply BitVec.eq_of_getLsbD_eq
  intro n hn
  have := congrArg (fun x : Byte => x.getLsbD (n % 8)) (h (n / 8) (by omega))
  simp only [byteOf_bit _ _ _ (show n % 8 < 8 by omega)] at this
  rwa [show 8 * (n / 8) + n % 8 = n by omega] at this

/-- Blocks with equal words are equal. -/
theorem block_ext_words {a b : Block} (h : ∀ j < 4, wordOf a j = wordOf b j) : a = b := by
  apply BitVec.eq_of_getLsbD_eq
  intro n hn
  have := congrArg (fun x : Column => x.getLsbD (n % 32)) (h (n / 32) (by omega))
  simp only [wordOf_bit _ _ _ (show n % 32 < 32 by omega)] at this
  rwa [show 32 * (n / 32) + n % 32 = n by omega] at this

/-- The bytes of a Block put together from bytes. -/
theorem byteOf_blockOfBytes (f : Nat → Byte) (k : Nat) (hk : k < 16) : byteOf (blockOfBytes f) k = f k := by
  have h := fun i => (f i).isLt
  have h0 := h 0
  have h1 := h 1
  have h2 := h 2
  have h3 := h 3
  have h4 := h 4
  have h5 := h 5
  have h6 := h 6
  have h7 := h 7
  have h8 := h 8
  have h9 := h 9
  have h10 := h 10
  have h11 := h 11
  have h12 := h 12
  have h13 := h 13
  have h14 := h 14
  have h15 := h 15
  apply BitVec.eq_of_toNat_eq
  rw [byteOf_toNat]
  simp only [blockOfBytes, toNat_append_add]
  interval_cases k <;> norm_num <;> omega

/-- The words of a Block put together from words. -/
theorem wordOf_blockOfWords (f : Nat → Column) (j : Nat) (hj : j < 4) : wordOf (blockOfWords f) j = f j := by
  have h := fun i => (f i).isLt
  have h0 := h 0
  have h1 := h 1
  have h2 := h 2
  have h3 := h 3
  apply BitVec.eq_of_toNat_eq
  rw [wordOf_toNat]
  simp only [blockOfWords, toNat_append_add]
  interval_cases j <;> norm_num <;> omega

/-- The bytes of a word put together from bytes. -/
theorem columnByte_columnOfBytes (b0 b1 b2 b3 : Byte) :
    columnByte (columnOfBytes b0 b1 b2 b3) 0 = b0 ∧ columnByte (columnOfBytes b0 b1 b2 b3) 1 = b1 ∧
    columnByte (columnOfBytes b0 b1 b2 b3) 2 = b2 ∧ columnByte (columnOfBytes b0 b1 b2 b3) 3 = b3 := by
  have h0 := b0.isLt
  have h1 := b1.isLt
  have h2 := b2.isLt
  have h3 := b3.isLt
  refine ⟨?_, ?_, ?_, ?_⟩ <;>
    (apply BitVec.eq_of_toNat_eq; simp only [columnByte, columnOfBytes, toNat_extract, toNat_append_add]; omega)

/-- Words with equal bytes are equal. -/
theorem column_ext_bytes {a b : Column} (h : ∀ k < 4, columnByte a k = columnByte b k) : a = b := by
  apply BitVec.eq_of_getLsbD_eq
  intro n hn
  have := congrArg (fun x : Byte => x.getLsbD (n % 8)) (h (n / 8) (by omega))
  simp only [columnByte, BitVec.getLsbD_extractLsb', show n % 8 < 8 by omega, decide_true, Bool.true_and] at this
  rwa [show 8 * (n / 8) + n % 8 = n by omega] at this

/-- Words of an exclusive or. -/
@[simp] theorem wordOf_xor (a b : Block) (j : Nat) : wordOf (a ^^^ b) j = wordOf a j ^^^ wordOf b j := by
  apply BitVec.eq_of_getLsbD_eq
  intro n hn
  simp [wordOf, hn]

/-- Bytes of an exclusive or. -/
@[simp] theorem byteOf_xor (a b : Block) (i : Nat) : byteOf (a ^^^ b) i = byteOf a i ^^^ byteOf b i := by
  apply BitVec.eq_of_getLsbD_eq
  intro n hn
  simp [byteOf, hn]

end Sys2Proof.Machine
end

