-- ==== Sys2Proof/Laws/Aes.lean ====
section
/-! SUPPORT. The functions of AES by bytes and words, the Block helpers word by word, and the schedule key by key. -/

namespace Sys2Proof.Machine

/-- Round key r of a schedule (44_aes_cipher_ops.md R171). -/
@[simp] theorem schedule_get (next : Nat → Block → Block) (key : Block) (r : Fin 11) :
    (schedule next key).get r = roundKey next key r.val := by
  rw [schedule, Vector.get_eq_getElem, Vector.getElem_ofFn]

/-- Two rules that give one round key from every round key give one schedule. -/
theorem schedule_congr {f g : Nat → Block → Block} (h : ∀ r, 1 ≤ r → r ≤ 10 → ∀ p, f r p = g r p) (key : Block) :
    schedule f key = schedule g key := by
  have hk : ∀ r, r ≤ 10 → roundKey f key r = roundKey g key r := by
    intro r hr
    induction r with
    | zero => rfl
    | succ r ih => rw [roundKey, roundKey, ih (by omega), h (r + 1) (by omega) hr]
  apply Vector.ext
  intro i hi
  simp only [schedule, Vector.getElem_ofFn]
  exact hk i (by omega)

theorem byteOf_subBytes (b : Block) (k : Nat) (hk : k < 16) : byteOf (subBytes b) k = sbox (byteOf b k) :=
  byteOf_blockOfBytes _ k hk

theorem byteOf_shiftRows (b : Block) (k : Nat) (hk : k < 16) :
    byteOf (shiftRows b) k = byteOf b (k % 4 + 4 * ((k / 4 + k % 4) % 4)) :=
  byteOf_blockOfBytes (fun i => byteOf b (i % 4 + 4 * ((i / 4 + i % 4) % 4))) k hk

theorem wordOf_mixColumns (b : Block) (j : Nat) (hj : j < 4) : wordOf (mixColumns b) j = mixColumn (wordOf b j) :=
  wordOf_blockOfWords (fun j => mixColumn (wordOf b j)) j hj

theorem wordOf_vshufw (b : Block) (imm : BitVec 8) (j : Nat) (hj : j < 4) :
    wordOf (vshufw b imm) j = wordOf b (imm.extractLsb' (2 * j) 2).toNat :=
  wordOf_blockOfWords (fun j => wordOf b (imm.extractLsb' (2 * j) 2).toNat) j hj

theorem wordOf_vrorw (b : Block) (n j : Nat) (hj : j < 4) : wordOf (vrorw b n) j = rorWord (wordOf b j) n :=
  wordOf_blockOfWords (fun j => rorWord (wordOf b j) n) j hj

theorem wordOf_vimmw (imm : BitVec 16) (j : Nat) (hj : j < 4) : wordOf (vimmw imm) j = imm.setWidth 32 :=
  wordOf_blockOfWords (fun _ => imm.setWidth 32) j hj

/-- `gmul` by 2 and by 3 (41_block_ops_and_aes_functions.md R120). -/
theorem gmul_two (a : Byte) : gmul a 2 = xtime a := by revert a; decide +kernel

theorem gmul_three (a : Byte) : gmul a 3 = xtime a ^^^ a := by revert a; decide +kernel

/-- The bytes of a word of `SubWord` (R125). -/
theorem columnByte_subWord (w : Column) (k : Nat) (hk : k < 4) : columnByte (subWord w) k = sbox (columnByte w k) := by
  obtain ⟨h0, h1, h2, h3⟩ :=
    columnByte_columnOfBytes (sbox (columnByte w 0)) (sbox (columnByte w 1)) (sbox (columnByte w 2)) (sbox (columnByte w 3))
  interval_cases k
  exacts [h0, h1, h2, h3]

/-- The bytes of a word of `RotWord` (R125). -/
theorem columnByte_rotWord (w : Column) (k : Nat) (hk : k < 4) :
    columnByte (rotWord w) k = columnByte w ((k + 1) % 4) := by
  apply BitVec.eq_of_getLsbD_eq
  intro n hn
  simp only [columnByte, rotWord, BitVec.getLsbD_extractLsb', BitVec.getLsbD_or, BitVec.getLsbD_ushiftRight,
    BitVec.getLsbD_shiftLeft, hn, decide_true, Bool.true_and]
  have h32 : 8 * k + n < 32 := by omega
  by_cases h : k = 3
  · have h24 : ¬ 8 * k + n < 24 := by omega
    rw [BitVec.getLsbD_of_ge w (8 + (8 * k + n)) (by omega)]
    simp only [h32, h24, decide_true, decide_false, Bool.not_false, Bool.true_and, Bool.false_or]
    congr 1
    omega
  · have h24 : 8 * k + n < 24 := by omega
    simp only [h24, decide_true, Bool.not_true, Bool.and_false, Bool.false_and, Bool.or_false]
    congr 1
    omega

end Sys2Proof.Machine
end

