-- ==== Sys2Proof/Laws/Memory.lean ====
section
/-! SUPPORT. Memory: a read after a write, and every operation keeps the canonical form and the bounds. -/

namespace Sys2Proof.Machine

namespace Memory

variable (m : Memory)

@[simp] theorem read_nil (a : Nat) : read [] a = unlistedByte := rfl

@[simp] theorem read_cons (cell : Host.Cell) (rest : Memory) (a : Nat) :
    read (cell :: rest) a = if cell.1 = a then cell.2 else read rest a := rfl

/-- Erasing the cells of an address makes it read as unlisted and leaves every other address alone. -/
theorem read_erase (a a' : Nat) :
    read (m.filter fun cell => cell.1 != a) a' = if a' = a then unlistedByte else read m a' := by
  induction m with
  | nil => simp
  | cons cell rest ih =>
    by_cases h : cell.1 = a
    · have : (cell.1 != a) = false := by simp [h]
      rw [List.filter_cons_of_neg (by simp [this]), ih]
      split
      · rfl
      · next h' => rw [read_cons, if_neg (by omega)]
    · rw [List.filter_cons_of_pos (by simp [h]), read_cons, ih, read_cons]
      split
      · next h' => rw [if_neg (by omega)]
      · rfl

/-- Inserting a cell of an address that is not listed makes that address read as the cell. -/
theorem read_insert (cell : Host.Cell) (hnew : ∀ c ∈ m, c.1 ≠ cell.1) (a : Nat) :
    read (insert m cell) a = if a = cell.1 then cell.2 else read m a := by
  induction m with
  | nil => simp [insert, eq_comm]
  | cons first rest ih =>
    have hfirst : first.1 ≠ cell.1 := hnew first (by simp)
    have hrest := ih (fun c hc => hnew c (by simp [hc]))
    unfold insert
    split
    · simp only [read_cons, eq_comm (a := a)]
    · rw [read_cons, hrest, read_cons]
      split
      · next h => rw [if_neg (by omega)]
      · rfl

/-- A byte read after a byte write (20_memory.md R54). -/
@[simp] theorem read_write (a a' : Nat) (b : Byte) : (m.write a b).read a' = if a' = a then b else m.read a' := by
  unfold write
  dsimp only
  split
  · next h => rw [read_erase, h]
  · rw [read_insert _ _ (by simp [List.mem_filter]), read_erase]
    dsimp only
    split <;> simp_all

/-- The canonical form says: listed bytes are not the unlisted one, and addresses rise strictly. -/
theorem wf_iff : m.wf = true ↔ (∀ c ∈ m, c.2 ≠ unlistedByte) ∧ m.Pairwise (fun c d => c.1 < d.1) := by
  induction m with
  | nil => simp [wf]
  | cons cell rest ih =>
    cases rest with
    | nil => simp [wf]
    | cons next rest =>
      have hwf : wf (cell :: next :: rest) = (cell.2 != unlistedByte && decide (cell.1 < next.1) && wf (next :: rest)) := rfl
      rw [hwf, Bool.and_eq_true, Bool.and_eq_true, ih, List.pairwise_cons (a := cell)]
      simp only [bne_iff_ne, decide_eq_true_eq, List.forall_mem_cons, List.pairwise_cons]
      constructor
      · rintro ⟨⟨h1, h2⟩, ⟨h3, h4⟩, h5, h6⟩
        exact ⟨⟨h1, h3, h4⟩, ⟨h2, fun d hd => lt_trans h2 (h5 d hd)⟩, h5, h6⟩
      · rintro ⟨⟨h1, h3, h4⟩, ⟨h2, -⟩, h5, h6⟩
        exact ⟨⟨h1, h2⟩, ⟨h3, h4⟩, h5, h6⟩

theorem mem_insert (cell c : Host.Cell) : c ∈ insert m cell ↔ c = cell ∨ c ∈ m := by
  induction m with
  | nil => simp [insert]
  | cons first rest ih =>
    unfold insert
    split
    · simp
    · simp only [List.mem_cons, ih]
      tauto

theorem insert_rising (cell : Host.Cell) (hnew : ∀ c ∈ m, c.1 ≠ cell.1) (h : m.Pairwise (fun c d => c.1 < d.1)) :
    (insert m cell).Pairwise (fun c d => c.1 < d.1) := by
  induction m with
  | nil => simp [insert]
  | cons first rest ih =>
    have hp := List.pairwise_cons.mp h
    have hfirst : first.1 ≠ cell.1 := hnew first (by simp)
    unfold insert
    split
    · next hlt =>
      refine List.pairwise_cons.mpr ⟨fun c hc => ?_, h⟩
      rcases List.mem_cons.mp hc with rfl | hc
      · exact hlt
      · exact lt_trans hlt (hp.1 c hc)
    · refine List.pairwise_cons.mpr ⟨fun c hc => ?_, ih (fun c hc => hnew c (by simp [hc])) hp.2⟩
      rcases (mem_insert rest cell c).mp hc with rfl | hc
      · omega
      · exact hp.1 c hc

/-- A byte write keeps the canonical form. -/
theorem wf_write (a : Nat) (b : Byte) (h : m.wf = true) : (m.write a b).wf = true := by
  obtain ⟨h1, h2⟩ := (wf_iff m).mp h
  have h1' : ∀ c ∈ m.filter (fun cell => cell.1 != a), c.2 ≠ unlistedByte := fun c hc => h1 c (List.mem_filter.mp hc).1
  have h2' := List.Pairwise.filter (fun cell : Host.Cell => cell.1 != a) h2
  unfold write
  dsimp only
  split
  · exact (wf_iff _).mpr ⟨h1', h2'⟩
  · next hb =>
    refine (wf_iff _).mpr ⟨fun c hc => ?_, insert_rising _ _ (by simp [List.mem_filter]) h2'⟩
    rcases (mem_insert _ _ c).mp hc with rfl | hc
    · exact hb
    · exact h1' c hc

/-- A byte write inside a memory lists only addresses inside it. -/
theorem inside_write (a size : Nat) (b : Byte) (ha : a < size) (h : m.inside size = true) :
    (m.write a b).inside size = true := by
  simp only [inside, List.all_eq_true, decide_eq_true_eq] at *
  intro c hc
  unfold write at hc
  dsimp only at hc
  split at hc
  · exact h c (List.mem_filter.mp hc).1
  · rcases (mem_insert _ _ c).mp hc with rfl | hc
    · exact ha
    · exact h c (List.mem_filter.mp hc).1

@[simp] theorem readLE_zero (a : Nat) : m.readLE a 0 = 0 := rfl

theorem readLE_succ (a k : Nat) : m.readLE a (k + 1) = (m.read a).toNat + 256 * m.readLE (a + 1) k := rfl

/-- A little-endian value depends on its own bytes alone. -/
theorem readLE_congr (m' : Memory) (a n : Nat) (h : ∀ k < n, m'.read (a + k) = m.read (a + k)) :
    m'.readLE a n = m.readLE a n := by
  induction n generalizing a with
  | zero => rfl
  | succ n ih =>
    have h0 := h 0 (by omega)
    rw [readLE_succ, readLE_succ, ih (a + 1) (fun k hk => by have := h (k + 1) (by omega); rwa [← Nat.add_assoc, Nat.add_right_comm] at this)]
    rw [Nat.add_zero] at h0
    rw [h0]

theorem readLE_lt (a n : Nat) : m.readLE a n < 256 ^ n := by
  induction n generalizing a with
  | zero => simp
  | succ n ih =>
    have h1 := (m.read a).isLt
    have h2 := ih (a + 1)
    rw [readLE_succ, pow_succ]
    omega

/-- Byte k of a little-endian value is the byte at address a + k (R50). -/
theorem readLE_byte (a n k : Nat) (hk : k < n) : m.readLE a n / 256 ^ k % 256 = (m.read (a + k)).toNat := by
  induction n generalizing a k with
  | zero => omega
  | succ n ih =>
    have h1 := (m.read a).isLt
    cases k with
    | zero => rw [readLE_succ]; simp; omega
    | succ k =>
      rw [readLE_succ, pow_succ', ← Nat.div_div_eq_div_mul, show ((m.read a).toNat + 256 * m.readLE (a + 1) n) / 256 = m.readLE (a + 1) n by omega,
        ih (a + 1) k (by omega), Nat.add_assoc, Nat.add_comm 1 k]

/-- The bytes after a little-endian write: those stored are the value's, the others are as before (R53). -/
theorem read_writeLE (a n v a' : Nat) :
    (m.writeLE a n v).read a' =
      if a ≤ a' ∧ a' < a + n then BitVec.ofNat 8 (v / 256 ^ (a' - a)) else m.read a' := by
  induction n generalizing m a v with
  | zero => simp only [writeLE, Nat.add_zero]; rw [if_neg (by omega)]
  | succ n ih =>
    rw [writeLE, ih]
    by_cases h1 : a' = a
    · subst h1
      simp
    · by_cases h2 : a + 1 ≤ a' ∧ a' < a + 1 + n
      · rw [if_pos h2, if_pos (by omega)]
        obtain ⟨d, rfl⟩ : ∃ d, a' = a + 1 + d := ⟨a' - (a + 1), by omega⟩
        rw [show a + 1 + d - (a + 1) = d by omega, show a + 1 + d - a = d + 1 by omega, pow_succ', Nat.div_div_eq_div_mul]
      · rw [if_neg h2, read_write, if_neg h1, if_neg (by omega)]

/-- A value read back from where it was written (R52, R53). -/
theorem readLE_writeLE (a n v : Nat) : (m.writeLE a n v).readLE a n = v % 256 ^ n := by
  induction n generalizing m a v with
  | zero => simp [Nat.mod_one]
  | succ n ih =>
    rw [readLE_succ, writeLE, ih, read_writeLE, if_neg (by omega), read_write, if_pos rfl, BitVec.toNat_ofNat, show (2 : Nat) ^ 8 = 256 from rfl, pow_succ' 256, Nat.mod_mul]

/-- A little-endian read apart from the bytes written is unchanged. -/
theorem readLE_writeLE_apart (a n v a' n' : Nat) (h : a' + n' ≤ a ∨ a + n ≤ a') :
    (m.writeLE a n v).readLE a' n' = m.readLE a' n' :=
  readLE_congr _ _ _ _ fun k hk => by rw [read_writeLE, if_neg (by omega)]

/-- A little-endian write keeps the canonical form. -/
theorem wf_writeLE (a n v : Nat) (h : m.wf = true) : (m.writeLE a n v).wf = true := by
  induction n generalizing m a v with
  | zero => exact h
  | succ n ih => exact ih _ _ _ (wf_write m a _ h)

/-- A little-endian write inside a memory lists only addresses inside it. -/
theorem inside_writeLE (a n v size : Nat) (ha : a + n ≤ size) (h : m.inside size = true) :
    (m.writeLE a n v).inside size = true := by
  induction n generalizing m a v with
  | zero => exact h
  | succ n ih => exact ih _ _ _ (by omega) (inside_write m a size _ (by omega) h)

/-- Memories in canonical form that read alike are equal. -/
theorem ext_of_wf {m m' : Memory} (h : m.wf = true) (h' : m'.wf = true) (hread : ∀ a, m.read a = m'.read a) : m = m' := by
  have low : ∀ (p : Memory) (a : Nat), (∀ c ∈ p, a < c.1) → p.read a = unlistedByte := by
    intro p a hp
    induction p with
    | nil => rfl
    | cons c p ih =>
      rw [read_cons, if_neg (by have := hp c (by simp); omega), ih fun d hd => hp d (by simp [hd])]
  have aux : ∀ p q : Memory, p.wf = true → q.wf = true → (∀ a, p.read a = q.read a) → ∀ c, p.head? = some c → q.head? = some c := by
    intro p q hp hq hr c hc
    obtain ⟨p, rfl⟩ : ∃ p', p = c :: p' := by
      cases p with
      | nil => simp at hc
      | cons c' p => exact ⟨p, by simp at hc; rw [hc]⟩
    obtain ⟨hp1, hp2⟩ := (wf_iff _).mp hp
    obtain ⟨hq1, hq2⟩ := (wf_iff _).mp hq
    have hp2' := List.pairwise_cons.mp hp2
    have hrc := hr c.1
    rw [read_cons, if_pos rfl] at hrc
    cases q with
    | nil => exact absurd hrc (hp1 c (by simp))
    | cons d q =>
      have hq2' := List.pairwise_cons.mp hq2
      have hrd := hr d.1
      rw [read_cons d, if_pos rfl] at hrd
      rcases lt_trichotomy c.1 d.1 with hlt | heq | hgt
      · rw [low _ _ (by intro e he; rcases List.mem_cons.mp he with rfl | he; exacts [hlt, lt_trans hlt (hq2'.1 e he)])] at hrc
        exact absurd hrc (hp1 c (by simp))
      · rw [read_cons, if_pos heq.symm] at hrc
        simp [Prod.ext heq hrc]
      · rw [low (c :: p) _ (by intro e he; rcases List.mem_cons.mp he with rfl | he; exacts [hgt, lt_trans hgt (hp2'.1 e he)])] at hrd
        exact absurd hrd.symm (hq1 d (by simp))
  induction m generalizing m' with
  | nil =>
    cases m' with
    | nil => rfl
    | cons d q => exact absurd (aux (d :: q) [] h' h (fun a => (hread a).symm) d rfl) (by simp)
  | cons c p ih =>
    have hh := aux (c :: p) m' h h' hread c rfl
    cases m' with
    | nil => simp at hh
    | cons d q =>
      obtain rfl : d = c := by simpa using hh
      obtain ⟨hp1, hp2⟩ := (wf_iff _).mp h
      obtain ⟨hq1, hq2⟩ := (wf_iff _).mp h'
      have hp2' := List.pairwise_cons.mp hp2
      have hq2' := List.pairwise_cons.mp hq2
      congr 1
      refine ih ((wf_iff _).mpr ⟨fun e he => hp1 e (by simp [he]), hp2'.2⟩) ((wf_iff _).mpr ⟨fun e he => hq1 e (by simp [he]), hq2'.2⟩) fun a => ?_
      by_cases hda : d.1 = a
      · rw [low p a (fun e he => hda ▸ hp2'.1 e he), low q a (fun e he => hda ▸ hq2'.1 e he)]
      · have := hread a
        rwa [read_cons, read_cons, if_neg hda, if_neg hda] at this

end Memory

end Sys2Proof.Machine
end

