-- ==== Sys2Proof/Laws/State.lean ====
section
/-! SUPPORT. The fields of a state after each update: one lemma per field per update, so that no later proof unfolds a record
update. -/

namespace Sys2Proof.Machine

variable (s : State)

@[simp] theorem State.setX_cfg (r : XReg) (a : Word) : (s.setX r a).cfg = s.cfg := rfl
@[simp] theorem State.setX_v (r : XReg) (a : Word) : (s.setX r a).v = s.v := rfl
@[simp] theorem State.setX_rk (r : XReg) (a : Word) : (s.setX r a).rk = s.rk := rfl
@[simp] theorem State.setX_c (r : XReg) (a : Word) : (s.setX r a).c = s.c := rfl
@[simp] theorem State.setX_rdy (r : XReg) (a : Word) : (s.setX r a).rdy = s.rdy := rfl
@[simp] theorem State.setX_bsel (r : XReg) (a : Word) : (s.setX r a).bsel = s.bsel := rfl
@[simp] theorem State.setX_run (r : XReg) (a : Word) : (s.setX r a).run = s.run := rfl
@[simp] theorem State.setX_pc (r : XReg) (a : Word) : (s.setX r a).pc = s.pc := rfl
@[simp] theorem State.setX_cause (r : XReg) (a : Word) : (s.setX r a).cause = s.cause := rfl
@[simp] theorem State.setX_epc (r : XReg) (a : Word) : (s.setX r a).epc = s.epc := rfl
@[simp] theorem State.setX_finfo (r : XReg) (a : Word) : (s.setX r a).finfo = s.finfo := rfl
@[simp] theorem State.setX_imem (r : XReg) (a : Word) : (s.setX r a).imem = s.imem := rfl
@[simp] theorem State.setX_dmem (r : XReg) (a : Word) : (s.setX r a).dmem = s.dmem := rfl
@[simp] theorem State.setX_getV (r : XReg) (a : Word) (q' : VReg) : (s.setX r a).getV q' = s.getV q' := rfl

@[simp] theorem State.setV_cfg (r : VReg) (b : Block) : (s.setV r b).cfg = s.cfg := rfl
@[simp] theorem State.setV_x (r : VReg) (b : Block) : (s.setV r b).x = s.x := rfl
@[simp] theorem State.setV_rk (r : VReg) (b : Block) : (s.setV r b).rk = s.rk := rfl
@[simp] theorem State.setV_c (r : VReg) (b : Block) : (s.setV r b).c = s.c := rfl
@[simp] theorem State.setV_rdy (r : VReg) (b : Block) : (s.setV r b).rdy = s.rdy := rfl
@[simp] theorem State.setV_bsel (r : VReg) (b : Block) : (s.setV r b).bsel = s.bsel := rfl
@[simp] theorem State.setV_run (r : VReg) (b : Block) : (s.setV r b).run = s.run := rfl
@[simp] theorem State.setV_pc (r : VReg) (b : Block) : (s.setV r b).pc = s.pc := rfl
@[simp] theorem State.setV_cause (r : VReg) (b : Block) : (s.setV r b).cause = s.cause := rfl
@[simp] theorem State.setV_epc (r : VReg) (b : Block) : (s.setV r b).epc = s.epc := rfl
@[simp] theorem State.setV_finfo (r : VReg) (b : Block) : (s.setV r b).finfo = s.finfo := rfl
@[simp] theorem State.setV_imem (r : VReg) (b : Block) : (s.setV r b).imem = s.imem := rfl
@[simp] theorem State.setV_dmem (r : VReg) (b : Block) : (s.setV r b).dmem = s.dmem := rfl
@[simp] theorem State.setV_getX (r : VReg) (b : Block) (q' : XReg) : (s.setV r b).getX q' = s.getX q' := rfl

@[simp] theorem State.setC_cfg (b : Bool) : (s.setC b).cfg = s.cfg := rfl
@[simp] theorem State.setC_x (b : Bool) : (s.setC b).x = s.x := rfl
@[simp] theorem State.setC_v (b : Bool) : (s.setC b).v = s.v := rfl
@[simp] theorem State.setC_rk (b : Bool) : (s.setC b).rk = s.rk := rfl
@[simp] theorem State.setC_c (b : Bool) : (s.setC b).c = b := rfl
@[simp] theorem State.setC_rdy (b : Bool) : (s.setC b).rdy = s.rdy := rfl
@[simp] theorem State.setC_bsel (b : Bool) : (s.setC b).bsel = s.bsel := rfl
@[simp] theorem State.setC_run (b : Bool) : (s.setC b).run = s.run := rfl
@[simp] theorem State.setC_pc (b : Bool) : (s.setC b).pc = s.pc := rfl
@[simp] theorem State.setC_cause (b : Bool) : (s.setC b).cause = s.cause := rfl
@[simp] theorem State.setC_epc (b : Bool) : (s.setC b).epc = s.epc := rfl
@[simp] theorem State.setC_finfo (b : Bool) : (s.setC b).finfo = s.finfo := rfl
@[simp] theorem State.setC_imem (b : Bool) : (s.setC b).imem = s.imem := rfl
@[simp] theorem State.setC_dmem (b : Bool) : (s.setC b).dmem = s.dmem := rfl
@[simp] theorem State.setC_getX (b : Bool) (q' : XReg) : (s.setC b).getX q' = s.getX q' := rfl
@[simp] theorem State.setC_getV (b : Bool) (q' : VReg) : (s.setC b).getV q' = s.getV q' := rfl

@[simp] theorem State.setPc_cfg (t : CodeAddr) : (s.setPc t).cfg = s.cfg := rfl
@[simp] theorem State.setPc_x (t : CodeAddr) : (s.setPc t).x = s.x := rfl
@[simp] theorem State.setPc_v (t : CodeAddr) : (s.setPc t).v = s.v := rfl
@[simp] theorem State.setPc_rk (t : CodeAddr) : (s.setPc t).rk = s.rk := rfl
@[simp] theorem State.setPc_c (t : CodeAddr) : (s.setPc t).c = s.c := rfl
@[simp] theorem State.setPc_rdy (t : CodeAddr) : (s.setPc t).rdy = s.rdy := rfl
@[simp] theorem State.setPc_bsel (t : CodeAddr) : (s.setPc t).bsel = s.bsel := rfl
@[simp] theorem State.setPc_run (t : CodeAddr) : (s.setPc t).run = s.run := rfl
@[simp] theorem State.setPc_pc (t : CodeAddr) : (s.setPc t).pc = t := rfl
@[simp] theorem State.setPc_cause (t : CodeAddr) : (s.setPc t).cause = s.cause := rfl
@[simp] theorem State.setPc_epc (t : CodeAddr) : (s.setPc t).epc = s.epc := rfl
@[simp] theorem State.setPc_finfo (t : CodeAddr) : (s.setPc t).finfo = s.finfo := rfl
@[simp] theorem State.setPc_imem (t : CodeAddr) : (s.setPc t).imem = s.imem := rfl
@[simp] theorem State.setPc_dmem (t : CodeAddr) : (s.setPc t).dmem = s.dmem := rfl
@[simp] theorem State.setPc_getX (t : CodeAddr) (q' : XReg) : (s.setPc t).getX q' = s.getX q' := rfl
@[simp] theorem State.setPc_getV (t : CodeAddr) (q' : VReg) : (s.setPc t).getV q' = s.getV q' := rfl

@[simp] theorem State.setDmem_cfg (m : Memory) : (s.setDmem m).cfg = s.cfg := rfl
@[simp] theorem State.setDmem_x (m : Memory) : (s.setDmem m).x = s.x := rfl
@[simp] theorem State.setDmem_v (m : Memory) : (s.setDmem m).v = s.v := rfl
@[simp] theorem State.setDmem_rk (m : Memory) : (s.setDmem m).rk = s.rk := rfl
@[simp] theorem State.setDmem_c (m : Memory) : (s.setDmem m).c = s.c := rfl
@[simp] theorem State.setDmem_rdy (m : Memory) : (s.setDmem m).rdy = s.rdy := rfl
@[simp] theorem State.setDmem_bsel (m : Memory) : (s.setDmem m).bsel = s.bsel := rfl
@[simp] theorem State.setDmem_run (m : Memory) : (s.setDmem m).run = s.run := rfl
@[simp] theorem State.setDmem_pc (m : Memory) : (s.setDmem m).pc = s.pc := rfl
@[simp] theorem State.setDmem_cause (m : Memory) : (s.setDmem m).cause = s.cause := rfl
@[simp] theorem State.setDmem_epc (m : Memory) : (s.setDmem m).epc = s.epc := rfl
@[simp] theorem State.setDmem_finfo (m : Memory) : (s.setDmem m).finfo = s.finfo := rfl
@[simp] theorem State.setDmem_imem (m : Memory) : (s.setDmem m).imem = s.imem := rfl
@[simp] theorem State.setDmem_dmem (m : Memory) : (s.setDmem m).dmem = m := rfl
@[simp] theorem State.setDmem_getX (m : Memory) (q' : XReg) : (s.setDmem m).getX q' = s.getX q' := rfl
@[simp] theorem State.setDmem_getV (m : Memory) (q' : VReg) : (s.setDmem m).getV q' = s.getV q' := rfl

@[simp] theorem State.setBsel_cfg (b : Bool) : (s.setBsel b).cfg = s.cfg := rfl
@[simp] theorem State.setBsel_x (b : Bool) : (s.setBsel b).x = s.x := rfl
@[simp] theorem State.setBsel_v (b : Bool) : (s.setBsel b).v = s.v := rfl
@[simp] theorem State.setBsel_rk (b : Bool) : (s.setBsel b).rk = s.rk := rfl
@[simp] theorem State.setBsel_c (b : Bool) : (s.setBsel b).c = s.c := rfl
@[simp] theorem State.setBsel_rdy (b : Bool) : (s.setBsel b).rdy = s.rdy := rfl
@[simp] theorem State.setBsel_bsel (b : Bool) : (s.setBsel b).bsel = b := rfl
@[simp] theorem State.setBsel_run (b : Bool) : (s.setBsel b).run = s.run := rfl
@[simp] theorem State.setBsel_pc (b : Bool) : (s.setBsel b).pc = s.pc := rfl
@[simp] theorem State.setBsel_cause (b : Bool) : (s.setBsel b).cause = s.cause := rfl
@[simp] theorem State.setBsel_epc (b : Bool) : (s.setBsel b).epc = s.epc := rfl
@[simp] theorem State.setBsel_finfo (b : Bool) : (s.setBsel b).finfo = s.finfo := rfl
@[simp] theorem State.setBsel_imem (b : Bool) : (s.setBsel b).imem = s.imem := rfl
@[simp] theorem State.setBsel_dmem (b : Bool) : (s.setBsel b).dmem = s.dmem := rfl
@[simp] theorem State.setBsel_getX (b : Bool) (q' : XReg) : (s.setBsel b).getX q' = s.getX q' := rfl
@[simp] theorem State.setBsel_getV (b : Bool) (q' : VReg) : (s.setBsel b).getV q' = s.getV q' := rfl

@[simp] theorem State.setRun_cfg (q : RunState) : (s.setRun q).cfg = s.cfg := rfl
@[simp] theorem State.setRun_x (q : RunState) : (s.setRun q).x = s.x := rfl
@[simp] theorem State.setRun_v (q : RunState) : (s.setRun q).v = s.v := rfl
@[simp] theorem State.setRun_rk (q : RunState) : (s.setRun q).rk = s.rk := rfl
@[simp] theorem State.setRun_c (q : RunState) : (s.setRun q).c = s.c := rfl
@[simp] theorem State.setRun_rdy (q : RunState) : (s.setRun q).rdy = s.rdy := rfl
@[simp] theorem State.setRun_bsel (q : RunState) : (s.setRun q).bsel = s.bsel := rfl
@[simp] theorem State.setRun_run (q : RunState) : (s.setRun q).run = q := rfl
@[simp] theorem State.setRun_pc (q : RunState) : (s.setRun q).pc = s.pc := rfl
@[simp] theorem State.setRun_cause (q : RunState) : (s.setRun q).cause = s.cause := rfl
@[simp] theorem State.setRun_epc (q : RunState) : (s.setRun q).epc = s.epc := rfl
@[simp] theorem State.setRun_finfo (q : RunState) : (s.setRun q).finfo = s.finfo := rfl
@[simp] theorem State.setRun_imem (q : RunState) : (s.setRun q).imem = s.imem := rfl
@[simp] theorem State.setRun_dmem (q : RunState) : (s.setRun q).dmem = s.dmem := rfl
@[simp] theorem State.setRun_getX (q : RunState) (q' : XReg) : (s.setRun q).getX q' = s.getX q' := rfl
@[simp] theorem State.setRun_getV (q : RunState) (q' : VReg) : (s.setRun q).getV q' = s.getV q' := rfl

@[simp] theorem State.setKeys_cfg (ks : Vector Block 11) : (s.setKeys ks).cfg = s.cfg := rfl
@[simp] theorem State.setKeys_x (ks : Vector Block 11) : (s.setKeys ks).x = s.x := rfl
@[simp] theorem State.setKeys_v (ks : Vector Block 11) : (s.setKeys ks).v = s.v := rfl
@[simp] theorem State.setKeys_rk (ks : Vector Block 11) : (s.setKeys ks).rk = ks := rfl
@[simp] theorem State.setKeys_c (ks : Vector Block 11) : (s.setKeys ks).c = s.c := rfl
@[simp] theorem State.setKeys_rdy (ks : Vector Block 11) : (s.setKeys ks).rdy = true := rfl
@[simp] theorem State.setKeys_bsel (ks : Vector Block 11) : (s.setKeys ks).bsel = s.bsel := rfl
@[simp] theorem State.setKeys_run (ks : Vector Block 11) : (s.setKeys ks).run = s.run := rfl
@[simp] theorem State.setKeys_pc (ks : Vector Block 11) : (s.setKeys ks).pc = s.pc := rfl
@[simp] theorem State.setKeys_cause (ks : Vector Block 11) : (s.setKeys ks).cause = s.cause := rfl
@[simp] theorem State.setKeys_epc (ks : Vector Block 11) : (s.setKeys ks).epc = s.epc := rfl
@[simp] theorem State.setKeys_finfo (ks : Vector Block 11) : (s.setKeys ks).finfo = s.finfo := rfl
@[simp] theorem State.setKeys_imem (ks : Vector Block 11) : (s.setKeys ks).imem = s.imem := rfl
@[simp] theorem State.setKeys_dmem (ks : Vector Block 11) : (s.setKeys ks).dmem = s.dmem := rfl
@[simp] theorem State.setKeys_getX (ks : Vector Block 11) (q' : XReg) : (s.setKeys ks).getX q' = s.getX q' := rfl
@[simp] theorem State.setKeys_getV (ks : Vector Block 11) (q' : VReg) : (s.setKeys ks).getV q' = s.getV q' := rfl

@[simp] theorem State.advance_cfg : (s.advance).cfg = s.cfg := rfl
@[simp] theorem State.advance_x : (s.advance).x = s.x := rfl
@[simp] theorem State.advance_v : (s.advance).v = s.v := rfl
@[simp] theorem State.advance_rk : (s.advance).rk = s.rk := rfl
@[simp] theorem State.advance_c : (s.advance).c = s.c := rfl
@[simp] theorem State.advance_rdy : (s.advance).rdy = s.rdy := rfl
@[simp] theorem State.advance_bsel : (s.advance).bsel = s.bsel := rfl
@[simp] theorem State.advance_run : (s.advance).run = s.run := rfl
@[simp] theorem State.advance_pc : (s.advance).pc = s.pc + 4 := rfl
@[simp] theorem State.advance_cause : (s.advance).cause = s.cause := rfl
@[simp] theorem State.advance_epc : (s.advance).epc = s.epc := rfl
@[simp] theorem State.advance_finfo : (s.advance).finfo = s.finfo := rfl
@[simp] theorem State.advance_imem : (s.advance).imem = s.imem := rfl
@[simp] theorem State.advance_dmem : (s.advance).dmem = s.dmem := rfl
@[simp] theorem State.advance_getX (q' : XReg) : (s.advance).getX q' = s.getX q' := rfl
@[simp] theorem State.advance_getV (q' : VReg) : (s.advance).getV q' = s.getV q' := rfl

@[simp] theorem takeFault_cfg (f : Cause) (i : Word) : (takeFault f i s).cfg = s.cfg := rfl
@[simp] theorem takeFault_x (f : Cause) (i : Word) : (takeFault f i s).x = s.x := rfl
@[simp] theorem takeFault_v (f : Cause) (i : Word) : (takeFault f i s).v = s.v := rfl
@[simp] theorem takeFault_rk (f : Cause) (i : Word) : (takeFault f i s).rk = s.rk := rfl
@[simp] theorem takeFault_c (f : Cause) (i : Word) : (takeFault f i s).c = s.c := rfl
@[simp] theorem takeFault_rdy (f : Cause) (i : Word) : (takeFault f i s).rdy = s.rdy := rfl
@[simp] theorem takeFault_bsel (f : Cause) (i : Word) : (takeFault f i s).bsel = s.bsel := rfl
@[simp] theorem takeFault_run (f : Cause) (i : Word) : (takeFault f i s).run = .faulted := rfl
@[simp] theorem takeFault_pc (f : Cause) (i : Word) : (takeFault f i s).pc = s.pc := rfl
@[simp] theorem takeFault_cause (f : Cause) (i : Word) : (takeFault f i s).cause = f := rfl
@[simp] theorem takeFault_epc (f : Cause) (i : Word) : (takeFault f i s).epc = s.pc := rfl
@[simp] theorem takeFault_finfo (f : Cause) (i : Word) : (takeFault f i s).finfo = i := rfl
@[simp] theorem takeFault_imem (f : Cause) (i : Word) : (takeFault f i s).imem = s.imem := rfl
@[simp] theorem takeFault_dmem (f : Cause) (i : Word) : (takeFault f i s).dmem = s.dmem := rfl
@[simp] theorem takeFault_getX (f : Cause) (i : Word) (r : XReg) : (takeFault f i s).getX r = s.getX r := rfl
@[simp] theorem takeFault_getV (f : Cause) (i : Word) (r : VReg) : (takeFault f i s).getV r = s.getV r := rfl

/-- A write to an X register is seen at that register and at no other (10_state.md R20: none is hard-wired, none an alias). -/
@[simp] theorem State.setX_getX (d r : XReg) (a : Word) : (s.setX d a).getX r = if r = d then a else s.getX r := by
  simp only [State.getX, State.setX, Vector.get_eq_getElem, Vector.getElem_set, Fin.ext_iff, eq_comm (a := d.val)]

/-- A write to a V register is seen at that register and at no other (R24). -/
@[simp] theorem State.setV_getV (d r : VReg) (b : Block) : (s.setV d b).getV r = if r = d then b else s.getV r := by
  simp only [State.getV, State.setV, Vector.get_eq_getElem, Vector.getElem_set, Fin.ext_iff, eq_comm (a := d.val)]

/-- Two states are equal when all their parts are; the register files register by register. -/
theorem State.ext_parts {s t : State} (hcfg : t.cfg = s.cfg) (hx : ∀ r, t.getX r = s.getX r) (hv : ∀ r, t.getV r = s.getV r)
    (hrk : t.rk = s.rk) (hc : t.c = s.c) (hrdy : t.rdy = s.rdy) (hbsel : t.bsel = s.bsel) (hrun : t.run = s.run)
    (hpc : t.pc = s.pc) (hcause : t.cause = s.cause) (hepc : t.epc = s.epc) (hfinfo : t.finfo = s.finfo)
    (himem : t.imem = s.imem) (hdmem : t.dmem = s.dmem) : t = s := by
  have hx' : t.x = s.x := Vector.ext fun i hi => by simpa [State.getX, Vector.get_eq_getElem] using hx ⟨i, hi⟩
  have hv' : t.v = s.v := Vector.ext fun i hi => by simpa [State.getV, Vector.get_eq_getElem] using hv ⟨i, hi⟩
  cases s
  cases t
  simp_all

end Sys2Proof.Machine
end

