-- ==== Sys2Proof/Laws/Ops.lean ====
section
/-! SUPPORT. One lemma for each shared operation that says once everything it can do. -/

namespace Sys2Proof.Machine

variable {s t : State} {k : Word → Result}

/-! Ends of an instruction. -/

/-- An instruction that completes (10_state.md R36). -/
theorem finish_eq (s : State) : finish s = .next s.advance := rfl

theorem finish_next_iff : finish s = .next t ↔ t = s.advance := by
  rw [finish_eq]
  constructor
  · intro h; cases h; rfl
  · rintro rfl; rfl

/-- An instruction that raises a fault (60_exceptions.md R231). -/
theorem raise_eq (f : Cause) (info : Word) (s : State) : raise f info s = .next (takeFault f info s) := rfl

theorem raise_next_iff {f : Cause} {info : Word} : raise f info s = .next t ↔ t = takeFault f info s := by
  rw [raise_eq]
  constructor
  · intro h; cases h; rfl
  · rintro rfl; rfl

theorem raiseWord_eq (f : Cause) (i : Instr) (s : State) :
    raiseWord f i s = .next (takeFault f ((encode i).setWidth 128) s) := rfl

theorem raiseWord_next_iff {f : Cause} {i : Instr} :
    raiseWord f i s = .next t ↔ t = takeFault f ((encode i).setWidth 128) s := raise_next_iff

theorem raiseIllegal_eq (i : Instr) (s : State) :
    raiseIllegal i s = .next (takeFault .illegalInstruction ((encode i).setWidth 128) s) := rfl

/-- A control transfer (45_move_memory_control.md R209). -/
theorem branchIf_eq (b : Bool) (off : BitVec 16) (s : State) :
    branchIf b off s = .next (s.setPc (if b then branchTarget off s else s.pc + 4)) := by
  cases b <;> rfl

/-- The branch target as a number (R209). -/
theorem branchTarget_toNat (off : BitVec 16) (s : State) :
    ((branchTarget off s).toNat : Int) = ((s.pc.toNat : Int) + 4 * off.toInt) % 2 ^ 32 := by
  rw [branchTarget, BitVec.toNat_ofInt]
  omega

/-! Data memory. -/

theorem widthBits_eq (w : Width) : widthBits w = 8 * widthBytes w := by cases w <;> rfl

theorem widthBytes_pos (w : Width) : 0 < widthBytes w := by cases w <;> decide

theorem widthBytes_le (w : Width) : widthBytes w ≤ 16 := by cases w <;> decide

theorem widthBytes_dvd (w : Width) : widthBytes w ∣ 16 := by cases w <;> decide

/-- An access is allowed exactly when it is aligned and all its bytes exist (20_memory.md R52). -/
theorem accessCheck_none {addr : Word} {n : Nat} :
    accessCheck s addr n = none ↔ addr.toNat % n = 0 ∧ addr.toNat + n ≤ s.cfg.dmemBytes := by
  unfold accessCheck
  split
  · simp_all
  · split
    · simp only [reduceCtorEq, false_iff]; omega
    · simp only [true_iff]; omega

/-- A refused access is misaligned, or aligned and out of range (20_memory.md R52, R55). -/
theorem accessCheck_some {addr : Word} {n : Nat} {f : Cause} :
    accessCheck s addr n = some f ↔
      (addr.toNat % n ≠ 0 ∧ f = .misalignedAccess) ∨
      (addr.toNat % n = 0 ∧ s.cfg.dmemBytes < addr.toNat + n ∧ f = .accessFault) := by
  unfold accessCheck
  split
  · simp_all [eq_comm]
  · split
    · simp_all [eq_comm]
    · simp only [reduceCtorEq, false_iff]; omega

/-- `MemRead` of an aligned address in range. -/
theorem memRead_ok {addr : Word} {n : Nat} (ha : addr.toNat % n = 0) (hr : addr.toNat + n ≤ s.cfg.dmemBytes) :
    memRead s addr n k = k (BitVec.ofNat 128 (s.dmem.readLE addr.toNat n)) := by
  rw [memRead, accessCheck_none.mpr ⟨ha, hr⟩]

/-- `MemWrite` of an aligned address in range. -/
theorem memWrite_ok {addr : Word} {n v : Nat} {k : State → Result} (ha : addr.toNat % n = 0)
    (hr : addr.toNat + n ≤ s.cfg.dmemBytes) :
    memWrite s addr n v k = k (s.setDmem (s.dmem.writeLE addr.toNat n v)) := by
  rw [memWrite, accessCheck_none.mpr ⟨ha, hr⟩]

/-- `MemRead` and `MemWrite` that fault. -/
theorem memRead_fault {addr : Word} {n : Nat} {f : Cause} (h : accessCheck s addr n = some f) :
    memRead s addr n k = raise f addr s := by
  rw [memRead, h]

theorem memWrite_fault {addr : Word} {n v : Nat} {k : State → Result} {f : Cause} (h : accessCheck s addr n = some f) :
    memWrite s addr n v k = raise f addr s := by
  rw [memWrite, h]

/-- Everything `MemRead` can do. -/
theorem memRead_next {addr : Word} {n : Nat} (h : memRead s addr n k = .next t) :
    (addr.toNat % n = 0 ∧ addr.toNat + n ≤ s.cfg.dmemBytes ∧
      k (BitVec.ofNat 128 (s.dmem.readLE addr.toNat n)) = .next t) ∨
    ∃ f, accessCheck s addr n = some f ∧ t = takeFault f addr s := by
  unfold memRead at h
  split at h
  · next f hf => exact .inr ⟨f, hf, raise_next_iff.mp h⟩
  · next hf => exact .inl ⟨(accessCheck_none.mp hf).1, (accessCheck_none.mp hf).2, h⟩

/-- Everything `MemWrite` can do. -/
theorem memWrite_next {addr : Word} {n v : Nat} {k : State → Result} (h : memWrite s addr n v k = .next t) :
    (addr.toNat % n = 0 ∧ addr.toNat + n ≤ s.cfg.dmemBytes ∧
      k (s.setDmem (s.dmem.writeLE addr.toNat n v)) = .next t) ∨
    ∃ f, accessCheck s addr n = some f ∧ t = takeFault f addr s := by
  unfold memWrite at h
  split at h
  · next f hf => exact .inr ⟨f, hf, raise_next_iff.mp h⟩
  · next hf => exact .inl ⟨(accessCheck_none.mp hf).1, (accessCheck_none.mp hf).2, h⟩

/-- The bytes of a value read (20_memory.md R50), and zero above them. -/
theorem byteOf_readLE (m : Memory) (a n k : Nat) (hn : n ≤ 16) :
    (BitVec.ofNat 128 (m.readLE a n)).extractLsb' (8 * k) 8 = if k < n then m.read (a + k) else 0 := by
  have hlt := m.readLE_lt a n
  have hbound : m.readLE a n < 2 ^ 128 :=
    lt_of_lt_of_le hlt (by rw [show (2 : Nat) ^ 128 = 256 ^ 16 by norm_num]; exact Nat.pow_le_pow_right (by decide) hn)
  apply BitVec.eq_of_toNat_eq
  rw [BitVec.extractLsb'_toNat, Nat.shiftRight_eq_div_pow, BitVec.toNat_ofNat, Nat.mod_eq_of_lt hbound, pow_mul,
    show (2 : Nat) ^ 8 = 256 from rfl]
  split
  · next h => exact m.readLE_byte a n k h
  · next h =>
    rw [Nat.div_eq_of_lt (lt_of_lt_of_le hlt (Nat.pow_le_pow_right (by decide) (by omega)))]
    rfl

/-! The widening arithmetic unit. -/

/-- `carry_add` is exact (40_widening_arithmetic.md R103). -/
theorem carryAdd_exact (w : Width) {a b : Nat} (ci : Bool) (ha : a < 2 ^ widthBits w) (hb : b < 2 ^ widthBits w) :
    (carryAdd w a b ci).1 < 2 ^ widthBits w ∧
    (carryAdd w a b ci).2.toNat * 2 ^ widthBits w + (carryAdd w a b ci).1 = a + b + ci.toNat := by
  have hc : ci.toNat ≤ 1 := by cases ci <;> decide
  have hM : 2 ≤ 2 ^ widthBits w := by cases w <;> decide
  simp only [carryAdd]
  generalize 2 ^ widthBits w = M at *
  generalize ci.toNat = c at *
  refine ⟨Nat.mod_lt _ (by omega), ?_⟩
  by_cases h1 : M ≤ a + b
  · have e1 : (a + b) % M = a + b - M := by rw [Nat.mod_eq_sub_mod h1, Nat.mod_eq_of_lt (by omega)]
    have e2 : (a + b - M + c) % M = a + b - M + c := Nat.mod_eq_of_lt (by omega)
    rw [e1, e2]
    simp only [h1, decide_true, Bool.true_or, Bool.toNat_true]
    omega
  · have e1 : (a + b) % M = a + b := Nat.mod_eq_of_lt (by omega)
    rw [e1]
    by_cases h2 : M ≤ a + b + c
    · have e2 : (a + b + c) % M = a + b + c - M := by rw [Nat.mod_eq_sub_mod h2, Nat.mod_eq_of_lt (by omega)]
      rw [e2]
      simp only [h2, decide_true, Bool.or_true, Bool.toNat_true]
      omega
    · rw [Nat.mod_eq_of_lt (by omega)]
      simp only [h1, h2, decide_false, Bool.or_false, Bool.toNat_false]
      omega

/-- `borrow_sub` is exact (R104). -/
theorem borrowSub_exact (w : Width) {a b : Nat} (bi : Bool) (ha : a < 2 ^ widthBits w) (hb : b < 2 ^ widthBits w) :
    (borrowSub w a b bi).1 < 2 ^ widthBits w ∧
    ((borrowSub w a b bi).1 : Int) - ((borrowSub w a b bi).2.toNat : Int) * 2 ^ widthBits w = (a : Int) - b - bi.toNat := by
  have hc : bi.toNat ≤ 1 := by cases bi <;> decide
  have hM : 2 ≤ 2 ^ widthBits w := by cases w <;> decide
  have hcast : (2 : Int) ^ widthBits w = ((2 ^ widthBits w : Nat) : Int) := by push_cast; rfl
  simp only [borrowSub, hcast]
  generalize 2 ^ widthBits w = M at *
  generalize bi.toNat = c at *
  by_cases h1 : (a : Int) - b < 0
  · have e1 : ((a : Int) - b) % (M : Int) = (a : Int) - b + M := by
      rw [← Int.add_emod_right, Int.emod_eq_of_lt (by omega) (by omega)]
    have e2 : ((a : Int) - b + M - c) % (M : Int) = (a : Int) - b + M - c := Int.emod_eq_of_lt (by omega) (by omega)
    rw [e1, e2]
    simp only [h1, decide_true, Bool.true_or, Bool.toNat_true]
    omega
  · have e1 : ((a : Int) - b) % (M : Int) = (a : Int) - b := Int.emod_eq_of_lt (by omega) (by omega)
    rw [e1]
    by_cases h2 : (a : Int) - b - c < 0
    · have e2 : ((a : Int) - b - c) % (M : Int) = (a : Int) - b - c + M := by
        rw [← Int.add_emod_right, Int.emod_eq_of_lt (by omega) (by omega)]
      rw [e2]
      simp only [h2, decide_true, Bool.or_true, Bool.toNat_true]
      omega
    · have e2 : ((a : Int) - b - c) % (M : Int) = (a : Int) - b - c := Int.emod_eq_of_lt (by omega) (by omega)
      rw [e2]
      simp only [h1, h2, decide_false, Bool.or_false, Bool.toNat_false]
      omega

/-- The two words of a value below 2^(2W) hold it (R105, R109). -/
theorem splitWide_exact (w : Width) {p : Nat} (hp : p < 2 ^ widthBits w * 2 ^ widthBits w) :
    (splitWide w p).1 < 2 ^ widthBits w ∧ (splitWide w p).2 < 2 ^ widthBits w ∧
    (splitWide w p).2 * 2 ^ widthBits w + (splitWide w p).1 = p := by
  have hM : 0 < 2 ^ widthBits w := Nat.two_pow_pos _
  refine ⟨Nat.mod_lt _ hM, Nat.div_lt_of_lt_mul hp, ?_⟩
  simp only [splitWide]
  have := Nat.div_add_mod p (2 ^ widthBits w)
  rw [Nat.mul_comm] at this
  exact this

/-- The product of two words plus two words fits in 2W bits (R106). -/
theorem wide_lt {M a b c : Nat} (ha : a < M) (hb : b < M) (hc : c < M) : a * b + c < M * M := by
  obtain ⟨n, rfl⟩ : ∃ n, M = n + 1 := ⟨M - 1, by omega⟩
  have := Nat.mul_le_mul (show a ≤ n by omega) (show b ≤ n by omega)
  nlinarith

theorem readW_lt (w : Width) (r : XReg) (s : State) : readW w r s < 2 ^ widthBits w := Nat.mod_lt _ (Nat.two_pow_pos _)

/-- A value of a width fits in an X register. -/
theorem width_fits (w : Width) : 2 ^ widthBits w ≤ 2 ^ 128 := by cases w <;> decide

@[simp] theorem writeW_getX (d r : XReg) (v : Nat) (s : State) :
    (writeW d v s).getX r = if r = d then BitVec.ofNat 128 v else s.getX r := State.setX_getX s d r _

/-- `WMUL` and `CMUL` with destinations that differ. -/
theorem writeWide_ok (w : Width) (i : Instr) {xl xh : XReg} (h : xl ≠ xh) (p : Nat) (s : State) :
    writeWide w i xl xh p s = .next (writeW xh (splitWide w p).2 (writeW xl (splitWide w p).1 s)).advance := by
  rw [writeWide, if_neg h, finish_eq]

/-! Backends. -/

theorem withX86_on {i : Instr} {r : Result} (h : s.cfg.hasX86Aes = true) : withX86 i s r = r := by rw [withX86, if_pos h]

theorem withX86_off {i : Instr} {r : Result} (h : s.cfg.hasX86Aes = false) :
    withX86 i s r = raiseWord .unsupportedHardware i s := by rw [withX86, h]; rfl

theorem withArm_on {i : Instr} {r : Result} (h : s.cfg.hasArmAes = true) : withArm i s r = r := by rw [withArm, if_pos h]

theorem withArm_off {i : Instr} {r : Result} (h : s.cfg.hasArmAes = false) :
    withArm i s r = raiseWord .unsupportedHardware i s := by rw [withArm, h]; rfl

/-- An engine has a path exactly when it has a backend (44_aes_cipher_ops.md R170). -/
theorem pathOf_isSome (s : State) : (pathOf s).isSome = (s.cfg.hasX86Aes || s.cfg.hasArmAes) := by
  unfold pathOf
  cases s.cfg.hasX86Aes <;> cases s.cfg.hasArmAes <;> cases s.bsel <;> rfl

theorem pathOf_some (h : s.cfg.hasX86Aes = true ∨ s.cfg.hasArmAes = true) : ∃ p, pathOf s = some p := by
  have := pathOf_isSome s
  rw [← Option.isSome_iff_exists, this]
  simpa using h

theorem pathOf_none (hx : s.cfg.hasX86Aes = false) (ha : s.cfg.hasArmAes = false) : pathOf s = none := by
  rw [← Option.not_isSome_iff_eq_none, pathOf_isSome, hx, ha]
  decide

theorem withPath_some {i : Instr} {k : Path → Result} {p : Path} (h : pathOf s = some p) : withPath i s k = k p := by
  rw [withPath, h]

theorem withPath_none {i : Instr} {k : Path → Result} (h : pathOf s = none) :
    withPath i s k = raiseWord .unsupportedHardware i s := by rw [withPath, h]

theorem withCipher_ready {i : Instr} {k : Path → Result} {p : Path} (h : pathOf s = some p) (hr : s.rdy = true) :
    withCipher i s k = k p := by rw [withCipher, withPath_some h, if_pos hr]

theorem withCipher_notReady {i : Instr} {k : Path → Result} {p : Path} (h : pathOf s = some p) (hr : s.rdy = false) :
    withCipher i s k = raiseWord .cipherNotReady i s := by rw [withCipher, withPath_some h, hr]; rfl

theorem withCipher_none {i : Instr} {k : Path → Result} (h : pathOf s = none) :
    withCipher i s k = raiseWord .unsupportedHardware i s := by rw [withCipher, withPath_none h]

/-- Everything the checks of the encryption instructions can do (R180 to R182). -/
theorem withCipher_next {i : Instr} {k : Path → Result} (h : withCipher i s k = .next t) :
    (∃ p, pathOf s = some p ∧ s.rdy = true ∧ k p = .next t) ∨
    (pathOf s = none ∧ t = takeFault .unsupportedHardware ((encode i).setWidth 128) s) ∨
    (s.rdy = false ∧ t = takeFault .cipherNotReady ((encode i).setWidth 128) s) := by
  cases hp : pathOf s with
  | none => exact .inr (.inl ⟨rfl, raiseWord_next_iff.mp (by rwa [withCipher_none hp] at h)⟩)
  | some p =>
    cases hr : s.rdy with
    | true => exact .inl ⟨p, rfl, rfl, by rwa [withCipher_ready hp hr] at h⟩
    | false => exact .inr (.inr ⟨rfl, raiseWord_next_iff.mp (by rwa [withCipher_notReady hp hr] at h)⟩)

/-! Runs of V registers and slices of memory. -/

/-- A write of a run touches V registers alone. -/
theorem writeRun_frame (vd : VReg) (i : Nat) (bs : List Block) (s : State) :
    writeRun vd i bs s = { s with v := (writeRun vd i bs s).v } := by
  induction bs generalizing i s with
  | nil => rfl
  | cons b bs ih => rw [writeRun, ih]; rfl

/-- A write of a run touches no register outside it. -/
theorem writeRun_getV_outside (vd r : VReg) (i : Nat) (bs : List Block) (s : State)
    (h : ∀ j, i ≤ j → j < i + bs.length → r ≠ regAfter vd j) : (writeRun vd i bs s).getV r = s.getV r := by
  induction bs generalizing i s with
  | nil => rfl
  | cons b bs ih =>
    rw [writeRun, ih (i + 1) _ fun j h1 h2 => h j (by omega) (by rw [List.length_cons]; omega), State.setV_getV,
      if_neg (h i (by omega) (by simp))]

/-- Place j of a run that stays inside the register file gets Block j (44_aes_cipher_ops.md R181). -/
theorem writeRun_getV (vd r : VReg) (i k : Nat) (bs : List Block) (s : State) (hk : k < bs.length)
    (hr : r.val = vd.val + i + k) (hrun : vd.val + i + bs.length ≤ 16) : (writeRun vd i bs s).getV r = bs[k] := by
  induction bs generalizing i k s with
  | nil => simp at hk
  | cons b bs ih =>
    rw [List.length_cons] at hk hrun
    cases k with
    | zero =>
      have hri : r = regAfter vd i := by
        apply Fin.ext
        simp only [regAfter, Fin.ofNat]
        omega
      rw [writeRun, writeRun_getV_outside, State.setV_getV, if_pos hri]
      · rfl
      · intro j h1 h2 hj
        have := congrArg Fin.val hj
        simp only [regAfter, Fin.ofNat] at this
        omega
    | succ k =>
      rw [writeRun, ih (i + 1) k _ (by omega) (by omega) (by omega)]
      rfl

/-- The bytes after a write of Blocks: those of the slice are the Blocks', the others are as before (R182). -/
theorem read_writeBlocks (m : Memory) (a : Nat) (bs : List Block) (a' : Nat) :
    (writeBlocks m a bs).read a' =
      if h : a ≤ a' ∧ a' < a + 16 * bs.length then
        (bs[(a' - a) / 16]'(by omega)).extractLsb' (8 * ((a' - a) % 16)) 8
      else m.read a' := by
  induction bs generalizing m a with
  | nil =>
    rw [dif_neg (by simp only [List.length_nil]; omega)]
    rfl
  | cons b bs ih =>
    rw [writeBlocks, ih]
    simp only [List.length_cons]
    by_cases h1 : a + 16 ≤ a' ∧ a' < a + 16 + 16 * bs.length
    · rw [dif_pos h1, dif_pos (by omega)]
      obtain ⟨d, rfl⟩ : ∃ d, a' = a + 16 + d := ⟨a' - (a + 16), by omega⟩
      have e1 : (a + 16 + d - a) / 16 = d / 16 + 1 := by omega
      have e2 : (a + 16 + d - a) % 16 = d % 16 := by omega
      have e3 : a + 16 + d - (a + 16) = d := by omega
      simp only [e1, e2, e3, List.getElem_cons_succ]
    · rw [dif_neg h1, Memory.read_writeLE]
      by_cases h2 : a ≤ a' ∧ a' < a + 16
      · rw [if_pos h2, dif_pos (by omega)]
        have e1 : (a' - a) / 16 = 0 := by omega
        have e2 : (a' - a) % 16 = a' - a := by omega
        simp only [e1, e2, List.getElem_cons_zero]
        apply BitVec.eq_of_toNat_eq
        rw [BitVec.toNat_ofNat, BitVec.extractLsb'_toNat, Nat.shiftRight_eq_div_pow, pow_mul,
          show (2 : Nat) ^ 8 = 256 from rfl]
      · rw [if_neg h2, dif_neg (by omega)]

/-- A write of Blocks keeps the canonical form. -/
theorem wf_writeBlocks (m : Memory) (a : Nat) (bs : List Block) (h : m.wf = true) : (writeBlocks m a bs).wf = true := by
  induction bs generalizing m a with
  | nil => exact h
  | cons b bs ih => exact ih _ _ (m.wf_writeLE a 16 _ h)

/-- A write of Blocks inside a memory lists only addresses inside it. -/
theorem inside_writeBlocks (m : Memory) (a : Nat) (bs : List Block) (size : Nat) (ha : a + 16 * bs.length ≤ size)
    (h : m.inside size = true) : (writeBlocks m a bs).inside size = true := by
  induction bs generalizing m a with
  | nil => exact h
  | cons b bs ih =>
    rw [List.length_cons] at ha
    exact ih _ _ (by omega) (m.inside_writeLE a 16 _ size (by omega) h)

@[simp] theorem readBlocks_length (m : Memory) (a n : Nat) : (readBlocks m a n).length = n := by simp [readBlocks]

theorem readBlocks_getElem (m : Memory) (a n j : Nat) (h : j < (readBlocks m a n).length) :
    (readBlocks m a n)[j] = BitVec.ofNat 128 (m.readLE (a + 16 * j) 16) := by simp [readBlocks]

/-- One batch of `ENCS` (R182): each byte of the slice is its Block's result's, the others are as before. -/
theorem read_encryptBatch (enc : Block → Block) (m : Memory) (a n a' : Nat) :
    (encryptBatch enc m a n).read a' =
      if a ≤ a' ∧ a' < a + 16 * n then
        (enc (BitVec.ofNat 128 (m.readLE (a + 16 * ((a' - a) / 16)) 16))).extractLsb' (8 * ((a' - a) % 16)) 8
      else m.read a' := by
  rw [encryptBatch, read_writeBlocks]
  simp only [List.length_map, readBlocks_length]
  split
  · rw [List.getElem_map, readBlocks_getElem]
  · rfl

/-- The batches of `ENCS`, as one slice. -/
theorem read_encryptBatches (enc : Block → Block) (m : Memory) (a k a' : Nat) :
    (encryptBatches enc m a k).read a' =
      if a ≤ a' ∧ a' < a + 128 * k then
        (enc (BitVec.ofNat 128 (m.readLE (a + 16 * ((a' - a) / 16)) 16))).extractLsb' (8 * ((a' - a) % 16)) 8
      else m.read a' := by
  induction k generalizing m a with
  | zero => rw [encryptBatches, if_neg (by omega)]
  | succ k ih =>
    rw [encryptBatches, ih]
    by_cases h1 : a + 128 ≤ a' ∧ a' < a + 128 + 128 * k
    · rw [if_pos h1, if_pos (by omega)]
      obtain ⟨d, rfl⟩ : ∃ d, a' = a + 128 + d := ⟨a' - (a + 128), by omega⟩
      have e1 : a + 128 + 16 * ((a + 128 + d - (a + 128)) / 16) = a + 128 + 16 * (d / 16) := by omega
      have e2 : a + 16 * ((a + 128 + d - a) / 16) = a + 128 + 16 * (d / 16) := by omega
      have e3 : (a + 128 + d - (a + 128)) % 16 = (a + 128 + d - a) % 16 := by omega
      have e4 : (encryptBatch enc m a 8).readLE (a + 128 + 16 * (d / 16)) 16 = m.readLE (a + 128 + 16 * (d / 16)) 16 :=
        Memory.readLE_congr _ _ _ _ fun j hj => by rw [read_encryptBatch, if_neg (by omega)]
      rw [e1, e2, e3, e4]
    · rw [if_neg h1, read_encryptBatch]
      by_cases h2 : a ≤ a' ∧ a' < a + 16 * 8
      · rw [if_pos h2, if_pos (by omega)]
      · rw [if_neg h2, if_neg (by omega)]

/-- The whole loop of `ENCS` (R182, R186): Block by Block, however it is cut into batches. -/
theorem read_encryptSlice (enc : Block → Block) (m : Memory) (a n a' : Nat) :
    (encryptSlice enc m a n).read a' =
      if a ≤ a' ∧ a' < a + 16 * n then
        (enc (BitVec.ofNat 128 (m.readLE (a + 16 * ((a' - a) / 16)) 16))).extractLsb' (8 * ((a' - a) % 16)) 8
      else m.read a' := by
  rw [encryptSlice, read_encryptBatch]
  by_cases h1 : a + 128 * (n / 8) ≤ a' ∧ a' < a + 128 * (n / 8) + 16 * (n % 8)
  · rw [if_pos h1, if_pos (by omega)]
    obtain ⟨d, rfl⟩ : ∃ d, a' = a + 128 * (n / 8) + d := ⟨a' - (a + 128 * (n / 8)), by omega⟩
    have e1 : (a + 128 * (n / 8) + d - (a + 128 * (n / 8))) = d := by omega
    have e2 : a + 16 * ((a + 128 * (n / 8) + d - a) / 16) = a + 128 * (n / 8) + 16 * (d / 16) := by omega
    have e3 : (a + 128 * (n / 8) + d - a) % 16 = d % 16 := by omega
    have e4 : (encryptBatches enc m a (n / 8)).readLE (a + 128 * (n / 8) + 16 * (d / 16)) 16 =
        m.readLE (a + 128 * (n / 8) + 16 * (d / 16)) 16 :=
      Memory.readLE_congr _ _ _ _ fun j hj => by rw [read_encryptBatches, if_neg (by omega)]
    rw [e1, e2, e3, e4]
  · rw [if_neg h1, read_encryptBatches]
    by_cases h2 : a ≤ a' ∧ a' < a + 128 * (n / 8)
    · rw [if_pos h2, if_pos (by omega)]
    · rw [if_neg h2, if_neg (by omega)]

theorem wf_encryptBatches (enc : Block → Block) (m : Memory) (a k : Nat) (h : m.wf = true) :
    (encryptBatches enc m a k).wf = true := by
  induction k generalizing m a with
  | zero => exact h
  | succ k ih => exact ih _ _ (wf_writeBlocks m a _ h)

/-- `ENCS` keeps the canonical form. -/
theorem wf_encryptSlice (enc : Block → Block) (m : Memory) (a n : Nat) (h : m.wf = true) :
    (encryptSlice enc m a n).wf = true := wf_writeBlocks _ _ _ (wf_encryptBatches enc m a _ h)

theorem inside_encryptBatches (enc : Block → Block) (m : Memory) (a k size : Nat) (ha : a + 128 * k ≤ size)
    (h : m.inside size = true) : (encryptBatches enc m a k).inside size = true := by
  induction k generalizing m a with
  | zero => exact h
  | succ k ih => exact ih _ _ (by omega) (inside_writeBlocks m a _ size (by simp; omega) h)

/-- `ENCS` inside a memory lists only addresses inside it. -/
theorem inside_encryptSlice (enc : Block → Block) (m : Memory) (a n size : Nat) (ha : a + 16 * n ≤ size)
    (h : m.inside size = true) : (encryptSlice enc m a n).inside size = true :=
  inside_writeBlocks _ _ _ _ (by simp; omega) (inside_encryptBatches enc m a _ _ (by omega) h)

end Sys2Proof.Machine
end

