-- ==== Sys2Proof/Laws/Frames.lean ====
section
/-! SUPPORT. Frames: how the parts that change compose, and how an instruction's end gives its frame. -/

namespace Sys2Proof.Machine

variable {s t u : State} {A B : Part → Prop}

theorem Part.same_refl (p : Part) (s : State) : p.same s s := by cases p <;> rfl

theorem Part.same_trans {p : Part} (h1 : p.same s t) (h2 : p.same t u) : p.same s u := by
  cases p <;> simp only [Part.same] at * <;> exact h2.trans h1

theorem OnlyChanges.refl (A : Part → Prop) (s : State) : OnlyChanges A s s := fun p _ => p.same_refl s

theorem OnlyChanges.mono (h : OnlyChanges A s t) (hAB : ∀ p, A p → B p) : OnlyChanges B s t :=
  fun p hp => h p fun ha => hp (hAB p ha)

theorem OnlyChanges.trans (h1 : OnlyChanges A s t) (h2 : OnlyChanges B t u) : OnlyChanges (fun p => A p ∨ B p) s u :=
  fun p hp => Part.same_trans (h1 p fun ha => hp (.inl ha)) (h2 p fun hb => hp (.inr hb))

/-! One frame for each update. -/

theorem setX_only (r : XReg) (a : Word) (s : State) : OnlyChanges (· = .x r) s (s.setX r a) := by
  intro p hp
  cases p <;> simp_all [Part.same]

theorem setV_only (r : VReg) (b : Block) (s : State) : OnlyChanges (· = .v r) s (s.setV r b) := by
  intro p hp
  cases p <;> simp_all [Part.same]

theorem setC_only (b : Bool) (s : State) : OnlyChanges (· = .c) s (s.setC b) := by
  intro p hp
  cases p <;> simp_all [Part.same]

theorem setPc_only (a : CodeAddr) (s : State) : OnlyChanges (· = .pc) s (s.setPc a) := by
  intro p hp
  cases p <;> simp_all [Part.same]

theorem setBsel_only (b : Bool) (s : State) : OnlyChanges (· = .bsel) s (s.setBsel b) := by
  intro p hp
  cases p <;> simp_all [Part.same]

theorem setRun_only (r : RunState) (s : State) : OnlyChanges (· = .run) s (s.setRun r) := by
  intro p hp
  cases p <;> simp_all [Part.same]

theorem setKeys_only (ks : Vector Block 11) (s : State) :
    OnlyChanges (fun p => p = .rdy ∨ ∃ r, p = .rk r) s (s.setKeys ks) := by
  intro p hp
  cases p <;> simp_all [Part.same]

/-- A new data memory that agrees with the old one outside some addresses. -/
theorem setDmem_only {m : Memory} {P : Nat → Prop} (h : ∀ a, ¬ P a → m.read a = s.dmem.read a) :
    OnlyChanges (fun p => ∃ a, p = .dmem a ∧ P a) s (s.setDmem m) := by
  intro p hp
  cases p <;> simp_all [Part.same]

theorem advance_only (s : State) : OnlyChanges (· = .pc) s s.advance := setPc_only _ s

theorem writeRun_only (vd : VReg) (n : Nat) (bs : List Block) (s : State) (hn : bs.length = n) (hrun : vd.val + n ≤ 16) :
    OnlyChanges (fun p => ∃ r : VReg, p = .v r ∧ vd.val ≤ r.val ∧ r.val < vd.val + n) s (writeRun vd 0 bs s) := by
  intro p hp
  rw [writeRun_frame]
  cases p with
  | v r =>
    rw [← writeRun_frame]
    refine writeRun_getV_outside _ _ _ _ _ fun j _ hj hr => hp ⟨r, rfl, ?_⟩
    have := congrArg Fin.val hr
    simp only [regAfter, Fin.ofNat] at this
    omega
  | _ => rfl

/-- Taking a fault is fault entry (60_exceptions.md R231). -/
theorem takeFault_entry (f : Cause) (info : Word) (s : State) : FaultEntry f info s (takeFault f info s) := by
  refine ⟨rfl, rfl, rfl, rfl, fun p hp => ?_⟩
  cases p <;> simp_all [Part.same]

theorem Raises.of_eq {i : Instr} {f : Cause} {info : Word} (h : exec i s = .next (takeFault f info s)) : Raises i s f info :=
  ⟨_, h, takeFault_entry f info s⟩

/-- An instruction that ends with `finish` completes, with the frame of what it did before. -/
theorem Completes.of_finish {i : Instr} {post : State → Prop} (h : exec i s = .next t.advance) (hpc : t.pc = s.pc)
    (hpost : post t.advance) (hframe : OnlyChanges A s t) : Completes i s A post :=
  ⟨_, h, hpost, by rw [State.advance_pc, hpc],
    (hframe.trans (advance_only t)).mono fun _ hp => hp.symm⟩

end Sys2Proof.Machine
end

