-- ==== Sys2Proof/Laws/PerInstr.lean ====
section
/-! SUPPORT. Statements about every instruction as syntax, one lemma a constructor. -/

namespace Sys2Proof.Laws

/-- The word of a legal instruction is a word of the opcode table (30_encoding.md R78, R79). -/
def RowMatch.Statement (i : Instr) : Prop := i.wellFormed = true → ∃ r ∈ opcodeTable, r.admits (encode i) = true

theorem regCode_val_ne {r q : Fin 16} (h : r ≠ q) : (regCode r).toNat ≠ (regCode q).toNat :=
  fun e => h (Fin.ext e)

/-- It is enough to give the row and its number. -/
theorem RowMatch.of_row {i : Instr} (n : Nat) (r : Row) (hr : opcodeTable[n]? = some r)
    (h : i.wellFormed = true → (encodeFields i).masked (Fields.ofWord r.mask) = Fields.ofWord r.matchBits ∧
      r.constraint (encodeFields i).toWord = true) : RowMatch.Statement i :=
  fun hi => ⟨r, List.mem_of_getElem? hr, (Row.admits_toWord r _).mpr (h hi)⟩

theorem RowMatch.halt : RowMatch.Statement .halt :=
  RowMatch.of_row 0 _ rfl fun h => by
    simp [encodeFields, fmtZ, Fields.masked, Fields.ofWord, freeRow]

theorem RowMatch.clrc : RowMatch.Statement .clrc :=
  RowMatch.of_row 1 _ rfl fun h => by
    simp [encodeFields, fmtZ, Fields.masked, Fields.ofWord, freeRow]

theorem RowMatch.setc : RowMatch.Statement .setc :=
  RowMatch.of_row 2 _ rfl fun h => by
    simp [encodeFields, fmtZ, Fields.masked, Fields.ofWord, freeRow]

theorem RowMatch.csrr (xd : XReg) (csr : Csr) : RowMatch.Statement (.csrr xd csr) :=
  RowMatch.of_row 3 _ rfl fun h => by
    cases csr <;> simp [encodeFields, fmtImm12, Fields.masked, Fields.ofWord, Fields.bitsOf_toWord, Fields.imm12, Csr.number]

theorem RowMatch.csrw (csr : Csr) (xa : XReg) : RowMatch.Statement (.csrw csr xa) :=
  RowMatch.of_row 4 _ rfl fun h => by
    obtain rfl : csr = .ctrl := by simpa [Instr.wellFormed] using h
    simp [encodeFields, fmtImm12, Fields.masked, Fields.ofWord, Fields.bitsOf_toWord, Fields.imm12, Csr.number]

theorem RowMatch.jmp (off16 : BitVec 16) : RowMatch.Statement (.jmp off16) :=
  RowMatch.of_row 5 _ rfl fun h => by
    simp [encodeFields, fmtImm16, Fields.masked, Fields.ofWord, freeRow]

theorem RowMatch.bz (xa : XReg) (off16 : BitVec 16) : RowMatch.Statement (.bz xa off16) :=
  RowMatch.of_row 6 _ rfl fun h => by
    simp [encodeFields, fmtImm16, Fields.masked, Fields.ofWord, freeRow]

theorem RowMatch.bnz (xa : XReg) (off16 : BitVec 16) : RowMatch.Statement (.bnz xa off16) :=
  RowMatch.of_row 7 _ rfl fun h => by
    simp [encodeFields, fmtImm16, Fields.masked, Fields.ofWord, freeRow]

theorem RowMatch.bc (off16 : BitVec 16) : RowMatch.Statement (.bc off16) :=
  RowMatch.of_row 8 _ rfl fun h => by
    simp [encodeFields, fmtImm16, Fields.masked, Fields.ofWord, freeRow]

theorem RowMatch.bnc (off16 : BitVec 16) : RowMatch.Statement (.bnc off16) :=
  RowMatch.of_row 9 _ rfl fun h => by
    simp [encodeFields, fmtImm16, Fields.masked, Fields.ofWord, freeRow]

theorem RowMatch.li (xd : XReg) (imm16 : BitVec 16) : RowMatch.Statement (.li xd imm16) :=
  RowMatch.of_row 10 _ rfl fun h => by
    simp [encodeFields, fmtImm16, Fields.masked, Fields.ofWord, freeRow]

theorem RowMatch.movx (xd : XReg) (xa : XReg) : RowMatch.Statement (.movx xd xa) :=
  RowMatch.of_row 11 _ rfl fun h => by
    simp [encodeFields, fmtR, Fields.masked, Fields.ofWord, freeRow]

theorem RowMatch.addi (xd : XReg) (xa : XReg) (simm16 : BitVec 16) : RowMatch.Statement (.addi xd xa simm16) :=
  RowMatch.of_row 12 _ rfl fun h => by
    simp [encodeFields, fmtImm16, Fields.masked, Fields.ofWord, freeRow]

theorem RowMatch.ldx8 (xd : XReg) (xa : XReg) (simm12 : BitVec 12) : RowMatch.Statement (.ldx8 xd xa simm12) :=
  RowMatch.of_row 13 _ rfl fun h => by
    simp [encodeFields, fmtImm12, Width.code, Fields.masked, Fields.ofWord, freeRow]

theorem RowMatch.ldx16 (xd : XReg) (xa : XReg) (simm12 : BitVec 12) : RowMatch.Statement (.ldx16 xd xa simm12) :=
  RowMatch.of_row 14 _ rfl fun h => by
    simp [encodeFields, fmtImm12, Width.code, Fields.masked, Fields.ofWord, freeRow]

theorem RowMatch.ldx32 (xd : XReg) (xa : XReg) (simm12 : BitVec 12) : RowMatch.Statement (.ldx32 xd xa simm12) :=
  RowMatch.of_row 15 _ rfl fun h => by
    simp [encodeFields, fmtImm12, Width.code, Fields.masked, Fields.ofWord, freeRow]

theorem RowMatch.ldx64 (xd : XReg) (xa : XReg) (simm12 : BitVec 12) : RowMatch.Statement (.ldx64 xd xa simm12) :=
  RowMatch.of_row 16 _ rfl fun h => by
    simp [encodeFields, fmtImm12, Width.code, Fields.masked, Fields.ofWord, freeRow]

theorem RowMatch.ldx128 (xd : XReg) (xa : XReg) (simm12 : BitVec 12) : RowMatch.Statement (.ldx128 xd xa simm12) :=
  RowMatch.of_row 17 _ rfl fun h => by
    simp [encodeFields, fmtImm12, Width.code, Fields.masked, Fields.ofWord, freeRow]

theorem RowMatch.stx8 (xs : XReg) (xa : XReg) (simm12 : BitVec 12) : RowMatch.Statement (.stx8 xs xa simm12) :=
  RowMatch.of_row 18 _ rfl fun h => by
    simp [encodeFields, fmtImm12, Width.code, Fields.masked, Fields.ofWord, freeRow]

theorem RowMatch.stx16 (xs : XReg) (xa : XReg) (simm12 : BitVec 12) : RowMatch.Statement (.stx16 xs xa simm12) :=
  RowMatch.of_row 19 _ rfl fun h => by
    simp [encodeFields, fmtImm12, Width.code, Fields.masked, Fields.ofWord, freeRow]

theorem RowMatch.stx32 (xs : XReg) (xa : XReg) (simm12 : BitVec 12) : RowMatch.Statement (.stx32 xs xa simm12) :=
  RowMatch.of_row 20 _ rfl fun h => by
    simp [encodeFields, fmtImm12, Width.code, Fields.masked, Fields.ofWord, freeRow]

theorem RowMatch.stx64 (xs : XReg) (xa : XReg) (simm12 : BitVec 12) : RowMatch.Statement (.stx64 xs xa simm12) :=
  RowMatch.of_row 21 _ rfl fun h => by
    simp [encodeFields, fmtImm12, Width.code, Fields.masked, Fields.ofWord, freeRow]

theorem RowMatch.stx128 (xs : XReg) (xa : XReg) (simm12 : BitVec 12) : RowMatch.Statement (.stx128 xs xa simm12) :=
  RowMatch.of_row 22 _ rfl fun h => by
    simp [encodeFields, fmtImm12, Width.code, Fields.masked, Fields.ofWord, freeRow]

theorem RowMatch.vld (vd : VReg) (xa : XReg) (simm12 : BitVec 12) : RowMatch.Statement (.vld vd xa simm12) :=
  RowMatch.of_row 23 _ rfl fun h => by
    simp [encodeFields, fmtImm12, Fields.masked, Fields.ofWord, freeRow]

theorem RowMatch.vst (vs : VReg) (xa : XReg) (simm12 : BitVec 12) : RowMatch.Statement (.vst vs xa simm12) :=
  RowMatch.of_row 24 _ rfl fun h => by
    simp [encodeFields, fmtImm12, Fields.masked, Fields.ofWord, freeRow]

theorem RowMatch.cadd8 (xd : XReg) (xa : XReg) (xb : XReg) (cin : CarrySel) : RowMatch.Statement (.cadd8 xd xa xb cin) :=
  RowMatch.of_row 25 _ rfl fun h => by
    cases cin <;> simp [encodeFields, fmtW, Width.code, Fields.masked, Fields.ofWord, Fields.bitsOf_toWord, CarrySel.code]

theorem RowMatch.cadd16 (xd : XReg) (xa : XReg) (xb : XReg) (cin : CarrySel) : RowMatch.Statement (.cadd16 xd xa xb cin) :=
  RowMatch.of_row 26 _ rfl fun h => by
    cases cin <;> simp [encodeFields, fmtW, Width.code, Fields.masked, Fields.ofWord, Fields.bitsOf_toWord, CarrySel.code]

theorem RowMatch.cadd32 (xd : XReg) (xa : XReg) (xb : XReg) (cin : CarrySel) : RowMatch.Statement (.cadd32 xd xa xb cin) :=
  RowMatch.of_row 27 _ rfl fun h => by
    cases cin <;> simp [encodeFields, fmtW, Width.code, Fields.masked, Fields.ofWord, Fields.bitsOf_toWord, CarrySel.code]

theorem RowMatch.cadd64 (xd : XReg) (xa : XReg) (xb : XReg) (cin : CarrySel) : RowMatch.Statement (.cadd64 xd xa xb cin) :=
  RowMatch.of_row 28 _ rfl fun h => by
    cases cin <;> simp [encodeFields, fmtW, Width.code, Fields.masked, Fields.ofWord, Fields.bitsOf_toWord, CarrySel.code]

theorem RowMatch.cadd128 (xd : XReg) (xa : XReg) (xb : XReg) (cin : CarrySel) : RowMatch.Statement (.cadd128 xd xa xb cin) :=
  RowMatch.of_row 29 _ rfl fun h => by
    cases cin <;> simp [encodeFields, fmtW, Width.code, Fields.masked, Fields.ofWord, Fields.bitsOf_toWord, CarrySel.code]

theorem RowMatch.bsub8 (xd : XReg) (xa : XReg) (xb : XReg) (bin : CarrySel) : RowMatch.Statement (.bsub8 xd xa xb bin) :=
  RowMatch.of_row 30 _ rfl fun h => by
    cases bin <;> simp [encodeFields, fmtW, Width.code, Fields.masked, Fields.ofWord, Fields.bitsOf_toWord, CarrySel.code]

theorem RowMatch.bsub16 (xd : XReg) (xa : XReg) (xb : XReg) (bin : CarrySel) : RowMatch.Statement (.bsub16 xd xa xb bin) :=
  RowMatch.of_row 31 _ rfl fun h => by
    cases bin <;> simp [encodeFields, fmtW, Width.code, Fields.masked, Fields.ofWord, Fields.bitsOf_toWord, CarrySel.code]

theorem RowMatch.bsub32 (xd : XReg) (xa : XReg) (xb : XReg) (bin : CarrySel) : RowMatch.Statement (.bsub32 xd xa xb bin) :=
  RowMatch.of_row 32 _ rfl fun h => by
    cases bin <;> simp [encodeFields, fmtW, Width.code, Fields.masked, Fields.ofWord, Fields.bitsOf_toWord, CarrySel.code]

theorem RowMatch.bsub64 (xd : XReg) (xa : XReg) (xb : XReg) (bin : CarrySel) : RowMatch.Statement (.bsub64 xd xa xb bin) :=
  RowMatch.of_row 33 _ rfl fun h => by
    cases bin <;> simp [encodeFields, fmtW, Width.code, Fields.masked, Fields.ofWord, Fields.bitsOf_toWord, CarrySel.code]

theorem RowMatch.bsub128 (xd : XReg) (xa : XReg) (xb : XReg) (bin : CarrySel) : RowMatch.Statement (.bsub128 xd xa xb bin) :=
  RowMatch.of_row 34 _ rfl fun h => by
    cases bin <;> simp [encodeFields, fmtW, Width.code, Fields.masked, Fields.ofWord, Fields.bitsOf_toWord, CarrySel.code]

theorem RowMatch.wmul8 (xl : XReg) (xh : XReg) (xa : XReg) (xb : XReg) : RowMatch.Statement (.wmul8 xl xh xa xb) :=
  RowMatch.of_row 35 _ rfl fun h => by
    have := regCode_val_ne (by simpa [Instr.wellFormed] using h)
    simp [encodeFields, fmtW, Width.code, Fields.masked, Fields.ofWord, Fields.bitsOf_toWord, this]

theorem RowMatch.wmul16 (xl : XReg) (xh : XReg) (xa : XReg) (xb : XReg) : RowMatch.Statement (.wmul16 xl xh xa xb) :=
  RowMatch.of_row 36 _ rfl fun h => by
    have := regCode_val_ne (by simpa [Instr.wellFormed] using h)
    simp [encodeFields, fmtW, Width.code, Fields.masked, Fields.ofWord, Fields.bitsOf_toWord, this]

theorem RowMatch.wmul32 (xl : XReg) (xh : XReg) (xa : XReg) (xb : XReg) : RowMatch.Statement (.wmul32 xl xh xa xb) :=
  RowMatch.of_row 37 _ rfl fun h => by
    have := regCode_val_ne (by simpa [Instr.wellFormed] using h)
    simp [encodeFields, fmtW, Width.code, Fields.masked, Fields.ofWord, Fields.bitsOf_toWord, this]

theorem RowMatch.wmul64 (xl : XReg) (xh : XReg) (xa : XReg) (xb : XReg) : RowMatch.Statement (.wmul64 xl xh xa xb) :=
  RowMatch.of_row 38 _ rfl fun h => by
    have := regCode_val_ne (by simpa [Instr.wellFormed] using h)
    simp [encodeFields, fmtW, Width.code, Fields.masked, Fields.ofWord, Fields.bitsOf_toWord, this]

theorem RowMatch.wmul128 (xl : XReg) (xh : XReg) (xa : XReg) (xb : XReg) : RowMatch.Statement (.wmul128 xl xh xa xb) :=
  RowMatch.of_row 39 _ rfl fun h => by
    have := regCode_val_ne (by simpa [Instr.wellFormed] using h)
    simp [encodeFields, fmtW, Width.code, Fields.masked, Fields.ofWord, Fields.bitsOf_toWord, this]

theorem RowMatch.cmul8 (xl : XReg) (xh : XReg) (xa : XReg) (xb : XReg) (xc : XReg) : RowMatch.Statement (.cmul8 xl xh xa xb xc) :=
  RowMatch.of_row 40 _ rfl fun h => by
    have := regCode_val_ne (by simpa [Instr.wellFormed] using h)
    simp [encodeFields, fmtW, Width.code, Fields.masked, Fields.ofWord, Fields.bitsOf_toWord, this]

theorem RowMatch.cmul16 (xl : XReg) (xh : XReg) (xa : XReg) (xb : XReg) (xc : XReg) : RowMatch.Statement (.cmul16 xl xh xa xb xc) :=
  RowMatch.of_row 41 _ rfl fun h => by
    have := regCode_val_ne (by simpa [Instr.wellFormed] using h)
    simp [encodeFields, fmtW, Width.code, Fields.masked, Fields.ofWord, Fields.bitsOf_toWord, this]

theorem RowMatch.cmul32 (xl : XReg) (xh : XReg) (xa : XReg) (xb : XReg) (xc : XReg) : RowMatch.Statement (.cmul32 xl xh xa xb xc) :=
  RowMatch.of_row 42 _ rfl fun h => by
    have := regCode_val_ne (by simpa [Instr.wellFormed] using h)
    simp [encodeFields, fmtW, Width.code, Fields.masked, Fields.ofWord, Fields.bitsOf_toWord, this]

theorem RowMatch.cmul64 (xl : XReg) (xh : XReg) (xa : XReg) (xb : XReg) (xc : XReg) : RowMatch.Statement (.cmul64 xl xh xa xb xc) :=
  RowMatch.of_row 43 _ rfl fun h => by
    have := regCode_val_ne (by simpa [Instr.wellFormed] using h)
    simp [encodeFields, fmtW, Width.code, Fields.masked, Fields.ofWord, Fields.bitsOf_toWord, this]

theorem RowMatch.cmul128 (xl : XReg) (xh : XReg) (xa : XReg) (xb : XReg) (xc : XReg) : RowMatch.Statement (.cmul128 xl xh xa xb xc) :=
  RowMatch.of_row 44 _ rfl fun h => by
    have := regCode_val_ne (by simpa [Instr.wellFormed] using h)
    simp [encodeFields, fmtW, Width.code, Fields.masked, Fields.ofWord, Fields.bitsOf_toWord, this]

theorem RowMatch.vmov (vd : VReg) (va : VReg) : RowMatch.Statement (.vmov vd va) :=
  RowMatch.of_row 45 _ rfl fun h => by
    simp [encodeFields, fmtR, Fields.masked, Fields.ofWord, freeRow]

theorem RowMatch.vxor (vd : VReg) (va : VReg) (vb : VReg) : RowMatch.Statement (.vxor vd va vb) :=
  RowMatch.of_row 46 _ rfl fun h => by
    simp [encodeFields, fmtR, Fields.masked, Fields.ofWord, freeRow]

theorem RowMatch.vshufw (vd : VReg) (va : VReg) (imm8 : BitVec 8) : RowMatch.Statement (.vshufw vd va imm8) :=
  RowMatch.of_row 47 _ rfl fun h => by
    simp [encodeFields, fmtV8, Fields.masked, Fields.ofWord, freeRow]

theorem RowMatch.vsllb (vd : VReg) (va : VReg) (imm8 : BitVec 8) : RowMatch.Statement (.vsllb vd va imm8) :=
  RowMatch.of_row 48 _ rfl fun h => by
    simp [encodeFields, fmtV8, Fields.masked, Fields.ofWord, freeRow]

theorem RowMatch.vrorw (vd : VReg) (va : VReg) (imm8 : Fin 32) : RowMatch.Statement (.vrorw vd va imm8) :=
  RowMatch.of_row 49 _ rfl fun h => by
    simp [encodeFields, fmtV8, Fields.masked, Fields.ofWord, Fields.bitsOf_toWord, Fields.imm8]
    omega

theorem RowMatch.vimmw (vd : VReg) (imm16 : BitVec 16) : RowMatch.Statement (.vimmw vd imm16) :=
  RowMatch.of_row 50 _ rfl fun h => by
    simp [encodeFields, fmtImm16, Fields.masked, Fields.ofWord, freeRow]

theorem RowMatch.vldrk (vd : VReg) (idx : Fin 11) : RowMatch.Statement (.vldrk vd idx) :=
  RowMatch.of_row 51 _ rfl fun h => by
    simp [encodeFields, fmtR, Fields.masked, Fields.ofWord, Fields.bitsOf_toWord]
    omega

theorem RowMatch.aesenc (vd : VReg) (va : VReg) (vk : VReg) : RowMatch.Statement (.aesenc vd va vk) :=
  RowMatch.of_row 52 _ rfl fun h => by
    simp [encodeFields, fmtR, Fields.masked, Fields.ofWord, freeRow]

theorem RowMatch.aesenclast (vd : VReg) (va : VReg) (vk : VReg) : RowMatch.Statement (.aesenclast vd va vk) :=
  RowMatch.of_row 53 _ rfl fun h => by
    simp [encodeFields, fmtR, Fields.masked, Fields.ofWord, freeRow]

theorem RowMatch.aeskeygenassist (vd : VReg) (va : VReg) (imm8 : BitVec 8) : RowMatch.Statement (.aeskeygenassist vd va imm8) :=
  RowMatch.of_row 54 _ rfl fun h => by
    simp [encodeFields, fmtV8, Fields.masked, Fields.ofWord, freeRow]

theorem RowMatch.aese (vd : VReg) (va : VReg) (vk : VReg) : RowMatch.Statement (.aese vd va vk) :=
  RowMatch.of_row 55 _ rfl fun h => by
    simp [encodeFields, fmtR, Fields.masked, Fields.ofWord, freeRow]

theorem RowMatch.aesmc (vd : VReg) (va : VReg) : RowMatch.Statement (.aesmc vd va) :=
  RowMatch.of_row 56 _ rfl fun h => by
    simp [encodeFields, fmtR, Fields.masked, Fields.ofWord, freeRow]

theorem RowMatch.kexp (va : VReg) : RowMatch.Statement (.kexp va) :=
  RowMatch.of_row 57 _ rfl fun h => by
    simp [encodeFields, fmtR, Fields.masked, Fields.ofWord, freeRow]

theorem RowMatch.encb (vd : VReg) (va : VReg) : RowMatch.Statement (.encb vd va) :=
  RowMatch.of_row 58 _ rfl fun h => by
    simp [encodeFields, fmtR, Fields.masked, Fields.ofWord, freeRow]

theorem RowMatch.encm (vd : VReg) (va : VReg) (n : Fin 9) : RowMatch.Statement (.encm vd va n) :=
  RowMatch.of_row 59 _ rfl fun h => by
    simp [encodeFields, fmtR, Fields.masked, Fields.ofWord, Fields.bitsOf_toWord]
    simp only [Instr.wellFormed, Bool.and_eq_true, decide_eq_true_eq] at h
    have e1 : (regCode vd).toNat = vd.val := rfl
    have e2 : (regCode va).toNat = va.val := rfl
    omega

theorem RowMatch.encs (xa : XReg) (xn : XReg) : RowMatch.Statement (.encs xa xn) :=
  RowMatch.of_row 60 _ rfl fun h => by
    simp [encodeFields, fmtR, Fields.masked, Fields.ofWord, freeRow]

end Sys2Proof.Laws
end

