-- ==== Sys2Proof/Laws/Widths.lean ====
section
/-! SUPPORT. The width variants of one instruction, all at once: their words, their legality and their meanings. -/

namespace Sys2Proof

@[simp] theorem encodeFields_ldx (w : Width) (xd xa : XReg) (d : BitVec 12) :
    encodeFields (.ldx w xd xa d) = fmtImm12 0x14 (regCode xd) (regCode xa) w.code d := by cases w <;> rfl

@[simp] theorem wellFormed_ldx (w : Width) (xd xa : XReg) (d : BitVec 12) : (Instr.ldx w xd xa d).wellFormed = true := by
  cases w <;> rfl

@[simp] theorem encodeFields_stx (w : Width) (xs xa : XReg) (d : BitVec 12) :
    encodeFields (.stx w xs xa d) = fmtImm12 0x15 (regCode xs) (regCode xa) w.code d := by cases w <;> rfl

@[simp] theorem wellFormed_stx (w : Width) (xs xa : XReg) (d : BitVec 12) : (Instr.stx w xs xa d).wellFormed = true := by
  cases w <;> rfl

@[simp] theorem encodeFields_cadd (w : Width) (xd xa xb : XReg) (cin : CarrySel) :
    encodeFields (.cadd w xd xa xb cin) = fmtW 0x20 w (regCode xd) (regCode xa) (regCode xb) cin.code 0 := by cases w <;> rfl

@[simp] theorem wellFormed_cadd (w : Width) (xd xa xb : XReg) (cin : CarrySel) : (Instr.cadd w xd xa xb cin).wellFormed = true := by
  cases w <;> rfl

@[simp] theorem encodeFields_bsub (w : Width) (xd xa xb : XReg) (bin : CarrySel) :
    encodeFields (.bsub w xd xa xb bin) = fmtW 0x21 w (regCode xd) (regCode xa) (regCode xb) bin.code 0 := by cases w <;> rfl

@[simp] theorem wellFormed_bsub (w : Width) (xd xa xb : XReg) (bin : CarrySel) : (Instr.bsub w xd xa xb bin).wellFormed = true := by
  cases w <;> rfl

@[simp] theorem encodeFields_wmul (w : Width) (xl xh xa xb : XReg) :
    encodeFields (.wmul w xl xh xa xb) = fmtW 0x22 w (regCode xl) (regCode xh) (regCode xa) (regCode xb) 0 := by cases w <;> rfl

@[simp] theorem wellFormed_wmul (w : Width) (xl xh xa xb : XReg) : (Instr.wmul w xl xh xa xb).wellFormed = (xl != xh) := by
  cases w <;> rfl

@[simp] theorem encodeFields_cmul (w : Width) (xl xh xa xb xc : XReg) :
    encodeFields (.cmul w xl xh xa xb xc) = fmtW 0x23 w (regCode xl) (regCode xh) (regCode xa) (regCode xb) (regCode xc) := by cases w <;> rfl

@[simp] theorem wellFormed_cmul (w : Width) (xl xh xa xb xc : XReg) : (Instr.cmul w xl xh xa xb xc).wellFormed = (xl != xh) := by
  cases w <;> rfl

namespace Machine

@[simp] theorem exec_ldx (w : Width) (xd xa : XReg) (d : BitVec 12) (s : State) : exec (.ldx w xd xa d) s = loadX w xd xa d s := by
  cases w <;> rfl

@[simp] theorem exec_stx (w : Width) (xs xa : XReg) (d : BitVec 12) (s : State) : exec (.stx w xs xa d) s = storeX w xs xa d s := by
  cases w <;> rfl

@[simp] theorem exec_cadd (w : Width) (xd xa xb : XReg) (cin : CarrySel) (s : State) : exec (.cadd w xd xa xb cin) s = addWithCarry w xd xa xb cin s := by
  cases w <;> rfl

@[simp] theorem exec_bsub (w : Width) (xd xa xb : XReg) (bin : CarrySel) (s : State) : exec (.bsub w xd xa xb bin) s = subWithBorrow w xd xa xb bin s := by
  cases w <;> rfl

@[simp] theorem exec_wmul (w : Width) (xl xh xa xb : XReg) (s : State) : exec (.wmul w xl xh xa xb) s = wideMul w xl xh xa xb s := by
  cases w <;> rfl

@[simp] theorem exec_cmul (w : Width) (xl xh xa xb xc : XReg) (s : State) : exec (.cmul w xl xh xa xb xc) s = wideMulAdd w xl xh xa xb xc s := by
  cases w <;> rfl

end Machine

end Sys2Proof
end

