-- ==== Sys2Proof/Tests/Slice0.lean ====
section
/-! SUPPORT. Tests: the checks of WellFormed, the decoder on words written out from the spec, one-step tests with the values of
95_test_vectors.md, and a witness for every obligation that has hypotheses. -/

namespace Sys2Proof.Tests

set_option Elab.async false

open Sys2Proof Sys2Proof.Machine

/-! Helpers. -/

/-- The decoder on a table word of 32 bits. -/
def dec (w : Nat) : Option Instr := decodeTableWord 32 w

/-- A running engine of the test vectors. -/
def lab : State := State.reset.setRun .running

/-- A running engine with one backend, or none. -/
def labWith (x86 arm : Bool) : State :=
  (State.resetOn { Config.testVectors with hasX86Aes := x86, hasArmAes := arm }).setRun .running

/-- The known-answer key, its first derived round key, plaintext and ciphertext (95_test_vectors.md sections 1 and 2.2). -/
def keyK : Block := blockOfText 0x000102030405060708090a0b0c0d0e0f
def roundKey1 : Block := blockOfText 0xd6aa74fdd2af72fadaa678f1d6ab76fe
def plainP : Block := blockOfText 0x00112233445566778899aabbccddeeff
def cipherC : Block := blockOfText 0x69c4e0d86a7b0430d8cdb78070b4c55a

/-- The engine with the known-answer key expanded. -/
def armed (s : State) : State := s.setKeys (keyExpand keyK)

/-- What one instruction makes of a state, as one view of the next state. -/
def after {A : Type} (i : Instr) (s : State) (view : State → A) : Option A :=
  match exec i s with
  | .next t => some (view t)
  | _ => none

/-- The same for one step of the engine with a word at its pc. -/
def afterWord {A : Type} (w : Nat) (s : State) (view : State → A) : Option A :=
  match step (s.withFetchWord 32 w) with
  | .next t => some (view t)
  | _ => none

/-- Fault registers as 95_test_vectors.md P7 lists them. -/
def faultView (t : State) : RunState × Nat × Nat × Nat × Nat :=
  (t.run, (causeCode t.cause).toNat, t.epc.toNat, t.finfo.toNat, t.pc.toNat)

/-! WellFormed refuses an ill-formed term for each check (30_encoding.md R80). -/

theorem test_wf_csrw_of_cap : (Instr.csrw .cap 4).wellFormed = false := by decide

theorem test_wf_equal_destinations :
    (Instr.wmul32 4 4 6 7).wellFormed = false ∧ (Instr.cmul8 0 0 1 2 3).wellFormed = false := by decide

theorem test_wf_encm_run :
    (Instr.encm 9 0 8).wellFormed = false ∧ (Instr.encm 0 9 8).wellFormed = false ∧ (Instr.encm 8 8 8).wellFormed = true := by
  decide

/-! Decoding: every constructor from a word written out from its encoding. -/

/-- Source: 30_encoding.md R84, and R72 with R77 for CLRC, SETC. -/
theorem test_decode_system :
    dec 0x01000000 = some .halt ∧
    dec 0x02000000 = some .clrc ∧
    dec 0x03000000 = some .setc ∧
    dec 0x04300000 = some (.csrr 3 .cap) ∧
    dec 0x04300002 = some (.csrr 3 .status) ∧
    dec 0x05400001 = some (.csrw .ctrl 4) := by decide +kernel

/-- Source: 30_encoding.md R84, and section 2.6 of 95_test_vectors.md for BZ. -/
theorem test_decode_control :
    dec 0x08000002 = some (.jmp 2) ∧
    dec 0x09200003 = some (.bz 2 3) ∧
    dec 0x0a20fffd = some (.bnz 2 0xfffd) ∧
    dec 0x0b000004 = some (.bc 4) ∧
    dec 0x0c00fffe = some (.bnc 0xfffe) := by decide +kernel

/-- Source: 30_encoding.md R84. -/
theorem test_decode_move :
    dec 0x1090beef = some (.li 9 0xbeef) ∧
    dec 0x11230000 = some (.movx 2 3) ∧
    dec 0x1211ffff = some (.addi 1 1 0xffff) := by decide +kernel

/-- Source: 30_encoding.md R84, and R73 for the other widths. -/
theorem test_decode_load :
    dec 0x14520003 = some (.ldx8 5 2 3) ∧
    dec 0x14521002 = some (.ldx16 5 2 2) ∧
    dec 0x14522000 = some (.ldx32 5 2 0) ∧
    dec 0x14523ff8 = some (.ldx64 5 2 0xff8) ∧
    dec 0x14214000 = some (.ldx128 2 1 0) ∧
    dec 0x16110010 = some (.vld 1 1 0x010) := by decide +kernel

/-- Source: 30_encoding.md R84, and R73 for the other widths. -/
theorem test_decode_store :
    dec 0x15520006 = some (.stx8 5 2 6) ∧
    dec 0x15521006 = some (.stx16 5 2 6) ∧
    dec 0x15522006 = some (.stx32 5 2 6) ∧
    dec 0x15523006 = some (.stx64 5 2 6) ∧
    dec 0x15524000 = some (.stx128 5 2 0) ∧
    dec 0x17210020 = some (.vst 2 1 0x020) := by decide +kernel

/-- Source: 30_encoding.md R84, and R73 for the other widths. -/
theorem test_decode_add :
    dec 0x20031220 = some (.cadd8 3 1 2 .flag) ∧
    dec 0x20131210 = some (.cadd16 3 1 2 .one) ∧
    dec 0x20231200 = some (.cadd32 3 1 2 .zero) ∧
    dec 0x20331220 = some (.cadd64 3 1 2 .flag) ∧
    dec 0x20431220 = some (.cadd128 3 1 2 .flag) := by decide +kernel

/-- Source: 30_encoding.md R84, and R73 for the other widths. -/
theorem test_decode_subtract :
    dec 0x21000100 = some (.bsub8 0 0 1 .zero) ∧
    dec 0x21100110 = some (.bsub16 0 0 1 .one) ∧
    dec 0x21200120 = some (.bsub32 0 0 1 .flag) ∧
    dec 0x21300100 = some (.bsub64 0 0 1 .zero) ∧
    dec 0x21442300 = some (.bsub128 4 2 3 .zero) := by decide +kernel

/-- Source: 30_encoding.md R84, and R73 for the other widths. -/
theorem test_decode_multiply :
    dec 0x22045670 = some (.wmul8 4 5 6 7) ∧
    dec 0x22145670 = some (.wmul16 4 5 6 7) ∧
    dec 0x22245670 = some (.wmul32 4 5 6 7) ∧
    dec 0x22345670 = some (.wmul64 4 5 6 7) ∧
    dec 0x22445670 = some (.wmul128 4 5 6 7) := by decide +kernel

/-- Source: 30_encoding.md R84, and R73 for the other widths. -/
theorem test_decode_multiply_add :
    dec 0x230abcde = some (.cmul8 10 11 12 13 14) ∧
    dec 0x231abcde = some (.cmul16 10 11 12 13 14) ∧
    dec 0x232abcde = some (.cmul32 10 11 12 13 14) ∧
    dec 0x233abcde = some (.cmul64 10 11 12 13 14) ∧
    dec 0x234abcde = some (.cmul128 10 11 12 13 14) := by decide +kernel

/-- Source: 30_encoding.md R84. -/
theorem test_decode_block :
    dec 0x30450000 = some (.vmov 4 5) ∧
    dec 0x31000000 = some (.vxor 0 0 0) ∧
    dec 0x323200ff = some (.vshufw 3 2 0xff) ∧
    dec 0x33310004 = some (.vsllb 3 1 4) ∧
    dec 0x34110008 = some (.vrorw 1 1 8) ∧
    dec 0x3510001b = some (.vimmw 1 0x1b) ∧
    dec 0x367a0000 = some (.vldrk 7 10) := by decide +kernel

/-- Source: 30_encoding.md R84. -/
theorem test_decode_aes :
    dec 0x40112000 = some (.aesenc 1 1 2) ∧
    dec 0x41113000 = some (.aesenclast 1 1 3) ∧
    dec 0x42200001 = some (.aeskeygenassist 2 0 1) ∧
    dec 0x50112000 = some (.aese 1 1 2) ∧
    dec 0x51110000 = some (.aesmc 1 1) := by decide +kernel

/-- Source: 30_encoding.md R84. -/
theorem test_decode_cipher :
    dec 0x60000000 = some (.kexp 0) ∧
    dec 0x61210000 = some (.encb 2 1) ∧
    dec 0x62808000 = some (.encm 8 0 8) ∧
    dec 0x63120000 = some (.encs 1 2) := by decide +kernel

/-- The illegal words of R84. -/
theorem test_decode_illegal :
    ([0x00000000, 0x01000001, 0x20531220, 0x20331230, 0x22244670, 0x34110020, 0x367b0000, 0x62809000, 0x62908000, 0x04300006,
      0x05400000, 0x16011000, 0xffffffff].map dec).all (· == none) = true := by decide +kernel

/-- Each reason of refusal, by name. -/
theorem test_decode_reasons :
    decodeWord 0x00000000 = .error .unknownOpcode ∧ decodeWord 0x01000001 = .error .mustBeZero ∧
    decodeWord 0x20531220 = .error .reservedWidth ∧ decodeWord 0x20331230 = .error .reservedCarrySelect ∧
    decodeWord 0x22244670 = .error .sameDestinations ∧ decodeWord 0x34110020 = .error .rotateCount ∧
    decodeWord 0x367b0000 = .error .roundKeyIndex ∧ decodeWord 0x62908000 = .error .batchRun ∧
    decodeWord 0x05400000 = .error .csrNumber ∧ decode [0x01, 0x00, 0x00] = .error .tooShort := by decide +kernel

/-- No two rows of the opcode table admit one word (R78). -/
theorem test_rows_do_not_overlap :
    ∀ r ∈ opcodeTable, ∀ r' ∈ opcodeTable, r.matchBits &&& r'.mask = r'.matchBits &&& r.mask → r.mnemonic = r'.mnemonic := by
  decide +kernel

/-! State and memory. -/

theorem test_reset_memory_wf : State.reset.imem.wf = true ∧ State.reset.dmem.wf = true := by decide

/-- A write of the unlisted value removes the entry, and cells stay sorted. -/
theorem test_memory_canonical :
    Memory.write (Memory.write (Memory.write [] 5 1) 3 2) 5 0 = [(3, 2)] ∧
    Memory.writeLE [] 8 4 0x11223344 = [(8, 0x44), (9, 0x33), (10, 0x22), (11, 0x11)] := by decide +kernel

/-- A word placed at the pc is what the next step runs, as the first instruction after reset. -/
theorem test_first_instruction :
    afterWord 0x1090beef State.reset (fun t => (t.getX 9, t.pc)) = some (0xbeef, 4) := by decide +kernel

/-- Source: 10_state.md R33: no step in HALTED or FAULTED. -/
theorem test_no_step_unless_running :
    step State.reset = .fault .engineHalted ∧ step (State.reset.setRun .faulted) = .fault .engineFaulted :=
  ⟨rfl, rfl⟩

/-! One-step tests. Source: 95_test_vectors.md section 2.6 unless said otherwise. -/

theorem test_halt :
    after .halt (lab.setPc 0x18) (fun t => (t.run, t.pc)) = some (.halted, 0x1c) := by decide +kernel

theorem test_clrc_setc :
    after .clrc (lab.setC true) (·.c) = some false ∧ after .setc lab (·.c) = some true := by decide +kernel

theorem test_csrr :
    after (.csrr 3 .cap) lab (·.getX 3) = some 3 ∧
    after (.csrr 3 .status) ((armed lab).setC true) (·.getX 3) = some 7 := by decide +kernel

theorem test_csrw :
    after (.csrw .ctrl 4) (lab.setX 4 0xff) (·.bsel) = some true ∧ after (.csrw .ctrl 4) (lab.setX 4 0xfe) (·.bsel) = some false := by decide +kernel

theorem test_jmp :
    after (.jmp 2) (lab.setPc 0x20) (·.pc) = some 0x28 ∧ after (.jmp 0xfff8) (lab.setPc 0x20) (·.pc) = some 0 := by decide +kernel

theorem test_bz :
    after (.bz 2 3) (lab.setPc 0x10) (·.pc) = some 0x1c ∧
    after (.bz 2 3) ((lab.setPc 0x10).setX 2 0x10000000000000000) (·.pc) = some 0x14 := by decide +kernel

theorem test_bnz :
    after (.bnz 2 0xfffd) ((lab.setPc 0x18).setX 2 3) (·.pc) = some 0x0c ∧ after (.bnz 2 0xfffd) (lab.setPc 0x18) (·.pc) = some 0x1c := by decide +kernel

theorem test_bc_bnc :
    after (.bc 4) ((lab.setPc 8).setC true) (·.pc) = some 0x18 ∧ after (.bc 4) (lab.setPc 8) (·.pc) = some 0x0c ∧
    after (.bnc 0xfffe) (lab.setPc 0x10) (·.pc) = some 8 := by decide +kernel

theorem test_li_movx :
    after (.li 9 0xbeef) (lab.setX 9 (1 <<< 127)) (·.getX 9) = some 0xbeef ∧
    after (.movx 2 3) (lab.setX 3 ((1 <<< 100) + 7)) (·.getX 2) = some ((1 <<< 100) + 7) := by decide +kernel

theorem test_addi :
    after (.addi 1 1 0xffff) lab (·.getX 1) = some (BitVec.allOnes 128) ∧
    after (.addi 2 1 0x7fff) (lab.setX 1 1) (·.getX 2) = some 0x8000 := by decide +kernel

/-- Bytes 44 33 22 11 from address 8 on. -/
def bytesAt8 : State := (lab.setDmem (Memory.writeLE [] 8 8 0x8000000011223344)).setX 2 8

theorem test_ldx_low_widths :
    after (.ldx8 5 2 3) bytesAt8 (·.getX 5) = some 0x11 ∧ after (.ldx16 5 2 2) bytesAt8 (·.getX 5) = some 0x1122 ∧
    after (.ldx32 5 2 0) bytesAt8 (·.getX 5) = some 0x11223344 := by decide +kernel

/-- Source: section 2.6; the second from R50, the same bytes in the upper half of the word at 0. -/
theorem test_ldx_high_widths :
    after (.ldx64 5 2 0xff8) (bytesAt8.setX 2 16) (·.getX 5) = some 0x8000000011223344 ∧
    after (.ldx128 5 2 0xff8) bytesAt8 (·.getX 5) = some (0x8000000011223344 <<< 64) := by decide +kernel

theorem test_stx16 :
    after (.stx16 5 2 6) ((lab.setX 5 0x11223344).setX 2 8) (·.dmem) = some [(14, 0x44), (15, 0x33)] := by decide +kernel

theorem test_stx128 :
    after (.stx128 5 2 0) ((lab.setX 5 ((1 <<< 127) + 1)).setX 2 32) (·.dmem) = some [(32, 0x01), (47, 0x80)] := by decide +kernel

/-- Source: 45_move_memory_control.md R206 by hand. -/
theorem test_stx_other_widths :
    after (.stx8 5 2 0) ((lab.setX 5 0x1122334455667788).setX 2 8) (·.dmem) = some [(8, 0x88)] ∧
    after (.stx32 5 2 0) ((lab.setX 5 0x1122334455667788).setX 2 8) (·.dmem.readLE 8 8) = some 0x55667788 ∧
    after (.stx64 5 2 0) ((lab.setX 5 0x1122334455667788).setX 2 8) (·.dmem.readLE 8 8) = some 0x1122334455667788 := by decide +kernel

theorem test_vld :
    after (.vld 1 1 0x010) (lab.setDmem (Memory.writeLE [] 16 16 plainP.toNat)) (·.getV 1) = some plainP := by decide +kernel

theorem test_vst :
    after (.vst 2 1 0x020) (lab.setV 2 cipherC) (fun t => [32, 33, 46, 47].map t.dmem.read) = some [0x69, 0xc4, 0xc5, 0x5a] := by decide +kernel

/-- Source: 95_test_vectors.md section 2.1, as all up to the Block tests. -/
theorem test_cadd8 :
    after (.cadd8 3 1 2 .zero) ((lab.setX 1 0xabcdef12ff).setX 2 0x5500000001) (fun t => (t.getX 3, t.c)) = some (0x00, true) ∧
    after (.cadd8 3 1 2 .one) ((lab.setX 1 0xff).setX 2 0xff) (fun t => (t.getX 3, t.c)) = some (0xff, true) := by decide +kernel

theorem test_cadd16_32 :
    after (.cadd16 3 1 2 .zero) ((lab.setX 1 0x1234).setX 2 0xf000) (fun t => (t.getX 3, t.c)) = some (0x0234, true) ∧
    after (.cadd32 3 1 2 .one) ((lab.setX 1 0xfffffffe).setX 2 1) (fun t => (t.getX 3, t.c)) = some (0, true) := by decide +kernel

theorem test_cadd64_128 :
    after (.cadd64 3 1 2 .one) ((lab.setX 1 0x0123456789abcdef).setX 2 0xfedcba9876543210) (fun t => (t.getX 3, t.c)) = some (0, true) ∧
    after (.cadd128 3 1 2 .zero) ((lab.setX 1 0x0123456789abcdef0123456789abcdef).setX 2 0x1111111111111111eeeeeeeeeeeeeeee) (fun t => (t.getX 3, t.c)) =
      some (0x123456789abcdf00f0123456789abcdd, false) := by decide +kernel

theorem test_cadd_same_register :
    after (.cadd64 1 1 1 .zero) (lab.setX 1 7) (fun t => (t.getX 1, t.c)) = some (14, false) ∧
    after (.cadd8 1 1 1 .flag) (lab.setC true) (fun t => (t.getX 1, t.c)) = some (1, false) := by decide +kernel

theorem test_bsub8 :
    after (.bsub8 3 1 2 .zero) ((lab.setX 1 0x00).setX 2 0x01) (fun t => (t.getX 3, t.c)) = some (0xff, true) ∧
    after (.bsub8 3 1 2 .one) ((lab.setX 1 0x05).setX 2 0x05) (fun t => (t.getX 3, t.c)) = some (0xff, true) := by decide +kernel

theorem test_bsub16_32 :
    after (.bsub16 3 1 2 .zero) ((lab.setX 1 0x1000).setX 2 1) (fun t => (t.getX 3, t.c)) = some (0x0fff, false) ∧
    after (.bsub32 3 1 2 .one) ((lab.setX 1 5).setX 2 3) (fun t => (t.getX 3, t.c)) = some (1, false) := by decide +kernel

theorem test_bsub64_128 :
    after (.bsub64 3 1 2 .one) ((lab.setX 1 0).setX 2 0xffffffffffffffff) (fun t => (t.getX 3, t.c)) = some (0, true) ∧
    after (.bsub128 3 1 2 .one) ((lab.setX 1 0).setX 2 0) (fun t => (t.getX 3, t.c)) = some (BitVec.allOnes 128, true) := by decide +kernel

theorem test_wmul_narrow :
    after (.wmul8 3 4 1 2) ((lab.setX 1 0xff).setX 2 0xff) (fun t => (t.getX 3, t.getX 4)) = some (0x01, 0xfe) ∧
    after (.wmul16 3 4 1 2) ((lab.setX 1 0x1234).setX 2 0x5678) (fun t => (t.getX 3, t.getX 4)) = some (0x0060, 0x0626) ∧
    after (.wmul32 3 4 1 2) ((lab.setX 1 0x12345678).setX 2 0x9abcdef0) (fun t => (t.getX 3, t.getX 4)) = some (0x242d2080, 0x0b00ea4e) := by decide +kernel

theorem test_wmul_wide :
    after (.wmul64 3 4 1 2) ((lab.setX 1 0x0123456789abcdef).setX 2 0xfedcba9876543210) (fun t => (t.getX 3, t.getX 4)) =
      some (0x2236d88fe5618cf0, 0x0121fa00ad77d742) ∧
    after (.wmul128 3 4 1 2) ((lab.setX 1 0x0123456789abcdeffedcba9876543210).setX 2 0x0f1e2d3c4b5a69788796a5b4c3d2e1f0) (fun t => (t.getX 3, t.getX 4)) =
      some (0x3b18e5a14be56de55ef9a562300eff00, 0x00113366ab0066de65dc4195d90b2c3c) := by decide +kernel

theorem test_cmul_narrow :
    after (.cmul8 3 4 1 2 5) (((lab.setX 1 0x12).setX 2 0x34).setX 5 0) (fun t => (t.getX 3, t.getX 4)) = some (0xa8, 0x03) ∧
    after (.cmul16 3 4 1 2 5) (((lab.setX 1 0xffff).setX 2 0xffff).setX 5 0xffff) (fun t => (t.getX 3, t.getX 4)) = some (0, 0xffff) ∧
    after (.cmul32 3 4 1 2 5) (((lab.setX 1 0x12345678).setX 2 0x9abcdef0).setX 5 0xffffffff) (fun t => (t.getX 3, t.getX 4)) = some (0x242d207f, 0x0b00ea4f) := by decide +kernel

theorem test_cmul_wide :
    after (.cmul64 3 4 1 2 5) (((lab.setX 1 0x0123456789abcdef).setX 2 0xfedcba9876543210).setX 5 0xffffffffffffffff) (fun t => (t.getX 3, t.getX 4)) =
      some (0x2236d88fe5618cef, 0x0121fa00ad77d743) ∧
    after (.cmul128 3 4 1 2 5) (((lab.setX 1 (BitVec.allOnes 128)).setX 2 (BitVec.allOnes 128)).setX 5 (BitVec.allOnes 128)) (fun t => (t.getX 3, t.getX 4)) =
      some (0, BitVec.allOnes 128) := by decide +kernel

theorem test_wmul_keeps_carry :
    after (.wmul8 3 4 1 2) (((lab.setX 1 0xff).setX 2 0xff).setC true) (·.c) = some true ∧
    after (.wmul8 1 2 1 2) ((lab.setX 1 0xff).setX 2 0xff) (fun t => (t.getX 1, t.getX 2)) = some (0x01, 0xfe) := by decide +kernel

/-! Blocks and AES. Source: 95_test_vectors.md sections 2.2 to 2.5 and 2.7. -/

theorem test_vmov_vxor :
    after (.vmov 4 5) (lab.setV 5 keyK) (·.getV 4) = some keyK ∧
    after (.vxor 1 2 3) ((lab.setV 2 keyK).setV 3 roundKey1) (·.getV 1) =
      some (blockOfText 0xd6ab76fed6aa74fdd2af72fadaa678f1) := by decide +kernel

theorem test_vshufw :
    after (.vshufw 3 2 0xff) (lab.setV 2 keyK) (·.getV 3) = some (blockOfText 0x0c0d0e0f0c0d0e0f0c0d0e0f0c0d0e0f) ∧
    after (.vshufw 3 2 0x39) (lab.setV 2 keyK) (·.getV 3) = some (blockOfText 0x0405060708090a0b0c0d0e0f00010203) := by decide +kernel

theorem test_vsllb :
    after (.vsllb 3 2 4) (lab.setV 2 keyK) (·.getV 3) = some (blockOfText 0x00000000000102030405060708090a0b) ∧
    after (.vsllb 3 2 16) (lab.setV 2 keyK) (·.getV 3) = some 0 := by decide +kernel

theorem test_vrorw :
    after (.vrorw 3 2 8) (lab.setV 2 keyK) (·.getV 3) = some (blockOfText 0x0102030005060704090a0b080d0e0f0c) ∧
    after (.vrorw 3 2 31) (lab.setV 2 keyK) (·.getV 3) = some (blockOfText 0x00020406080a0c0e10121416181a1c1e) := by decide +kernel

theorem test_vimmw :
    after (.vimmw 1 0xbeef) lab (·.getV 1) = some (blockOfText 0xefbe0000efbe0000efbe0000efbe0000) := by decide +kernel

theorem test_vldrk :
    after (.vldrk 7 10) (armed lab) (·.getV 7) = some (blockOfText 0x13111d7fe3944a17f307a78b4d2b30c5) ∧
    after (.vldrk 7 0) (armed lab) (·.getV 7) = some keyK := by decide +kernel

theorem test_aesenc :
    after (.aesenc 1 2 3) ((lab.setV 2 (blockOfText 0x00102030405060708090a0b0c0d0e0f0)).setV 3 roundKey1) (·.getV 1) =
      some (blockOfText 0x89d810e8855ace682d1843d8cb128fe4) := by decide +kernel

theorem test_aesenclast :
    after (.aesenclast 1 2 3) ((lab.setV 2 (blockOfText 0x00102030405060708090a0b0c0d0e0f0)).setV 3 roundKey1) (·.getV 1) =
      some (blockOfText 0xb5f99471dbcf93fe17d6cfa06c61a619) := by decide +kernel

theorem test_aeskeygenassist :
    after (.aeskeygenassist 2 0 0x01) (lab.setV 0 keyK) (·.getV 2) = some (blockOfText 0xf26b6fc56a6fc5f2fed7ab76d6ab76fe) ∧
    after (.aeskeygenassist 2 0 0xff) lab (·.getV 2) = some (blockOfText 0x636363639c636363636363639c636363) := by decide +kernel

theorem test_aese :
    after (.aese 1 2 3) ((lab.setV 2 plainP).setV 3 keyK) (·.getV 1) = some (blockOfText 0x6353e08c0960e104cd70b751bacad0e7) := by decide +kernel

theorem test_aesmc :
    after (.aesmc 1 2) (lab.setV 2 (blockOfText 0x6353e08c0960e104cd70b751bacad0e7)) (·.getV 1) =
      some (blockOfText 0x5f72641557f5bc92f7be3b291db9f91a) := by decide +kernel

theorem test_kexp_x86 :
    after (.kexp 0) ((labWith true false).setV 0 keyK) (fun t => (t.rdy, t.rk.get 1, t.rk.get 10)) =
      some (true, roundKey1, blockOfText 0x13111d7fe3944a17f307a78b4d2b30c5) := by decide +kernel

theorem test_kexp_arm :
    after (.kexp 0) ((labWith false true).setV 0 keyK) (fun t => (t.rdy, t.rk.get 1, t.rk.get 10)) =
      some (true, roundKey1, blockOfText 0x13111d7fe3944a17f307a78b4d2b30c5) := by decide +kernel

theorem test_encb :
    after (.encb 2 1) ((armed lab).setV 1 plainP) (·.getV 2) = some cipherC ∧
    after (.encb 2 1) (((armed lab).setBsel true).setV 1 plainP) (·.getV 2) = some cipherC := by decide +kernel

theorem test_encm_overlap :
    after (.encm 1 0 2) ((armed lab).setV 0 plainP) (fun t => (t.getV 0, t.getV 1, t.getV 2)) =
      some (plainP, cipherC, blockOfText 0xc6a13b37878f5b826f4f8162a1c8d879) := by decide +kernel

theorem test_encs :
    after (.encs 1 2) (((armed lab).setDmem (Memory.writeLE [] 0x400 16 (blockOfText 0x01010101010101010101010101010101).toNat)
      |>.setX 1 0x400).setX 2 1) (fun t => t.dmem.readLE 0x400 16) =
      some (blockOfText 0xc352805754237f311ac0fff4e3e03e78).toNat := by decide +kernel

/-! Faults. Source: 95_test_vectors.md P7. -/

theorem test_fault_illegal :
    afterWord 0x01000001 State.reset faultView = some (.faulted, 1, 0, 0x01000001, 0) := by decide +kernel

theorem test_fault_unsupported :
    afterWord 0x61100000 (labWith false false) faultView = some (.faulted, 2, 0, 0x61100000, 0) ∧
    afterWord 0x50112000 (labWith true false) faultView = some (.faulted, 2, 0, 0x50112000, 0) ∧
    afterWord 0x42200001 (labWith false true) faultView = some (.faulted, 2, 0, 0x42200001, 0) := by decide +kernel

theorem test_fault_cipher :
    afterWord 0x61100000 lab faultView = some (.faulted, 3, 0, 0x61100000, 0) ∧
    afterWord 0x60100000 ((armed lab).setPc 4) faultView = some (.faulted, 4, 4, 0x60100000, 4) := by decide +kernel

theorem test_fault_memory :
    afterWord 0x14214000 ((lab.setPc 4).setX 1 0xfff8) faultView = some (.faulted, 5, 4, 0xfff8, 4) ∧
    afterWord 0x14213ff8 (lab.setPc 4) faultView = some (.faulted, 6, 4, 0xfffffffffffffffffffffffffffffff8, 4) := by decide +kernel

theorem test_fault_slice :
    afterWord 0x63120000 ((((armed lab).setPc 12).setX 1 0xfff0).setX 2 2) faultView = some (.faulted, 6, 12, 0x10000, 12) ∧
    afterWord 0x63120000 ((((armed lab).setPc 12).setX 1 0x408).setX 2 0) (fun t => (t.run, t.pc)) = some (.running, 16) := by decide +kernel

theorem test_fault_fetch :
    (match step (lab.setPc 0x1000) with
      | .next t => some (faultView t)
      | _ => none) = some (.faulted, 7, 0x1000, 0x1000, 0x1000) := by decide +kernel

/-! The host. Source: 60_exceptions.md R250, R251, 70_reset_and_hazards.md R262. -/

theorem test_host_reset_keeps_memory :
    (match hostStep .reset ((armed lab).setDmem [(3, 2)]) with
      | .next t => some (t.dmem, t.rdy, t.run)
      | _ => none) = some ([(3, 2)], false, .halted) := by decide +kernel

theorem test_host_start_in_faulted : hostStep .start (lab.setRun .faulted) = .next (lab.setRun .faulted) := rfl

theorem test_host_write_refused :
    hostStep (.writePc 4) lab = .refused .hostMoveNotAllowed ∧
    hostStep (.writeImem 4096 1) State.reset = .refused .hostMoveNotAllowed :=
  ⟨rfl, rfl⟩

/-! Witnesses: for each obligation with hypotheses, states and operands that meet them all. -/

theorem lab_inv : lab.Inv :=
  ⟨by decide, rfl, rfl, rfl, rfl, by decide, fun _ => ⟨rfl, rfl⟩, fun h => absurd h (by decide)⟩

theorem armed_inv : (armed lab).Inv :=
  ⟨by decide, rfl, rfl, rfl, rfl, ⟨fun h => absurd h (by decide), fun h => absurd rfl h⟩, fun _ => ⟨rfl, rfl⟩, fun _ => ⟨keyK, rfl⟩⟩

/-- A state whose next step completes `LI x9, 0xbeef`, and one whose next step faults (word 0x00000000). -/
def liState : State := State.reset.withFetchWord 32 0x1090beef

theorem witness_DecodeInvertsEncode :
    (Instr.encm 8 8 8).wellFormed = true ∧ (Instr.cmul128 0 1 15 15 15).wellFormed = true :=
  by decide

theorem witness_EncodeInvertsDecode :
    decodeWord 0x62808000 = .ok (.encm 8 0 8) :=
  by rfl

theorem witness_DecoderFollowsOpcodeTable :
    ∃ r ∈ opcodeTable, r.admits 0x04300005 = true :=
  ⟨⟨"CSRR", 0x04000000, 0xff0ff000, fun w => decide (bitsOf w 11 0 ≤ 5)⟩, by simp [opcodeTable, tableSystem], by decide⟩

theorem witness_StepRunsTheDecodedInstruction :
    liState.run = .running ∧ liState.pc.toNat % 4 = 0 ∧ liState.pc.toNat + 4 ≤ liState.cfg.imemBytes ∧
      decode (fetchBytes liState) = .ok (.li 9 0xbeef, []) :=
  ⟨rfl, by decide, by decide, rfl⟩

theorem witness_BadPcRaisesFetchFault :
    (lab.setPc 2).run = .running ∧ (lab.setPc 2).pc.toNat % 4 ≠ 0 ∧
      (lab.setPc 0x1000).run = .running ∧ (lab.setPc 0x1000).pc.toNat % 4 = 0 ∧
      (lab.setPc 0x1000).pc.toNat + 4 > (lab.setPc 0x1000).cfg.imemBytes :=
  by decide

theorem witness_IllegalWordRaisesIllegalInstruction :
    lab.run = .running ∧ lab.pc.toNat % 4 = 0 ∧ lab.pc.toNat + 4 ≤ lab.cfg.imemBytes ∧
      decodeWord (fetchWord lab) = .error .unknownOpcode :=
  ⟨rfl, by decide, by decide, rfl⟩

theorem witness_EngineStepsExactlyWhenRunning :
    lab.run = .running ∧ ∃ t, step lab = .next t :=
  ⟨rfl, _, rfl⟩

theorem witness_FaultsArePrecise :
    ∃ t, step lab = .next t ∧ t.run = .faulted :=
  ⟨_, rfl, rfl⟩

theorem witness_FaultInformationByCause_IllegalInstruction :
    (lab).cfg.wf = true ∧ ∃ t, step (lab) = .next t ∧ t.run = .faulted ∧ t.cause = .illegalInstruction :=
  ⟨by decide, _, rfl, rfl, rfl⟩

theorem witness_FaultInformationByCause_UnsupportedHardware :
    ((labWith false false).withFetchWord 32 0x61100000).cfg.wf = true ∧ ∃ t, step ((labWith false false).withFetchWord 32 0x61100000) = .next t ∧ t.run = .faulted ∧ t.cause = .unsupportedHardware :=
  ⟨by decide, _, rfl, rfl, rfl⟩

theorem witness_FaultInformationByCause_CipherNotReady :
    (lab.withFetchWord 32 0x61100000).cfg.wf = true ∧ ∃ t, step (lab.withFetchWord 32 0x61100000) = .next t ∧ t.run = .faulted ∧ t.cause = .cipherNotReady :=
  ⟨by decide, _, rfl, rfl, rfl⟩

theorem witness_FaultInformationByCause_KeyScheduleLocked :
    ((armed lab).withFetchWord 32 0x60100000).cfg.wf = true ∧ ∃ t, step ((armed lab).withFetchWord 32 0x60100000) = .next t ∧ t.run = .faulted ∧ t.cause = .keyScheduleLocked :=
  ⟨by decide, _, rfl, rfl, rfl⟩

theorem witness_FaultInformationByCause_MisalignedAccess :
    ((lab.setX 1 0xfff8).withFetchWord 32 0x14214000).cfg.wf = true ∧ ∃ t, step ((lab.setX 1 0xfff8).withFetchWord 32 0x14214000) = .next t ∧ t.run = .faulted ∧ t.cause = .misalignedAccess :=
  ⟨by decide, _, rfl, rfl, rfl⟩

theorem witness_FaultInformationByCause_AccessFault :
    (lab.withFetchWord 32 0x14213ff8).cfg.wf = true ∧ ∃ t, step (lab.withFetchWord 32 0x14213ff8) = .next t ∧ t.run = .faulted ∧ t.cause = .accessFault :=
  ⟨by decide, _, rfl, rfl, rfl⟩

theorem witness_FaultInformationByCause_FetchFault :
    (lab.setPc 0x1000).cfg.wf = true ∧ ∃ t, step (lab.setPc 0x1000) = .next t ∧ t.run = .faulted ∧ t.cause = .fetchFault :=
  ⟨by decide, _, rfl, rfl, rfl⟩

theorem witness_OnlyResetLeavesFaulted :
    (lab.setRun .faulted).run = .faulted ∧ Moves (lab.setRun .faulted) (hostReset (lab.setRun .faulted)) ∧
      Moves (lab.setRun .faulted) (lab.setRun .faulted) :=
  ⟨rfl, .host .reset rfl, .host .start rfl⟩

theorem witness_ResetStateMeetsInvariant :
    Config.testVectors.wf = true ∧ Memory.wf [(4095, 1)] = true ∧ Memory.inside [(4095, 1)] Config.testVectors.imemBytes = true ∧
      Memory.wf [(65535, 1)] = true ∧ Memory.inside [(65535, 1)] Config.testVectors.dmemBytes = true :=
  by decide

theorem witness_StepKeepsInvariant :
    lab.Inv ∧ (∃ t, step lab = .next t) ∧ (armed lab).Inv :=
  ⟨lab_inv, ⟨_, rfl⟩, armed_inv⟩

theorem witness_ReachableStatesMeetInvariant :
    Reachable State.reset ∧ Reachable lab :=
  ⟨.powerOn Config.testVectors [] [] (by decide) rfl rfl rfl rfl,
    .move (.powerOn Config.testVectors [] [] (by decide) rfl rfl rfl rfl) (.host .start rfl)⟩

theorem witness_PcStaysAligned :
    ∃ t, step liState = .next t ∧ liState.pc.toNat % 4 = 0 :=
  ⟨_, rfl, by decide⟩

theorem witness_ReadyBankNeverChanges :
    (∃ t, step (armed liState) = .next t ∧ (armed liState).rdy = true) ∧
      ∃ t, exec (.kexp 0) lab = .next t ∧ (t.rdy ≠ lab.rdy ∨ t.rk ≠ lab.rk) :=
  ⟨⟨_, rfl, rfl⟩, _, rfl, .inl (by decide)⟩

theorem witness_RegistersChangeOnlyWhereNamed :
    ∃ t, exec (.li 9 0xbeef) lab = .next t ∧ (8 : XReg) ∉ xDestsOf (.li 9 0xbeef) ∧ (9 : VReg) ∉ vDestsOf (.encm 8 0 1) :=
  ⟨_, rfl, by decide, by decide⟩

theorem witness_StatusChangesOnlyWhereSaid :
    ∃ t, exec (.li 9 0xbeef) lab = .next t ∧ writesC (.li 9 0xbeef) = false ∧ t.run ≠ .faulted ∧ ∀ csr xa, Instr.li 9 0xbeef ≠ .csrw csr xa :=
  ⟨_, rfl, rfl, by decide, fun _ _ h => by cases h⟩

theorem witness_MemoryChangesOnlyWhereStored :
    ∃ t, exec (.stx8 5 2 0) lab = .next t ∧ storedRange lab (.stx8 5 2 0) = (0, 1) :=
  ⟨_, rfl, rfl⟩

theorem witness_BackendSelectChangesNoResult :
    (∀ xd, Instr.encb 2 1 ≠ .csrr xd .ctrl) ∧ (∀ csr xa, Instr.encb 2 1 ≠ .csrw csr xa) ∧ ∃ t, exec (.encb 2 1) (armed lab) = .next t :=
  ⟨fun _ h => (by cases h), fun _ _ h => (by cases h), _, rfl⟩

theorem witness_UnreadyBankIsUnobservable :
    lab.rdy = false ∧ ∃ t, exec (.kexp 0) lab = .next t ∧ t.rdy = true :=
  ⟨rfl, _, rfl, rfl⟩

theorem witness_ProgramReadsNoFault :
    lab.Inv ∧ lab.run = .running :=
  ⟨lab_inv, rfl⟩

theorem witness_CsrReadsGiveTheNamedBits :
    5 < (6 : BitVec 12).toNat :=
  by decide

theorem witness_CsrWriteReachesBselAlone :
    (0 : BitVec 12) ≠ 1 ∧ (2 : BitVec 12) ≠ 1 ∧
      ¬ ((labWith false true).cfg.hasX86Aes = true ∧ (labWith false true).cfg.hasArmAes = true) :=
  by decide

theorem witness_MovesWriteTheirDestination :
    (0x12ffffff : InstrWord).extractLsb' 24 8 = 0x12 :=
  by decide

theorem witness_BranchesTransferControl :
    (lab.getX 2).toNat = 0 ∧ ((lab.setX 2 0x10000000000000000).getX 2).toNat ≠ 0 ∧ (lab.setC true).c = true ∧ lab.c = false :=
  by decide

/-- An address register at the last Block of data memory, at its end, and one byte past alignment at the end. -/
def atLast : State := lab.setX 1 0xfff0
def atEnd : State := lab.setX 1 0x10000
def pastEnd : State := lab.setX 1 0x10001

theorem witness_LoadsReadLittleEndianBytes :
    (effectiveAddress 1 0 atLast).toNat % widthBytes .w128 = 0 ∧
      (effectiveAddress 1 0 atLast).toNat + widthBytes .w128 ≤ atLast.cfg.dmemBytes ∧
      (effectiveAddress 1 15 atLast).toNat % widthBytes .w8 = 0 ∧
      (effectiveAddress 1 15 atLast).toNat + widthBytes .w8 ≤ atLast.cfg.dmemBytes ∧
      (effectiveAddress 1 0 atLast).toNat % 16 = 0 ∧ (effectiveAddress 1 0 atLast).toNat + 16 ≤ atLast.cfg.dmemBytes :=
  by decide +kernel

theorem witness_StoresWriteLittleEndianBytes :
    (effectiveAddress 1 8 atLast).toNat % widthBytes .w64 = 0 ∧
      (effectiveAddress 1 8 atLast).toNat + widthBytes .w64 ≤ atLast.cfg.dmemBytes ∧
      (effectiveAddress 1 0 atLast).toNat % 16 = 0 ∧ (effectiveAddress 1 0 atLast).toNat + 16 ≤ atLast.cfg.dmemBytes :=
  by decide +kernel

theorem witness_BadAddressesRaiseMemoryFaults :
    (effectiveAddress 1 0 pastEnd).toNat % widthBytes .w16 ≠ 0 ∧ (effectiveAddress 1 0 pastEnd).toNat % 16 ≠ 0 ∧
      (effectiveAddress 1 0 atEnd).toNat % widthBytes .w8 = 0 ∧
      (effectiveAddress 1 0 atEnd).toNat + widthBytes .w8 > atEnd.cfg.dmemBytes ∧
      (effectiveAddress 1 0 atEnd).toNat % 16 = 0 ∧ (effectiveAddress 1 0 atEnd).toNat + 16 > atEnd.cfg.dmemBytes :=
  by decide +kernel

theorem witness_LoadAfterStoreSeesTheBytes :
    ∃ t u, exec (.stx .w16 5 2 6) (lab.setX 5 0x1122) = .next t ∧ t.run ≠ .faulted ∧
      exec (.ldx .w64 6 2 0) t = .next u ∧ u.run ≠ .faulted ∧ u.getX 6 = 0x1122000000000000 :=
  ⟨_, _, rfl, by decide +kernel, rfl, by decide +kernel, by decide +kernel⟩

theorem witness_CaddIsExact :
    4 < (5 : BitVec 4).toNat ∧ 2 < (3 : BitVec 4).toNat ∧ (1 : BitVec 4) ≠ 0 :=
  by decide

theorem witness_BsubIsExact :
    4 < (15 : BitVec 4).toNat ∧ 2 < (15 : BitVec 4).toNat ∧ (8 : BitVec 4) ≠ 0 :=
  by decide

theorem witness_WmulIsExact :
    (0 : XReg) ≠ 15 ∧ 4 < (5 : BitVec 4).toNat ∧ (4 : BitVec 4) = 4 ∧ (1 : BitVec 4) ≠ 0 :=
  by decide

theorem witness_CmulIsExact :
    (15 : XReg) ≠ 0 ∧ 4 < (5 : BitVec 4).toNat ∧ (0 : BitVec 4) = 0 :=
  by decide

theorem witness_CarryChainsAreExact :
    ∀ p ∈ [(255, 1), (255, 0), (0, 0)], p.1 < 2 ^ widthBits .w8 ∧ p.2 < 2 ^ widthBits .w8 :=
  by decide

theorem witness_CarryMulChainIsSchoolbook :
    255 < 2 ^ widthBits .w8 ∧ (∀ l ∈ [255, 255, 0], l < 2 ^ widthBits .w8) ∧ (0 : XReg) ≠ 1 :=
  by decide

theorem witness_ArithmeticAndHelpersNeverFault :
    (Instr.cadd8 0 0 0 .flag).wellFormed = true ∧ (encodeFields (.cadd8 0 0 0 .flag)).op.toNat = 0x20 ∧
      (Instr.vimmw 0 0).wellFormed = true ∧ (encodeFields (.vimmw 0 0)).op.toNat = 0x35 :=
  by decide

theorem witness_BlockHelpersCompute :
    31 < (32 : BitVec 8).toNat ∧ (16 : BitVec 8).toNat ≤ 16 ∧ ¬ (16 : BitVec 8).toNat ≤ 15 :=
  by decide

theorem witness_VldrkReadsTheReadyBank :
    10 < (11 : BitVec 4).toNat ∧ (armed lab).rdy = true ∧ lab.rdy = false :=
  by decide

theorem witness_SboxIsAffineOfInverse :
    (1 : Byte) ≠ 0 ∧ sbox 0x53 = sbox 0x53 :=
  by decide

theorem witness_X86PrimitivesCompute :
    (labWith true false).cfg.hasX86Aes = true ∧ (labWith false true).cfg.hasX86Aes = false :=
  by decide

theorem witness_ArmPrimitivesCompute :
    (labWith false true).cfg.hasArmAes = true ∧ (labWith true false).cfg.hasArmAes = false :=
  by decide

theorem witness_KexpBuildsTheSchedule :
    ((labWith false true).cfg.hasX86Aes = true ∨ (labWith false true).cfg.hasArmAes = true) ∧ (labWith false true).rdy = false ∧
      (armed lab).cfg.hasX86Aes = true ∧ (armed lab).rdy = true ∧
      (labWith false false).cfg.hasX86Aes = false ∧ (labWith false false).cfg.hasArmAes = false :=
  by decide

theorem witness_EncbEncryptsOneBlock :
    ((armed lab).cfg.hasX86Aes = true ∨ (armed lab).cfg.hasArmAes = true) ∧ (armed lab).rdy = true ∧
      lab.cfg.hasX86Aes = true ∧ lab.rdy = false ∧
      (labWith false false).cfg.hasX86Aes = false ∧ (labWith false false).cfg.hasArmAes = false :=
  by decide

theorem witness_EncmEncryptsTheRun :
    ((8 : VReg).val + (8 : Fin 9).val ≤ 16 ∧ (7 : VReg).val + (8 : Fin 9).val ≤ 16) ∧ 8 < (9 : BitVec 4).toNat ∧
      (9 : BitVec 4).toNat + (8 : BitVec 4).toNat > 16 ∧ (15 : BitVec 4).toNat + (2 : BitVec 4).toNat > 16 ∧
      (armed lab).cfg.hasX86Aes = true ∧ (armed lab).rdy = true ∧ lab.rdy = false ∧
      (labWith false false).cfg.hasX86Aes = false ∧ (labWith false false).cfg.hasArmAes = false ∧
      7 < (8 : Fin 9).val ∧ (15 : VReg).val = (8 : VReg).val + 7 ∧ (14 : VReg).val = (7 : VReg).val + 7 :=
  by decide

/-- A ready engine with a slice of n Blocks from an address on in `x1`, `x2`. -/
def slice (base count : Word) : State := ((armed lab).setX 1 base).setX 2 count

theorem witness_EncsEncryptsTheSlice :
    (slice 0xffe0 2).cfg.hasX86Aes = true ∧ (slice 0xffe0 2).rdy = true ∧ ((slice 0xffe0 2).getX 1).toNat % 16 = 0 ∧
      ((slice 0xffe0 2).getX 1).toNat + 16 * ((slice 0xffe0 2).getX 2).toNat ≤ (slice 0xffe0 2).cfg.dmemBytes ∧
      ((slice 0x408 0).getX 2).toNat = 0 ∧ (slice 0x408 0).rdy = true ∧
      (∀ k < 16, byteOf 0 k = (slice 0xffe0 2).dmem.read (0xffe0 + 16 * 1 + k)) :=
  by decide +kernel

theorem witness_EncsFaultsInOrder :
    ¬ ((labWith false false).cfg.hasX86Aes = true ∨ (labWith false false).cfg.hasArmAes = true) ∧ lab.cfg.hasX86Aes = true ∧
      lab.rdy = false ∧ (slice 0x408 1).rdy = true ∧ ((slice 0x408 1).getX 2).toNat ≠ 0 ∧ ((slice 0x408 1).getX 1).toNat % 16 ≠ 0 ∧
      ((slice 0xfff0 2).getX 1).toNat % 16 = 0 ∧
      ((slice 0xfff0 2).getX 1).toNat + 16 * ((slice 0xfff0 2).getX 2).toNat > (slice 0xfff0 2).cfg.dmemBytes :=
  by decide +kernel

theorem witness_HostMovesWhereAllowed :
    State.reset.run = .halted ∧ lab.run ≠ .halted ∧ State.reset.run ≠ .running ∧ 4095 < State.reset.cfg.imemBytes ∧
      65535 < State.reset.cfg.dmemBytes ∧ lab.run = .running ∧ hostStep .start lab = .next lab ∧
      State.reset.cfg.imemBytes ≤ 4096 ∧ State.reset.cfg.dmemBytes ≤ 65536 :=
  ⟨rfl, by decide, by decide, by decide, by decide, rfl, rfl, by decide, by decide⟩

end Sys2Proof.Tests
end

section
/-! SUPPORT. The decoder read backwards: what a word that decodes says of its instruction, and the words of `CSRR`. -/

namespace Sys2Proof

/-! A format laid out from the immediate of a word has the word's nibbles (30_encoding.md R71, R72). -/

@[simp] theorem fmtImm16_imm16 (op : BitVec 8) (a b : BitVec 4) (x : Fields) :
    fmtImm16 op a b x.imm16 = ⟨op, a, b, x.c, x.d, x.e, x.f⟩ := by
  simp [fmtImm16, Fields.imm16, split16 x.c x.d x.e x.f]

@[simp] theorem fmtImm12_imm12 (op : BitVec 8) (a b c : BitVec 4) (x : Fields) :
    fmtImm12 op a b c x.imm12 = ⟨op, a, b, c, x.d, x.e, x.f⟩ := by
  simp [fmtImm12, Fields.imm12, split12 x.d x.e x.f]

@[simp] theorem fmtV8_imm8 (op : BitVec 8) (a b : BitVec 4) (x : Fields) :
    fmtV8 op a b x.imm8 = ⟨op, a, b, 0, 0, x.e, x.f⟩ := by
  simp [fmtV8, Fields.imm8, split8 x.e x.f]

/-- Fields that decode are those of the instruction they decode to, which is legal (30_encoding.md R74, R79). -/
theorem decodeFields_ok {x : Fields} {i : Instr} (h : decodeFields x = .ok i) :
    i.wellFormed = true ∧ encodeFields i = x := by
  obtain ⟨op, a, b, c, d, e, f⟩ := x
  revert h
  unfold decodeFields
  split
  -- An opcode outside the map of R77.
  case h_38 => exact nofun
  -- Every other arm: what its rules need are equations of the fields, which are substituted.
  all_goals
    rename_i hop
    simp only at hop
    simp only [needZero_ok, needWidth_ok, needCarrySel_ok, needCsr_ok, needRotate_ok, needIndex_ok, needCount_ok, needLegal_ok,
      Except.ok.injEq, List.forall_mem_cons, List.not_mem_nil, false_imp_iff, implies_true, and_true,
      and_imp, forall_exists_index, @eq_comm _ (Fields.imm12 _) (Csr.number _), @eq_comm _ (Fields.imm8 _) (BitVec.ofNat _ _)]
    intros
    subst_vars
  -- `LDX`, `STX`, `CADD` and `BSUB`, then `WMUL` and `CMUL`, by the laws over all widths.
  case h_14 | h_15 | h_18 | h_19 => simp [fmtW]
  case h_20 | h_21 => simp_all [fmtW]
  all_goals simp_all [Instr.wellFormed, encodeFields, fmtZ, fmtR]

/-- A word that decodes is the word of the instruction it decodes to, which is legal (30_encoding.md R74). -/
theorem decodeWord_ok {w : InstrWord} {i : Instr} (h : decodeWord w = .ok i) : i.wellFormed = true ∧ encode i = w := by
  obtain ⟨hwf, hfields⟩ := decodeFields_ok h
  exact ⟨hwf, by rw [encode, hfields, Fields.toWord_ofWord]⟩

/-! The words of `CSRR`. -/

/-- The word of formats M, MV and C with two zero nibbles in the middle (30_encoding.md R72). -/
theorem fmtImm12_toWord (op : BitVec 8) (a : BitVec 4) (imm : BitVec 12) :
    (fmtImm12 op a 0 0 imm).toWord = op ++ a ++ 0#8 ++ imm := by
  apply BitVec.eq_of_toNat_eq
  have := imm.isLt
  simp only [fmtImm12, Fields.toWord, toNat_append_add, toNat_extract, show (0 : BitVec 4).toNat = 0 from rfl, BitVec.toNat_ofNat]
  omega

/-- A CSR number above 5 numbers nothing (10_state.md R38). -/
theorem Csr.ofNumber_of_gt {n : BitVec 12} (h : 5 < n.toNat) : Csr.ofNumber n = none := by
  cases hc : Csr.ofNumber n with
  | none => rfl
  | some c =>
    rw [← Csr.number_of_ofNumber hc] at h
    cases c <;> simp [Csr.number] at h

/-- `CSRR` of a CSR that does not exist is no instruction (30_encoding.md R80). -/
theorem decodeWord_csrr_of_gt (a : BitVec 4) {n : BitVec 12} (h : 5 < n.toNat) :
    decodeWord (0x04#8 ++ a ++ 0#8 ++ n) = .error .csrNumber := by
  rw [← fmtImm12_toWord, decodeWord, Fields.ofWord_toWord]
  simp [decodeFields, fmtImm12, Fields.imm12, needZero, needCsr, Csr.ofNumber_of_gt h]

end Sys2Proof
end

section
/-! SUPPORT. The two paths of the whole-cipher operations compute the reference functions (44_aes_cipher_ops.md R174, R179). -/

namespace Sys2Proof.Machine

/-- `VSLLB` by 4 moves every word one place up (41_block_ops_and_aes_functions.md R133). -/
theorem wordOf_vsllb_four (b : Block) (j : Nat) (hj : j < 4) :
    wordOf (vsllb b 4#8) j = if j = 0 then 0 else wordOf b (j - 1) := by
  apply BitVec.eq_of_getLsbD_eq
  intro n hn
  rw [wordOf_bit _ _ _ hn, vsllb, if_neg (by decide), BitVec.getLsbD_shiftLeft]
  split
  · next h0 =>
    have h : 32 * j + n < 8 * (4#8).toNat := by simp; omega
    rw [decide_eq_true h]
    simp
  · next h0 =>
    have h : ¬ 32 * j + n < 8 * (4#8).toNat := by simp; omega
    have hlt : 32 * j + n < 128 := by omega
    rw [wordOf_bit _ _ _ hn, decide_eq_false h, decide_eq_true hlt]
    have e : 32 * j + n - 8 * (4#8).toNat = 32 * (j - 1) + n := by simp; omega
    rw [e]
    rfl

/-- Word j of the shift-and-xor steps is the xor of the words 0 to j (44_aes_cipher_ops.md R172, R173). -/
theorem wordOf_spreadKey (p : Block) :
    wordOf (spreadKey p) 0 = wordOf p 0 ∧
    wordOf (spreadKey p) 1 = wordOf p 1 ^^^ wordOf p 0 ∧
    wordOf (spreadKey p) 2 = wordOf p 2 ^^^ wordOf p 1 ^^^ wordOf p 0 ∧
    wordOf (spreadKey p) 3 = wordOf p 3 ^^^ wordOf p 2 ^^^ wordOf p 1 ^^^ wordOf p 0 := by
  refine ⟨?_, ?_, ?_, ?_⟩ <;> simp [spreadKey, vxor, wordOf_vsllb_four]

/-- A rule of key expansion whose last line is the shared steps and one word in all four places is `KeyExpand`'s (R171). -/
theorem nextKey_of_spreadKey {r : Nat} {p q : Block}
    (hq : ∀ j < 4, wordOf q j = rotWord (subWord (wordOf p 3)) ^^^ (rcon r).setWidth 32) :
    vxor (spreadKey p) q = nextKey r p := by
  obtain ⟨h0, h1, h2, h3⟩ := wordOf_spreadKey p
  apply block_ext_words
  intro j hj
  rw [vxor, wordOf_xor, hq j hj, nextKey, wordOf_blockOfWords _ j hj]
  interval_cases j
  · rw [h0]; rfl
  · rw [h1]; simp only; ac_rfl
  · rw [h2]; simp only; ac_rfl
  · rw [h3]; simp only; ac_rfl

/-- One round of `KeyExpandX86` is the reference's (R174). -/
theorem nextKeyX86_eq (r : Nat) (p : Block) : nextKeyX86 r p = nextKey r p := by
  refine nextKey_of_spreadKey fun j hj => ?_
  have h3 : ((0xff : BitVec 8).extractLsb' (2 * j) 2).toNat = 3 := by interval_cases j <;> rfl
  rw [wordOf_vshufw _ _ j hj, h3, aeskeygenassist, wordOf_blockOfWords _ 3 (by decide)]
  rfl

/-- `ShiftRows` leaves a Block of four equal words alone. -/
theorem shiftRows_of_equal_words {b : Block} {w : Column} (h : ∀ j < 4, wordOf b j = w) : shiftRows b = b := by
  apply block_ext_bytes
  intro k hk
  have byte : ∀ c r, c < 4 → r < 4 → byteOf b (4 * c + r) = columnByte w r := fun c r hc hr => by
    rw [← columnByte_wordOf b c r hr, h c hc]
  rw [byteOf_shiftRows b k hk, Nat.add_comm, byte _ _ (Nat.mod_lt _ (by decide)) (Nat.mod_lt _ (by decide)),
    ← byte (k / 4) (k % 4) (by omega) (Nat.mod_lt _ (by decide)), Nat.div_add_mod]

theorem wordOf_subBytes (b : Block) (j : Nat) (hj : j < 4) : wordOf (subBytes b) j = subWord (wordOf b j) := by
  apply column_ext_bytes
  intro k hk
  rw [columnByte_wordOf _ j k hk, byteOf_subBytes b _ (by omega), columnByte_subWord _ k hk, columnByte_wordOf _ j k hk]

/-- `AESE` with a zero key on a Block of four equal words is `SubWord` on each (R173). -/
theorem wordOf_aese_zero {b : Block} {w : Column} (h : ∀ j < 4, wordOf b j = w) (j : Nat) (hj : j < 4) :
    wordOf (aese b 0) j = subWord w := by
  have hs : ∀ j < 4, wordOf (subBytes b) j = subWord w := fun j hj => by rw [wordOf_subBytes b j hj, h j hj]
  rw [aese, show b ^^^ 0 = b from BitVec.xor_zero, shiftRows_of_equal_words hs, hs j hj]

/-- One round of `KeyExpandARM` is the reference's (R174). -/
theorem nextKeyArm_eq (r : Nat) (p : Block) : nextKeyArm r p = nextKey r p := by
  refine nextKey_of_spreadKey fun j hj => ?_
  have hp : ∀ j < 4, wordOf (vshufw p 0xff) j = wordOf p 3 := fun j hj => by
    have h3 : ((0xff : BitVec 8).extractLsb' (2 * j) 2).toNat = 3 := by interval_cases j <;> rfl
    rw [wordOf_vshufw _ _ j hj, h3]
  have hz : vimmw 0 = 0 := by decide
  have hrc : ((rcon r).setWidth 16).setWidth 32 = (rcon r).setWidth 32 := by
    have := (rcon r).isLt
    bv_omega
  rw [vxor, wordOf_xor, wordOf_vrorw _ _ j hj, wordOf_vimmw _ j hj, hz, wordOf_aese_zero hp j hj, hrc]
  rfl

/-- Both paths expand every key as the reference does (R174). -/
theorem keyExpandOn_eq (p : Path) (key : Block) : keyExpandOn p key = keyExpand key := by
  cases p with
  | x86 => exact schedule_congr (fun r _ _ q => nextKeyX86_eq r q) key
  | arm => exact schedule_congr (fun r _ _ q => nextKeyArm_eq r q) key

/-- `EncryptARM` xors each round key where `Encrypt` does: at the head of the next step instead of the end of its own (R179). -/
theorem encryptArm_eq (rk : Vector Block 11) (b : Block) : encryptArm rk b = encrypt rk b := rfl

/-- Both paths encrypt every Block under every bank as the reference does (R179). -/
theorem encryptOn_eq (p : Path) (rk : Vector Block 11) : encryptOn p rk = encrypt rk := by
  cases p with
  | x86 => rfl
  | arm => exact funext (encryptArm_eq rk)

end Sys2Proof.Machine
end

section
/-! SUPPORT. Everything an instruction can do, said once: the writes it may make on the way to completion, its faults, and that
`exec` does nothing else. -/

namespace Sys2Proof.Machine

variable {i : Instr} {s t u : State} {k : Word → Result}

/-- The causes that record the instruction word (10_state.md R44). -/
def Cause.recordsWord : Cause → Prop
  | .illegalInstruction | .unsupportedHardware | .cipherNotReady | .keyScheduleLocked => True
  | _ => False

/-- A fault the instruction may raise, with its information (10_state.md R44): the instruction word; the address of an access
that its check refuses (20_memory.md R52); what the check of an `ENCS` slice records (44_aes_cipher_ops.md R182). -/
inductive FaultOf (i : Instr) (s : State) : Cause → Word → Prop where
  | word {f : Cause} : f.recordsWord → FaultOf i s f ((encode i).setWidth 128)
  | access {f : Cause} {addr : Word} {n : Nat} : n ∣ 16 → accessCheck s addr n = some f → FaultOf i s f addr
  | slice {f : Cause} {info base : Word} {count : Nat} : sliceCheck s base count = some (f, info) → FaultOf i s f info

/-- A memory that differs from another in a range of bytes alone, and is canonical and inside its size when the other is. -/
structure StoredIn (size : Nat) (range : Nat × Nat) (m m' : Memory) : Prop where
  outside : ∀ a, ¬ (range.1 ≤ a ∧ a < range.1 + range.2) → m'.read a = m.read a
  wf : m.wf = true → m'.wf = true
  inside : m.inside size = true → m'.inside size = true

/-- `u` is `s` after writes that the instruction may make, each with the guard it stands under. Nothing writes the
parameters, the instruction memory, the pc or the fault registers on the way to completion. -/
inductive Writes (i : Instr) (s : State) : State → Prop where
  | none : Writes i s s
  | setX {u : State} (r : XReg) (a : Word) : r ∈ xDestsOf i → Writes i s u → Writes i s (u.setX r a)
  | setV {u : State} (r : VReg) (b : Block) : r ∈ vDestsOf i → Writes i s u → Writes i s (u.setV r b)
  | setC {u : State} (b : Bool) : writesC i = true → Writes i s u → Writes i s (u.setC b)
  | setBsel {u : State} (b : Bool) : (∃ csr xa, i = .csrw csr xa) → Writes i s u → Writes i s (u.setBsel b)
  | halt {u : State} : i = .halt → Writes i s u → Writes i s (u.setRun .halted)
  | setKeys {u : State} (key : Block) : (∃ va, i = .kexp va) → s.rdy = false → Writes i s u →
      Writes i s (u.setKeys (keyExpand key))
  | setDmem {u : State} {m : Memory} : StoredIn s.cfg.dmemBytes (storedRange s i) u.dmem m → Writes i s u →
      Writes i s (u.setDmem m)

/-- What an instruction can make of a state: it completes after writes, it transfers control, or it takes a fault. -/
inductive Effect (i : Instr) (s : State) : State → Prop where
  | completes {u : State} : Writes i s u → Effect i s u.advance
  | transfers (off : BitVec 16) : Effect i s (s.setPc (branchTarget off s))
  | faults {f : Cause} {info : Word} : FaultOf i s f info → Effect i s (takeFault f info s)

/-- The answer of a meaning is a next state, and one that the instruction can make. -/
def Does (i : Instr) (s : State) (r : Result) : Prop := ∃ t, r = .next t ∧ Effect i s t

/-! The check of a slice, and what stores change. -/

/-- The slice of an `ENCS` is allowed exactly when it is aligned and all its bytes exist (44_aes_cipher_ops.md R182). -/
theorem sliceCheck_none {base : Word} {count : Nat} :
    sliceCheck s base count = none ↔ base.toNat % 16 = 0 ∧ base.toNat + 16 * count ≤ s.cfg.dmemBytes := by
  unfold sliceCheck
  split
  · simp_all
  · split
    · simp only [reduceCtorEq, false_iff]; omega
    · simp only [true_iff]; omega

/-- A refused slice is misaligned, or aligned and out of range (R182). -/
theorem sliceCheck_some {base : Word} {count : Nat} {f : Cause} {info : Word} :
    sliceCheck s base count = some (f, info) ↔
      (base.toNat % 16 ≠ 0 ∧ f = .misalignedAccess ∧ info = base) ∨
      (base.toNat % 16 = 0 ∧ s.cfg.dmemBytes < base.toNat + 16 * count ∧ f = .accessFault ∧
        info = if base.toNat ≥ s.cfg.dmemBytes then base else BitVec.ofNat 128 s.cfg.dmemBytes) := by
  unfold sliceCheck
  split
  · simp_all [eq_comm]
  · split
    · simp_all [eq_comm]
    · simp only [reduceCtorEq, false_iff]; omega

theorem StoredIn.refl (size : Nat) (range : Nat × Nat) (m : Memory) : StoredIn size range m m := ⟨fun _ _ => rfl, id, id⟩

theorem StoredIn.trans {size : Nat} {range : Nat × Nat} {m m' m'' : Memory} (h : StoredIn size range m m')
    (h' : StoredIn size range m' m'') : StoredIn size range m m'' :=
  ⟨fun a ha => (h'.outside a ha).trans (h.outside a ha), h'.wf ∘ h.wf, h'.inside ∘ h.inside⟩

theorem storedIn_writeLE {size a n : Nat} (m : Memory) (v : Nat) (h : a + n ≤ size) :
    StoredIn size (a, n) m (m.writeLE a n v) :=
  ⟨fun a' ha' => by rw [Memory.read_writeLE, if_neg ha'], m.wf_writeLE a n v, m.inside_writeLE a n v size h⟩

theorem storedIn_encryptSlice {size a n : Nat} (enc : Block → Block) (m : Memory) (h : a + 16 * n ≤ size) :
    StoredIn size (a, 16 * n) m (encryptSlice enc m a n) :=
  ⟨fun a' ha' => by rw [read_encryptSlice, if_neg ha'], wf_encryptSlice enc m a n, inside_encryptSlice enc m a n size h⟩

/-! The shared operations keep to the effects. -/

theorem Does.finish (h : Writes i s u) : Does i s (finish u) := ⟨_, rfl, .completes h⟩

theorem Does.finishX {r : XReg} {a : Word} (h : r ∈ xDestsOf i) : Does i s (Machine.finish (s.setX r a)) :=
  .finish (.setX r a h .none)

theorem Does.finishV {r : VReg} {b : Block} (h : r ∈ vDestsOf i) : Does i s (Machine.finish (s.setV r b)) :=
  .finish (.setV r b h .none)

theorem Does.finishXC {r : XReg} {a : Word} {b : Bool} (hr : r ∈ xDestsOf i) (hc : writesC i = true) :
    Does i s (Machine.finish ((s.setX r a).setC b)) :=
  .finish (.setC b hc (.setX r a hr .none))

theorem Does.raise {f : Cause} {info : Word} (h : FaultOf i s f info) : Does i s (raise f info s) := ⟨_, rfl, .faults h⟩

theorem Does.raiseWord {f : Cause} (h : f.recordsWord) : Does i s (raiseWord f i s) := .raise (.word h)

theorem Does.branchIf (taken : Bool) (off : BitVec 16) : Does i s (branchIf taken off s) := by
  cases taken with
  | false => exact .finish .none
  | true => exact ⟨_, rfl, .transfers off⟩

theorem Does.memRead {addr : Word} {n : Nat} (hn : n ∣ 16) (hk : ∀ v, Does i s (k v)) : Does i s (memRead s addr n k) := by
  unfold Machine.memRead
  split
  · next hf => exact .raise (.access hn hf)
  · exact hk _

theorem Does.memWrite {addr : Word} {n v : Nat} (hn : n ∣ 16) (hr : storedRange s i = (addr.toNat, n)) :
    Does i s (memWrite s addr n v Machine.finish) := by
  unfold Machine.memWrite
  split
  · next hf => exact .raise (.access hn hf)
  · next hc =>
    exact .finish (.setDmem (hr ▸ storedIn_writeLE _ v (accessCheck_none.mp hc).2) .none)

theorem Does.writeWide {w : Width} {xl xh : XReg} {p : Nat} (hl : xl ∈ xDestsOf i) (hh : xh ∈ xDestsOf i) :
    Does i s (writeWide w i xl xh p s) := by
  unfold Machine.writeWide
  split
  · exact .raiseWord trivial
  · exact .finish (.setX _ _ hh (.setX _ _ hl .none))

theorem Does.withX86 {r : Result} (h : Does i s r) : Does i s (withX86 i s r) := by
  unfold Machine.withX86
  split
  · exact h
  · exact .raiseWord trivial

theorem Does.withArm {r : Result} (h : Does i s r) : Does i s (withArm i s r) := by
  unfold Machine.withArm
  split
  · exact h
  · exact .raiseWord trivial

theorem Does.withPath {k : Path → Result} (h : ∀ p, Does i s (k p)) : Does i s (withPath i s k) := by
  unfold Machine.withPath
  split
  · exact .raiseWord trivial
  · exact h _

theorem Does.withCipher {k : Path → Result} (h : ∀ p, Does i s (k p)) : Does i s (withCipher i s k) :=
  .withPath fun p => by
    split
    · exact h p
    · exact .raiseWord trivial

/-- A run of Blocks written to V registers that the instruction names. -/
theorem Writes.writeRun {vd : VReg} {j : Nat} {bs : List Block} (h : Writes i s u)
    (hd : ∀ m, j ≤ m → m < j + bs.length → regAfter vd m ∈ vDestsOf i) : Writes i s (writeRun vd j bs u) := by
  induction bs generalizing j u with
  | nil => exact h
  | cons b bs ih =>
    rw [List.length_cons] at hd
    exact ih (.setV _ b (hd j le_rfl (by omega)) h) fun m h1 h2 => hd m (by omega) (by omega)

/-! Whole meanings that are more than one shared operation. -/

theorem loadX_does {w : Width} {xd xa : XReg} {d : BitVec 12} (h : xd ∈ xDestsOf i) : Does i s (loadX w xd xa d s) :=
  .memRead (widthBytes_dvd w) fun _ => .finishX h

theorem storeX_does {w : Width} {xs xa : XReg} {d : BitVec 12}
    (h : storedRange s i = ((effectiveAddress xa d s).toNat, widthBytes w)) : Does i s (storeX w xs xa d s) :=
  .memWrite (widthBytes_dvd w) h

theorem execCsrw_does (csr : Csr) (xa : XReg) (s : State) : Does (.csrw csr xa) s (execCsrw csr xa s) := by
  unfold execCsrw
  split
  · exact .finish (.setBsel _ ⟨csr, xa, rfl⟩ .none)
  · exact .raiseWord trivial

theorem execVldrk_does (vd : VReg) (idx : Fin 11) (s : State) : Does (.vldrk vd idx) s (execVldrk vd idx s) := by
  unfold execVldrk
  split
  · exact .finishV (List.mem_singleton.mpr rfl)
  · exact .raiseWord trivial

theorem execKexp_does (va : VReg) (s : State) : Does (.kexp va) s (execKexp va s) :=
  .withPath fun p => by
    split
    · exact .raiseWord trivial
    · next hr =>
      rw [keyExpandOn_eq]
      exact .finish (.setKeys _ ⟨va, rfl⟩ (by simpa using hr) .none)

theorem execEncm_does (vd va : VReg) (n : Fin 9) (s : State) : Does (.encm vd va n) s (execEncm vd va n s) := by
  unfold execEncm
  split
  · refine .withCipher fun p => .finish (.writeRun .none fun m _ hm => ?_)
    have hlt : m < n.val := by simpa [readRun] using hm
    exact List.mem_map.mpr ⟨m, List.mem_range.mpr hlt, rfl⟩
  · exact .raiseWord trivial

theorem execEncs_does (xa xn : XReg) (s : State) : Does (.encs xa xn) s (execEncs xa xn s) :=
  .withCipher fun p => by
    dsimp only
    split
    · exact .finish .none
    · split
      · next hf => exact .raise (.slice hf)
      · next hc => exact .finish (.setDmem (storedIn_encryptSlice _ _ (sliceCheck_none.mp hc).2) .none)

/-- Every instruction answers a next state in every state (70_reset_and_hazards.md R268), and one of its effects. -/
theorem exec_does (i : Instr) (s : State) : Does i s (exec i s) := by
  cases i <;> simp only [exec]
  case halt => exact .finish (.halt rfl .none)
  case clrc | setc => exact .finish (.setC _ rfl .none)
  case csrw csr xa => exact execCsrw_does csr xa s
  case jmp | bz | bnz | bc | bnc => exact .branchIf _ _
  case csrr | li | movx | addi => exact .finishX (List.mem_singleton.mpr rfl)
  case ldx8 | ldx16 | ldx32 | ldx64 | ldx128 => exact loadX_does (List.mem_singleton.mpr rfl)
  case stx8 | stx16 | stx32 | stx64 | stx128 => exact storeX_does rfl
  case vld => exact .memRead (dvd_refl 16) fun _ => .finishV (List.mem_singleton.mpr rfl)
  case vst => exact .memWrite (dvd_refl 16) rfl
  case cadd8 | cadd16 | cadd32 | cadd64 | cadd128 | bsub8 | bsub16 | bsub32 | bsub64 | bsub128 =>
    exact .finishXC (List.mem_singleton.mpr rfl) rfl
  case wmul8 | wmul16 | wmul32 | wmul64 | wmul128 | cmul8 | cmul16 | cmul32 | cmul64 | cmul128 =>
    exact .writeWide List.mem_cons_self (List.mem_cons_of_mem _ List.mem_cons_self)
  case vmov | vxor | vshufw | vsllb | vrorw | vimmw => exact .finishV (List.mem_singleton.mpr rfl)
  case vldrk vd idx => exact execVldrk_does vd idx s
  case aesenc | aesenclast | aeskeygenassist => exact .withX86 (.finishV (List.mem_singleton.mpr rfl))
  case aese | aesmc => exact .withArm (.finishV (List.mem_singleton.mpr rfl))
  case kexp va => exact execKexp_does va s
  case encb => exact .withCipher fun _ => .finishV (List.mem_singleton.mpr rfl)
  case encm vd va n => exact execEncm_does vd va n s
  case encs xa xn => exact execEncs_does xa xn s

theorem exec_total (i : Instr) (s : State) : ∃ t, exec i s = .next t := (exec_does i s).imp fun _ h => h.1

/-- Everything an instruction can do. -/
theorem exec_effect (h : exec i s = .next t) : Effect i s t := by
  obtain ⟨t', h', he⟩ := exec_does i s
  rw [h] at h'
  cases h'
  exact he

end Sys2Proof.Machine
end

section
/-! SUPPORT. What each part of the state is after an instruction, from the writes, and what its faults record. -/

namespace Sys2Proof.Machine

variable {i : Instr} {s t u : State} {f : Cause} {info : Word}

/-! What the writes of an instruction leave alone, field by field. -/

/-- Nothing on the way to completion writes the parameters, the instruction memory, the pc or the fault registers. -/
theorem Writes.fixed (h : Writes i s u) : u.cfg = s.cfg ∧ u.imem = s.imem ∧ u.pc = s.pc ∧
    u.cause = s.cause ∧ u.epc = s.epc ∧ u.finfo = s.finfo := by
  induction h with
  | none => exact ⟨rfl, rfl, rfl, rfl, rfl, rfl⟩
  | setX _ _ _ _ ih | setV _ _ _ _ ih | setC _ _ _ ih | setBsel _ _ _ ih | halt _ _ ih | setKeys _ _ _ _ ih
  | setDmem _ _ ih => exact ih

theorem Writes.getX (h : Writes i s u) {r : XReg} (hr : r ∉ xDestsOf i) : u.getX r = s.getX r := by
  induction h with
  | none => rfl
  | setX d a hd _ ih => rw [State.setX_getX, if_neg fun e => hr (by rwa [e]), ih]
  | setV _ _ _ _ ih | setC _ _ _ ih | setBsel _ _ _ ih | halt _ _ ih | setKeys _ _ _ _ ih | setDmem _ _ ih => exact ih

theorem Writes.getV (h : Writes i s u) {r : VReg} (hr : r ∉ vDestsOf i) : u.getV r = s.getV r := by
  induction h with
  | none => rfl
  | setV d b hd _ ih => rw [State.setV_getV, if_neg fun e => hr (by rwa [e]), ih]
  | setX _ _ _ _ ih | setC _ _ _ ih | setBsel _ _ _ ih | halt _ _ ih | setKeys _ _ _ _ ih | setDmem _ _ ih => exact ih

theorem Writes.c (h : Writes i s u) (hi : writesC i = false) : u.c = s.c := by
  induction h with
  | none => rfl
  | setC b hc _ _ => rw [hi] at hc; cases hc
  | setX _ _ _ _ ih | setV _ _ _ _ ih | setBsel _ _ _ ih | halt _ _ ih | setKeys _ _ _ _ ih | setDmem _ _ ih => exact ih

theorem Writes.bsel (h : Writes i s u) (hi : ∀ csr xa, i ≠ .csrw csr xa) : u.bsel = s.bsel := by
  induction h with
  | none => rfl
  | setBsel b hb _ _ => obtain ⟨csr, xa, rfl⟩ := hb; exact absurd rfl (hi csr xa)
  | setX _ _ _ _ ih | setV _ _ _ _ ih | setC _ _ _ ih | halt _ _ ih | setKeys _ _ _ _ ih | setDmem _ _ ih => exact ih

/-- `STATE` changes on the way to completion by `HALT` alone. -/
theorem Writes.run (h : Writes i s u) : u.run = s.run ∨ (i = .halt ∧ u.run = .halted) := by
  induction h with
  | none => exact .inl rfl
  | halt hi _ _ => exact .inr ⟨hi, rfl⟩
  | setX _ _ _ _ ih | setV _ _ _ _ ih | setC _ _ _ ih | setBsel _ _ _ ih | setKeys _ _ _ _ ih | setDmem _ _ ih => exact ih

/-- `RDY` and the bank change by a `KEXP` with `RDY` clear alone, to the expansion of a key (10_state.md R29 to R31). -/
theorem Writes.bank (h : Writes i s u) : (u.rdy = s.rdy ∧ u.rk = s.rk) ∨
    ((∃ va, i = .kexp va) ∧ s.rdy = false ∧ u.rdy = true ∧ ∃ key, u.rk = keyExpand key) := by
  induction h with
  | none => exact .inl ⟨rfl, rfl⟩
  | setKeys key hi hr _ _ => exact .inr ⟨hi, hr, rfl, key, rfl⟩
  | setX _ _ _ _ ih | setV _ _ _ _ ih | setC _ _ _ ih | setBsel _ _ _ ih | halt _ _ ih | setDmem _ _ ih => exact ih

theorem Writes.dmem (h : Writes i s u) : StoredIn s.cfg.dmemBytes (storedRange s i) s.dmem u.dmem := by
  induction h with
  | none => exact .refl ..
  | setDmem hm _ ih => exact ih.trans hm
  | setX _ _ _ _ ih | setV _ _ _ _ ih | setC _ _ _ ih | setBsel _ _ _ ih | halt _ _ ih | setKeys _ _ _ _ ih => exact ih

/-! Faults. -/

theorem FaultOf.ne_noFault (h : FaultOf i s f info) : f ≠ .noFault := by
  rintro rfl
  cases h with
  | word hf => exact hf
  | access _ hc => simp [accessCheck_some] at hc
  | slice hc => simp [sliceCheck_some] at hc

/-- What a fault records, by cause (10_state.md R44): the word, or an address at which no Block of data memory starts. -/
theorem FaultOf.info_fits (h : FaultOf i s f info) (hwf : s.cfg.wf = true) :
    (f.recordsWord ∧ info = (encode i).setWidth 128) ∨ (f = .misalignedAccess ∧ info.toNat % 16 ≠ 0) ∨
    (f = .accessFault ∧ s.cfg.dmemBytes < info.toNat + 16) := by
  cases h with
  | word hf => exact .inl ⟨hf, rfl⟩
  | @access _ n hn hc =>
    have hle : n ≤ 16 := Nat.le_of_dvd (by decide) hn
    rcases accessCheck_some.mp hc with ⟨ha, rfl⟩ | ⟨-, hr, rfl⟩
    · exact .inr (.inl ⟨rfl, fun h16 => ha (Nat.mod_eq_zero_of_dvd (hn.trans (Nat.dvd_of_mod_eq_zero h16)))⟩)
    · exact .inr (.inr ⟨rfl, by omega⟩)
  | @slice _ base count hc =>
    rcases sliceCheck_some.mp hc with ⟨ha, rfl, rfl⟩ | ⟨-, -, rfl, rfl⟩
    · exact .inr (.inl ⟨rfl, ha⟩)
    · have hsize : s.cfg.dmemBytes ≤ 2 ^ 32 := by simp [Config.wf] at hwf; omega
      refine .inr (.inr ⟨rfl, ?_⟩)
      split
      · omega
      · rw [BitVec.toNat_ofNat]; omega

/-! What an instruction leaves alone, part by part. -/

/-- An instruction that does not fault leaves `STATE`, but for `HALT` (10_state.md R33). -/
theorem Effect.run (h : Effect i s t) :
    t.run = s.run ∨ (i = .halt ∧ t.run = .halted) ∨ ∃ f info, FaultOf i s f info ∧ t = takeFault f info s := by
  cases h with
  | completes hw => exact hw.run.imp_right .inl
  | transfers off => exact .inl rfl
  | faults hf => exact .inr (.inr ⟨_, _, hf, rfl⟩)

/-- The pc after an instruction (10_state.md R36, 45_move_memory_control.md R209). -/
theorem Effect.pc (h : Effect i s t) : t.pc = s.pc ∨ t.pc = s.pc + 4 ∨ ∃ off, t.pc = branchTarget off s := by
  cases h with
  | completes hw =>
    obtain ⟨-, -, hpc, -⟩ := hw.fixed
    exact .inr (.inl (by rw [State.advance_pc, hpc]))
  | transfers off => exact .inr (.inr ⟨off, rfl⟩)
  | faults _ => exact .inl rfl

theorem branchTarget_aligned (off : BitVec 16) (h : s.pc.toNat % 4 = 0) : (branchTarget off s).toNat % 4 = 0 := by
  have := branchTarget_toNat off s
  omega

/-- `RDY` and the bank change by a `KEXP` with `RDY` clear alone (10_state.md R29, R30). -/
theorem Effect.bank (h : Effect i s t) : (t.rdy = s.rdy ∧ t.rk = s.rk) ∨
    ((∃ va, i = .kexp va) ∧ s.rdy = false ∧ t.rdy = true) := by
  cases h with
  | completes hw => exact hw.bank.imp_right fun ⟨hi, hs, hu, _⟩ => ⟨hi, hs, hu⟩
  | transfers _ | faults _ => exact .inl ⟨rfl, rfl⟩

theorem Effect.getX (h : Effect i s t) {r : XReg} (hr : r ∉ xDestsOf i) : t.getX r = s.getX r := by
  cases h with
  | completes hw => exact hw.getX hr
  | transfers _ | faults _ => rfl

theorem Effect.getV (h : Effect i s t) {r : VReg} (hr : r ∉ vDestsOf i) : t.getV r = s.getV r := by
  cases h with
  | completes hw => exact hw.getV hr
  | transfers _ | faults _ => rfl

theorem Effect.c (h : Effect i s t) (hi : writesC i = false) : t.c = s.c := by
  cases h with
  | completes hw => exact hw.c hi
  | transfers _ | faults _ => rfl

theorem Effect.bsel (h : Effect i s t) (hi : ∀ csr xa, i ≠ .csrw csr xa) : t.bsel = s.bsel := by
  cases h with
  | completes hw => exact hw.bsel hi
  | transfers _ | faults _ => rfl

theorem Effect.faultRegisters (h : Effect i s t) (hrun : t.run ≠ .faulted) :
    t.cause = s.cause ∧ t.epc = s.epc ∧ t.finfo = s.finfo := by
  cases h with
  | completes hw =>
    obtain ⟨-, -, -, hfault⟩ := hw.fixed
    exact hfault
  | transfers _ => exact ⟨rfl, rfl, rfl⟩
  | faults _ => exact absurd rfl hrun

end Sys2Proof.Machine
end

section
/-! SUPPORT. The step, case by case (10_state.md R35). -/

namespace Sys2Proof.Machine

variable {i : Instr} {s t : State}

theorem decode_fetchBytes (s : State) : decode (fetchBytes s) = (decodeWord (fetchWord s)).map fun i => (i, []) := by
  unfold fetchBytes decode fetchWord
  dsimp only
  cases decodeWord (wordOfBytes _ _ _ _) <;> rfl

theorem fetchable_iff : fetchable s = true ↔ s.pc.toNat % 4 = 0 ∧ s.pc.toNat + 4 ≤ s.cfg.imemBytes := by
  simp [fetchable]

theorem step_unfetchable (hrun : s.run = .running) (hf : fetchable s = false) : step s = raiseFetch s := by
  simp [step, hrun, hf]

theorem step_illegal {e : DecodeError} (hrun : s.run = .running) (hf : fetchable s = true)
    (hd : decodeWord (fetchWord s) = .error e) : step s = raiseFetchedIllegal s := by
  simp [step, hrun, hf, decode_fetchBytes, hd, Except.map]

theorem step_exec (hrun : s.run = .running) (hf : fetchable s = true) (hd : decodeWord (fetchWord s) = .ok i) :
    step s = exec i s := by
  simp [step, hrun, hf, decode_fetchBytes, hd, Except.map]

theorem running_of_step (h : step s = .next t) : s.run = .running := by
  unfold step at h
  split at h
  · cases h
  · cases h
  · assumption

/-- Everything a step can do (10_state.md R35). -/
theorem step_cases (h : step s = .next t) : s.run = .running ∧
    ((fetchable s = false ∧ t = takeFault .fetchFault (s.pc.setWidth 128) s) ∨
    (fetchable s = true ∧ (∃ e, decodeWord (fetchWord s) = .error e) ∧
      t = takeFault .illegalInstruction ((fetchWord s).setWidth 128) s) ∨
    (fetchable s = true ∧ ∃ i, decodeWord (fetchWord s) = .ok i ∧ exec i s = .next t)) := by
  have hrun := running_of_step h
  refine ⟨hrun, ?_⟩
  cases hf : fetchable s with
  | false => exact .inl ⟨rfl, raise_next_iff.mp ((step_unfetchable hrun hf).symm.trans h)⟩
  | true =>
    cases hd : decodeWord (fetchWord s) with
    | error e => exact .inr (.inl ⟨rfl, ⟨e, rfl⟩, raise_next_iff.mp ((step_illegal hrun hf hd).symm.trans h)⟩)
    | ok i => exact .inr (.inr ⟨rfl, i, rfl, (step_exec hrun hf hd).symm.trans h⟩)

end Sys2Proof.Machine
end

section
/-! SUPPORT. The invariant holds at reset and is kept by every move of the engine and of the host. -/

namespace Sys2Proof.Machine

variable {i : Instr} {s t u : State} {f : Cause} {info : Word}

/-- No fault is recorded outside FAULTED (10_state.md R42). -/
theorem State.Inv.cause_eq (h : s.Inv) (hrun : s.run ≠ .faulted) : s.cause = .noFault :=
  not_not.mp fun hc => hrun (h.faulted_iff.mpr hc)

theorem takeFault_inv (h : s.Inv) (hf : f ≠ .noFault) : (takeFault f info s).Inv :=
  { h with
    faulted_iff := ⟨fun _ => hf, fun _ => rfl⟩
    no_fault := fun e => absurd e hf }

/-- The reset state of every engine meets the invariant, whatever its memories hold (70_reset_and_hazards.md R260, R262). -/
theorem resetOn_inv (c : Config) (imem dmem : Memory) (hc : c.wf = true) (hi : imem.wf = true)
    (hi' : imem.inside c.imemBytes = true) (hd : dmem.wf = true) (hd' : dmem.inside c.dmemBytes = true) :
    State.Inv { State.resetOn c with imem := imem, dmem := dmem } where
  cfg_wf := hc
  imem_wf := hi
  imem_inside := hi'
  dmem_wf := hd
  dmem_inside := hd'
  faulted_iff := by simp [State.resetOn]
  no_fault := fun _ => ⟨rfl, rfl⟩
  keys := nofun

theorem Writes.inv (h : Writes i s u) (hs : s.Inv) (hrun : s.run = .running) : u.Inv := by
  obtain ⟨hcfg, himem, -, hcause, hepc, hfinfo⟩ := h.fixed
  have hc : s.cause = .noFault := hs.cause_eq (by simp [hrun])
  constructor
  case cfg_wf => rw [hcfg]; exact hs.cfg_wf
  case imem_wf => rw [himem]; exact hs.imem_wf
  case imem_inside => rw [himem, hcfg]; exact hs.imem_inside
  case dmem_wf => exact h.dmem.wf hs.dmem_wf
  case dmem_inside => rw [hcfg]; exact h.dmem.inside hs.dmem_inside
  case faulted_iff =>
    have hu : u.run ≠ .faulted := by
      rcases h.run with e | ⟨-, e⟩
      · rw [e, hrun]; decide
      · rw [e]; decide
    simp [hu, hcause, hc]
  case no_fault => rw [hcause, hepc, hfinfo]; exact hs.no_fault
  case keys =>
    rcases h.bank with ⟨hrdy, hrk⟩ | ⟨-, -, -, key, hkey⟩
    · rw [hrdy, hrk]; exact hs.keys
    · exact fun _ => ⟨key, hkey⟩

theorem setPc_inv (h : s.Inv) (a : CodeAddr) : (s.setPc a).Inv := { h with }

theorem exec_inv (h : s.Inv) (hrun : s.run = .running) (he : exec i s = .next t) : t.Inv := by
  cases exec_effect he with
  | completes hw => exact setPc_inv (hw.inv h hrun) _
  | transfers off => exact setPc_inv h _
  | faults hf => exact takeFault_inv h hf.ne_noFault

theorem step_inv (h : s.Inv) (hs : step s = .next t) : t.Inv := by
  obtain ⟨hrun, ⟨-, rfl⟩ | ⟨-, -, rfl⟩ | ⟨-, i, -, he⟩⟩ := step_cases hs
  · exact takeFault_inv h (by decide)
  · exact takeFault_inv h (by decide)
  · exact exec_inv h hrun he

theorem hostMove_next_iff {allowed : Bool} {v : State} : hostMove allowed v = .next t ↔ allowed = true ∧ t = v := by
  cases allowed <;> simp [hostMove, eq_comm]

/-- Every operation of the host keeps the invariant (60_exceptions.md R250). -/
theorem hostStep_inv {op : HostOp} (h : s.Inv) (hs : hostStep op s = .next t) : t.Inv := by
  cases op with
  | reset =>
    cases hs
    exact resetOn_inv _ _ _ h.cfg_wf h.imem_wf h.imem_inside h.dmem_wf h.dmem_inside
  | writeImem a b =>
    obtain ⟨ha, rfl⟩ := hostMove_next_iff.mp hs
    have hlt : a < s.cfg.imemBytes := by simpa using (Bool.and_eq_true_iff.mp ha).2
    exact { h with
      imem_wf := s.imem.wf_write a b h.imem_wf
      imem_inside := s.imem.inside_write a _ b hlt h.imem_inside }
  | writeDmem a b =>
    obtain ⟨ha, rfl⟩ := hostMove_next_iff.mp hs
    have hlt : a < s.cfg.dmemBytes := by simpa using (Bool.and_eq_true_iff.mp ha).2
    exact { h with
      dmem_wf := s.dmem.wf_write a b h.dmem_wf
      dmem_inside := s.dmem.inside_write a _ b hlt h.dmem_inside }
  | writePc v =>
    obtain ⟨-, rfl⟩ := hostMove_next_iff.mp hs
    exact setPc_inv h v
  | writeCtrl v =>
    obtain ⟨-, rfl⟩ := hostMove_next_iff.mp hs
    exact { h with }
  | start =>
    cases hs
    unfold hostStart
    split
    · next hrun =>
      have hc : s.cause = .noFault := h.cause_eq (by simp [hrun])
      exact { h with faulted_iff := by simp [hc] }
    · exact h

theorem reachable_inv (h : Reachable s) : s.Inv := by
  induction h with
  | powerOn c imem dmem hc hi hi' hd hd' => exact resetOn_inv c imem dmem hc hi hi' hd hd'
  | move _ hm ih =>
    cases hm with
    | engine hs => exact step_inv ih hs
    | host op hs => exact hostStep_inv ih hs

end Sys2Proof.Machine
end

section
/-! SUPPORT. The values `CSRR` reads (10_state.md R38 to R44). -/

namespace Sys2Proof.Machine

variable {i : Instr} {s : State}

theorem readCsr_cap_toNat (s : State) :
    (readCsr .cap s).toNat = s.cfg.hasX86Aes.toNat + 2 * s.cfg.hasArmAes.toNat := by
  simp only [readCsr, BitVec.toNat_setWidth_of_le (show 1 + 1 ≤ 128 by decide), toNat_append_add, BitVec.toNat_ofBool]
  omega

theorem readCsr_status_toNat (s : State) :
    (readCsr .status s).toNat = s.c.toNat + 2 * s.rdy.toNat + 4 * (runCode s.run).toNat := by
  simp only [readCsr, BitVec.toNat_setWidth_of_le (show 2 + 1 + 1 ≤ 128 by decide), toNat_append_add, BitVec.toNat_ofBool]
  omega

theorem csrr_completes (xd : XReg) (csr : Csr) (s : State) :
    Completes (.csrr xd csr) s (· = .x xd) fun t => t.getX xd = readCsr csr s :=
  .of_finish rfl rfl (by simp) (setX_only xd _ s)

theorem Completes.weaken {changes : Part → Prop} {post post' : State → Prop} (h : Completes i s changes post)
    (hp : ∀ t, post t → post' t) : Completes i s changes post' := by
  obtain ⟨t, he, ht, hrest⟩ := h
  exact ⟨t, he, hp t ht, hrest⟩

end Sys2Proof.Machine
end

section
/-! SUPPORT. `BSEL` and the bank seen from every instruction: what goes on alike when they are changed. -/

namespace Sys2Proof.Machine

variable {i : Instr} {s t : State}

/-! The whole-cipher meanings by the reference functions: the path is gone (44_aes_cipher_ops.md R174, R179). -/

/-- Whether the engine has a backend (44_aes_cipher_ops.md R170). -/
def hasBackend (s : State) : Bool := s.cfg.hasX86Aes || s.cfg.hasArmAes

/-- The backend check before a meaning that no path changes. -/
theorem withPath_blind (i : Instr) (s : State) (r : Result) :
    withPath i s (fun _ => r) = if hasBackend s then r else raiseWord .unsupportedHardware i s := by
  have hp := pathOf_isSome s
  unfold withPath hasBackend
  rw [← hp]
  cases pathOf s <;> rfl

theorem execKexp_eq (va : VReg) (s : State) : execKexp va s =
    if hasBackend s then
      if s.rdy then raiseWord .keyScheduleLocked (.kexp va) s else finish (s.setKeys (keyExpand (s.getV va)))
    else raiseWord .unsupportedHardware (.kexp va) s := by
  simp only [execKexp, keyExpandOn_eq, withPath_blind]

/-- The two checks of the encryption instructions before a meaning that no path changes. -/
theorem withCipher_blind (i : Instr) (s : State) (r : Result) : withCipher i s (fun _ => r) =
    if hasBackend s then if s.rdy then r else raiseWord .cipherNotReady i s else raiseWord .unsupportedHardware i s :=
  withPath_blind i s _

/-- With `RDY` clear the checks of the encryption instructions let nothing through (R180 to R182). -/
theorem withCipher_of_not_rdy (i : Instr) (k : Path → Result) (h : s.rdy = false) :
    withCipher i s k = raiseWord (if hasBackend s then .cipherNotReady else .unsupportedHardware) i s := by
  simp only [withCipher, h, Bool.false_eq_true, if_false, withPath_blind]
  split <;> rfl

/-! `BSEL` and the bank, set to given values, and a result seen through that. -/

/-- The state with `BSEL` and the bank changed, and nothing else: `setBsel b` is `veil (fun _ => b) id`, and `setBank ks` is
`veil id (fun _ => ks)`. -/
def State.veil (f : Bool → Bool) (g : Vector Block 11 → Vector Block 11) (s : State) : State :=
  { s with bsel := f s.bsel, rk := g s.rk }

/-- `RK[0..10] <- ks`, without `RDY`. -/
def State.setBank (ks : Vector Block 11) (s : State) : State := { s with rk := ks }

@[simp] theorem State.setBank_rdy (ks : Vector Block 11) (s : State) : (s.setBank ks).rdy = s.rdy := rfl

@[simp] theorem hasBackend_setBank (ks : Vector Block 11) (s : State) : hasBackend (s.setBank ks) = hasBackend s := rfl

@[simp] theorem hasBackend_setBsel (b : Bool) (s : State) : hasBackend (s.setBsel b) = hasBackend s := rfl

/-- A result whose next state, if any, goes through `g`. -/
def mapNext (g : State → State) : Result → Result
  | .next t => .next (g t)
  | .fault r => .fault r
  | .refused r => .refused r

/-- The instructions whose meaning reads or writes `BSEL` or the bank. -/
def touchesVeiled : Instr → Bool
  | .csrr _ .ctrl | .csrw _ _ | .vldrk _ _ | .kexp _ | .encb _ _ | .encm _ _ _ | .encs _ _ => true
  | _ => false

section
variable {f : Bool → Bool} {g : Vector Block 11 → Vector Block 11}

@[simp] theorem State.veil_cfg : (s.veil f g).cfg = s.cfg := rfl

@[simp] theorem accessCheck_veil (addr : Word) (n : Nat) : accessCheck (s.veil f g) addr n = accessCheck s addr n := rfl

theorem memRead_veil {addr : Word} {n : Nat} {k k' : Word → Result}
    (h : ∀ v, k' v = mapNext (State.veil f g) (k v)) :
    memRead (s.veil f g) addr n k' = mapNext (State.veil f g) (memRead s addr n k) := by
  rw [memRead, memRead, accessCheck_veil]
  cases accessCheck s addr n with
  | none => exact h _
  | some _ => rfl

theorem memWrite_veil {addr : Word} {n v : Nat} :
    memWrite (s.veil f g) addr n v finish = mapNext (State.veil f g) (memWrite s addr n v finish) := by
  rw [memWrite, memWrite, accessCheck_veil]
  cases accessCheck s addr n <;> rfl

theorem branchIf_veil (taken : Bool) (off : BitVec 16) :
    branchIf taken off (s.veil f g) = mapNext (State.veil f g) (branchIf taken off s) := by
  cases taken <;> rfl

theorem writeWide_veil {w : Width} {xl xh : XReg} {p : Nat} :
    writeWide w i xl xh p (s.veil f g) = mapNext (State.veil f g) (writeWide w i xl xh p s) := by
  unfold writeWide
  split <;> rfl

theorem withX86_veil {r r' : Result} (h : r' = mapNext (State.veil f g) r) :
    withX86 i (s.veil f g) r' = mapNext (State.veil f g) (withX86 i s r) := by
  rw [withX86, withX86, State.veil_cfg, h]
  split <;> rfl

theorem withArm_veil {r r' : Result} (h : r' = mapNext (State.veil f g) r) :
    withArm i (s.veil f g) r' = mapNext (State.veil f g) (withArm i s r) := by
  rw [withArm, withArm, State.veil_cfg, h]
  split <;> rfl

theorem loadX_veil {w : Width} {xd xa : XReg} {d : BitVec 12} :
    loadX w xd xa d (s.veil f g) = mapNext (State.veil f g) (loadX w xd xa d s) := memRead_veil fun _ => rfl

theorem storeX_veil {w : Width} {xs xa : XReg} {d : BitVec 12} :
    storeX w xs xa d (s.veil f g) = mapNext (State.veil f g) (storeX w xs xa d s) := memWrite_veil

/-- An instruction that neither reads nor writes `BSEL` or the bank does the same under any values of them. -/
theorem exec_veil (h : touchesVeiled i = false) (s : State) (f : Bool → Bool)
    (g : Vector Block 11 → Vector Block 11) : exec i (s.veil f g) = mapNext (State.veil f g) (exec i s) := by
  cases i <;> simp only [exec]
  case csrw | vldrk | kexp | encb | encm | encs => cases h
  case csrr xd csr =>
    cases csr with
    | ctrl => cases h
    | cap | status | cause | epc | finfo => rfl
  case jmp | bz | bnz | bc | bnc => exact branchIf_veil _ _
  case ldx8 | ldx16 | ldx32 | ldx64 | ldx128 => exact loadX_veil
  case stx8 | stx16 | stx32 | stx64 | stx128 => exact storeX_veil
  case vld => exact memRead_veil fun _ => rfl
  case vst => exact memWrite_veil
  case wmul8 | wmul16 | wmul32 | wmul64 | wmul128 | cmul8 | cmul16 | cmul32 | cmul64 | cmul128 => exact writeWide_veil
  case aesenc | aesenclast | aeskeygenassist => exact withX86_veil rfl
  case aese | aesmc => exact withArm_veil rfl
  all_goals rfl

end

/-! `BSEL`. -/

theorem writeRun_setBsel (vd : VReg) (j : Nat) (bs : List Block) (s : State) (b : Bool) :
    writeRun vd j bs (s.setBsel b) = (writeRun vd j bs s).setBsel b := by
  induction bs generalizing j s with
  | nil => rfl
  | cons x bs ih => exact ih (j + 1) (s.setV (regAfter vd j) x)

theorem withCipher_setBsel (b : Bool) {r r' : Result} (h : r' = mapNext (State.setBsel · b) r) :
    withCipher i (s.setBsel b) (fun _ => r') = mapNext (State.setBsel · b) (withCipher i s fun _ => r) := by
  rw [withCipher_blind, withCipher_blind, hasBackend_setBsel, State.setBsel_rdy, h]
  cases hasBackend s <;> cases s.rdy <;> rfl

theorem execVldrk_setBsel (vd : VReg) (idx : Fin 11) (s : State) (b : Bool) :
    execVldrk vd idx (s.setBsel b) = mapNext (State.setBsel · b) (execVldrk vd idx s) := by
  unfold execVldrk
  rw [State.setBsel_rdy]
  split <;> rfl

theorem execKexp_setBsel (va : VReg) (s : State) (b : Bool) :
    execKexp va (s.setBsel b) = mapNext (State.setBsel · b) (execKexp va s) := by
  rw [execKexp_eq, execKexp_eq, hasBackend_setBsel, State.setBsel_rdy]
  cases hasBackend s <;> cases s.rdy <;> rfl

theorem execEncb_setBsel (vd va : VReg) (s : State) (b : Bool) :
    execEncb vd va (s.setBsel b) = mapNext (State.setBsel · b) (execEncb vd va s) := by
  simp only [execEncb, encryptOn_eq]
  exact withCipher_setBsel b rfl

theorem execEncm_setBsel (vd va : VReg) (n : Fin 9) (s : State) (b : Bool) :
    execEncm vd va n (s.setBsel b) = mapNext (State.setBsel · b) (execEncm vd va n s) := by
  simp only [execEncm, encryptOn_eq]
  split
  · refine withCipher_setBsel b ?_
    rw [writeRun_setBsel]
    rfl
  · rfl

theorem execEncs_setBsel (xa xn : XReg) (s : State) (b : Bool) :
    execEncs xa xn (s.setBsel b) = mapNext (State.setBsel · b) (execEncs xa xn s) := by
  simp only [execEncs, encryptOn_eq]
  refine withCipher_setBsel b ?_
  have hc : ∀ base count, sliceCheck (s.setBsel b) base count = sliceCheck s base count := fun _ _ => rfl
  simp only [State.setBsel_getX, hc]
  split
  · rfl
  · cases sliceCheck s (s.getX xa) (s.getX xn).toNat <;> rfl

/-- Every instruction but those that read or write `CTRL` does the same under either value of `BSEL` (10_state.md R32). -/
theorem exec_setBsel (hr : ∀ xd, i ≠ .csrr xd .ctrl) (hw : ∀ csr xa, i ≠ .csrw csr xa) (s : State) (b : Bool) :
    exec i (s.setBsel b) = mapNext (State.setBsel · b) (exec i s) := by
  cases hv : touchesVeiled i with
  | false => exact exec_veil hv s (fun _ => b) id
  | true =>
    cases i
    case csrr xd csr =>
      cases csr with
      | ctrl => exact absurd rfl (hr xd)
      | cap | status | cause | epc | finfo => cases hv
    case csrw csr xa => exact absurd rfl (hw csr xa)
    case vldrk vd idx => exact execVldrk_setBsel vd idx s b
    case kexp va => exact execKexp_setBsel va s b
    case encb vd va => exact execEncb_setBsel vd va s b
    case encm vd va n => exact execEncm_setBsel vd va n s b
    case encs xa xn => exact execEncs_setBsel xa xn s b
    all_goals cases hv

/-! The bank. -/

theorem withCipher_setBank (ks : Vector Block 11) (k k' : Path → Result) (h : s.rdy = false) :
    withCipher i (s.setBank ks) k' = mapNext (State.setBank ks) (withCipher i s k) := by
  rw [withCipher_of_not_rdy i k' (s := s.setBank ks) h, withCipher_of_not_rdy i k h]
  rfl

theorem execCsrw_setBank (csr : Csr) (xa : XReg) (s : State) (ks : Vector Block 11) :
    execCsrw csr xa (s.setBank ks) = mapNext (State.setBank ks) (execCsrw csr xa s) := by
  unfold execCsrw
  split <;> rfl

theorem execVldrk_setBank (vd : VReg) (idx : Fin 11) (ks : Vector Block 11) (h : s.rdy = false) :
    execVldrk vd idx (s.setBank ks) = mapNext (State.setBank ks) (execVldrk vd idx s) := by
  simp only [execVldrk, State.setBank_rdy, h]
  rfl

theorem execEncm_setBank (vd va : VReg) (n : Fin 9) (ks : Vector Block 11) (h : s.rdy = false) :
    execEncm vd va n (s.setBank ks) = mapNext (State.setBank ks) (execEncm vd va n s) := by
  unfold execEncm
  split
  · exact withCipher_setBank ks _ _ h
  · rfl

/-- While `RDY` is clear, every instruction but `KEXP` does the same whatever the bank holds (10_state.md R30). -/
theorem exec_setBank (hk : ∀ va, i ≠ .kexp va) (h : s.rdy = false) (ks : Vector Block 11) :
    exec i (s.setBank ks) = mapNext (State.setBank ks) (exec i s) := by
  cases hv : touchesVeiled i with
  | false => exact exec_veil hv s id fun _ => ks
  | true =>
    cases i
    case csrr xd csr => rfl
    case csrw csr xa => exact execCsrw_setBank csr xa s ks
    case vldrk vd idx => exact execVldrk_setBank vd idx ks h
    case kexp va => exact absurd rfl (hk va)
    case encb vd va => exact withCipher_setBank ks _ _ h
    case encm vd va n => exact execEncm_setBank vd va n ks h
    case encs xa xn => exact withCipher_setBank ks _ _ h
    all_goals cases hv

/-- While `RDY` is clear, a `KEXP` that completes replaces the whole bank, and one that faults touches none of it (R175). -/
theorem execKexp_setBank {va : VReg} (ks : Vector Block 11) (h : s.rdy = false) (he : execKexp va s = .next t) :
    execKexp va (s.setBank ks) = .next (if t.rdy then t else t.setBank ks) := by
  rw [execKexp_eq, h] at he
  rw [execKexp_eq, hasBackend_setBank, State.setBank_rdy, h]
  cases hbk : hasBackend s <;> rw [hbk] at he
  · obtain rfl := raiseWord_next_iff.mp he
    rw [takeFault_rdy, h]
    rfl
  · obtain rfl := finish_next_iff.mp he
    rfl

/-- Two states with `RDY` clear that differ in the bank alone go on alike, and to one state when `RDY` is set. -/
theorem exec_setBank_next (ks : Vector Block 11) (h : s.rdy = false) (he : exec i s = .next t) :
    exec i (s.setBank ks) = .next (if t.rdy then t else t.setBank ks) := by
  by_cases hi : ∃ va, i = .kexp va
  · obtain ⟨va, rfl⟩ := hi
    exact execKexp_setBank ks h he
  · have ht : t.rdy = false := by
      rcases (exec_effect he).bank with ⟨hr, -⟩ | ⟨hk, -⟩
      · exact hr.trans h
      · exact absurd hk hi
    rw [exec_setBank (fun va e => hi ⟨va, e⟩) h, he, ht]
    rfl

end Sys2Proof.Machine
end

section
/-! The statements of the family 10_state.md, settled. -/

namespace Sys2Proof.Machine

/-- Settles O11: a fault of the step or of the instruction records what `FaultOf.info_fits` says, and a word that decodes is its
instruction's (`decodeWord_ok`). -/
theorem faultInformationByCause : Obligations.FaultInformationByCause := by
  intro s t hwf hs ht
  obtain ⟨hrun, ⟨-, rfl⟩ | ⟨-, -, rfl⟩ | ⟨-, i, hd, he⟩⟩ := step_cases hs
  · rfl
  · rfl
  · rcases (exec_effect he).run with hr | ⟨-, hr⟩ | ⟨f, info, hf, rfl⟩
    · rw [hr, hrun] at ht; cases ht
    · rw [hr] at ht; cases ht
    · rcases hf.info_fits hwf with ⟨hw, rfl⟩ | ⟨rfl, ha⟩ | ⟨rfl, ha⟩
      · have hword := congrArg (BitVec.setWidth 128) (decodeWord_ok hd).2
        cases f
        case illegalInstruction | unsupportedHardware | cipherNotReady | keyScheduleLocked => exact hword
        case noFault | misalignedAccess | accessFault | fetchFault => exact hw.elim
      · exact ha
      · exact ha

/-- Settles O14, by the cases of the step and the writes of the instruction. -/
theorem stepKeepsInvariant : Obligations.StepKeepsInvariant := fun _ _ => step_inv

/-- Settles O15, by induction on the moves of the engine and of the host. -/
theorem reachableStatesMeetInvariant : Obligations.ReachableStatesMeetInvariant := fun _ => reachable_inv

/-- Settles O18, from the writes of the instruction. -/
theorem registersChangeOnlyWhereNamed : Obligations.RegistersChangeOnlyWhereNamed := fun _ _ _ he =>
  ⟨fun _ hr => (exec_effect he).getX hr, fun _ hr => (exec_effect he).getV hr⟩

/-- Settles O21: an instruction reads `BSEL` for its path alone, and both paths compute the reference functions. -/
theorem backendSelectChangesNoResult : Obligations.BackendSelectChangesNoResult := by
  intro i s t b hr hw he
  rw [exec_setBsel hr hw, he]
  rfl

/-- Settles O22: with `RDY` clear nothing reads the bank, and a `KEXP` that completes replaces it. -/
theorem unreadyBankIsUnobservable : Obligations.UnreadyBankIsUnobservable := by
  intro i s t ks hrdy he
  refine ⟨_, exec_setBank_next ks hrdy he, ?_⟩
  cases t.rdy with
  | true => exact ⟨rfl, fun _ => rfl⟩
  | false => exact ⟨rfl, nofun⟩

/-- Settles O9, by the cases of the step. -/
theorem engineStepsExactlyWhenRunning : Obligations.EngineStepsExactlyWhenRunning := by
  refine ⟨fun s => ⟨fun ⟨t, h⟩ => running_of_step h, fun hrun => ?_⟩, exec_total⟩
  cases hf : fetchable s with
  | false => exact ⟨_, step_unfetchable hrun hf⟩
  | true =>
    cases hd : decodeWord (fetchWord s) with
    | error e => exact ⟨_, step_illegal hrun hf hd⟩
    | ok i => rw [step_exec hrun hf hd]; exact exec_total i s

/-- Settles O16: the pc stays, advances by 4, or goes to a branch target. -/
theorem pcStaysAligned : Obligations.PcStaysAligned := by
  intro s t h ha
  obtain ⟨-, ⟨-, rfl⟩ | ⟨-, -, rfl⟩ | ⟨-, i, -, he⟩⟩ := step_cases h
  · exact ha
  · exact ha
  · rcases (exec_effect he).pc with e | e | ⟨off, e⟩
    · rw [e]; exact ha
    · rw [e]; bv_omega
    · rw [e]; exact branchTarget_aligned off ha

/-- Settles O17, from the writes of the instruction: the bank has one writer, `KEXP` with `RDY` clear. -/
theorem readyBankNeverChanges : Obligations.ReadyBankNeverChanges := by
  constructor
  · intro s t h hrdy
    obtain ⟨-, ⟨-, rfl⟩ | ⟨-, -, rfl⟩ | ⟨-, i, -, he⟩⟩ := step_cases h
    · exact ⟨hrdy, rfl⟩
    · exact ⟨hrdy, rfl⟩
    · rcases (exec_effect he).bank with ⟨hr, hk⟩ | ⟨-, hr, -⟩
      · exact ⟨hr.trans hrdy, hk⟩
      · rw [hrdy] at hr; cases hr
  · intro i s t he hchange
    rcases (exec_effect he).bank with ⟨hr, hk⟩ | ⟨⟨va, hi⟩, hs, ht⟩
    · exact hchange.elim (absurd hr) (absurd hk)
    · exact ⟨va, hi, hs, ht⟩

/-- Settles O19, from the effects of the instruction. -/
theorem statusChangesOnlyWhereSaid : Obligations.StatusChangesOnlyWhereSaid := by
  intro i s t he
  have h := exec_effect he
  refine ⟨h.c, h.bsel, h.faultRegisters, ?_⟩
  rcases h.run with hr | ⟨hi, -⟩ | ⟨f, info, -, rfl⟩
  · exact .inl hr
  · exact .inr (.inr hi)
  · exact .inr (.inl rfl)

/-- Settles O23: the invariant clears the fault registers of a running engine. -/
theorem programReadsNoFault : Obligations.ProgramReadsNoFault := by
  intro s xd hinv hrun
  have hcause : s.cause = .noFault := hinv.cause_eq (by simp [hrun])
  obtain ⟨hepc, hfinfo⟩ := hinv.no_fault hcause
  constructor
  · intro csr hcsr
    obtain ⟨t, he, hx, -⟩ := csrr_completes xd csr s
    refine ⟨t, he, hx.trans ?_⟩
    rcases hcsr with rfl | rfl | rfl
    · rw [readCsr, hcause]; rfl
    · rw [readCsr, hepc]; rfl
    · rw [readCsr, hfinfo]
  · obtain ⟨t, he, hx, -⟩ := csrr_completes xd .status s
    refine ⟨t, he, ?_⟩
    have hc := Bool.toNat_le s.c
    have hr := Bool.toNat_le s.rdy
    rw [hx, readCsr_status_toNat, hrun, show (runCode .running).toNat = 1 from rfl]
    omega

/-- Settles O26: the words by their fields, the values CSR by CSR. -/
theorem csrReadsGiveTheNamedBits : Obligations.CsrReadsGiveTheNamedBits := by
  refine ⟨fun xd csr => fmtImm12_toWord _ _ _, rfl, fun a n h => ⟨_, decodeWord_csrr_of_gt a h⟩, rfl, rfl,
    fun s xd csr => ?_⟩
  refine (csrr_completes xd csr s).weaken fun t ht => ?_
  rw [ht]
  cases csr with
  | cap => exact readCsr_cap_toNat s
  | status => exact readCsr_status_toNat s
  | ctrl => exact (BitVec.toNat_setWidth_of_le (by decide)).trans (BitVec.toNat_ofBool _)
  | cause | epc => exact BitVec.toNat_setWidth_of_le (by decide)
  | finfo => rfl

/-- Settles O5: the decoder reads the word that the four bytes at the pc make. -/
theorem stepRunsTheDecodedInstruction : Obligations.StepRunsTheDecodedInstruction := by
  intro s i rest hrun ha hr hd
  refine step_exec hrun (fetchable_iff.mpr ⟨ha, hr⟩) ?_
  rw [decode_fetchBytes] at hd
  cases hw : decodeWord (fetchWord s) with
  | error e => rw [hw] at hd; cases hd
  | ok j => rw [hw] at hd; cases hd; rfl

/-- Settles O13, clause by clause of the invariant. -/
theorem resetStateMeetsInvariant : Obligations.ResetStateMeetsInvariant :=
  ⟨resetOn_inv, resetOn_inv Config.testVectors [] [] (by decide) rfl rfl rfl rfl⟩

end Sys2Proof.Machine
end

section
/-! SUPPORT. What loads and stores do to memory: which bytes an instruction leaves alone, and the bytes of a store and a load. -/

namespace Sys2Proof.Machine

variable {i : Instr} {s t : State}

/-! What an instruction leaves alone. -/

/-- An instruction changes data memory in the bytes it stores alone (20_memory.md R53). -/
theorem Effect.dmem (h : Effect i s t) : StoredIn s.cfg.dmemBytes (storedRange s i) s.dmem t.dmem := by
  cases h with
  | completes hw => exact hw.dmem
  | transfers _ | faults _ => exact .refl ..

/-- No instruction writes the parameters or instruction memory (10_state.md R45, 20_memory.md R56). -/
theorem Effect.fixed (h : Effect i s t) : t.cfg = s.cfg ∧ t.imem = s.imem := by
  cases h with
  | completes hw =>
    obtain ⟨hcfg, himem, -⟩ := hw.fixed
    exact ⟨hcfg, himem⟩
  | transfers _ | faults _ => exact ⟨rfl, rfl⟩

/-! A store and a load that complete. -/

/-- A store that completes writes its bytes and advances the pc (45_move_memory_control.md R206). -/
theorem storeX_next {w : Width} {xs xa : XReg} {d : BitVec 12} (h : storeX w xs xa d s = .next t) (ht : t.run ≠ .faulted) :
    t = (s.setDmem (s.dmem.writeLE (effectiveAddress xa d s).toNat (widthBytes w) (readW w xs s))).advance := by
  rcases memWrite_next h with ⟨-, -, hf⟩ | ⟨f, -, rfl⟩
  · exact finish_next_iff.mp hf
  · exact absurd rfl ht

/-- A load that completes writes the value it read and advances the pc (45_move_memory_control.md R205). -/
theorem loadX_next {w : Width} {xd xa : XReg} {d : BitVec 12} (h : loadX w xd xa d s = .next t) (ht : t.run ≠ .faulted) :
    t = (s.setX xd (BitVec.ofNat 128 (s.dmem.readLE (effectiveAddress xa d s).toNat (widthBytes w)))).advance := by
  rcases memRead_next h with ⟨-, -, hf⟩ | ⟨f, -, rfl⟩
  · exact finish_next_iff.mp hf
  · exact absurd rfl ht

/-- The stored bytes of a W-bit register value are the low bytes of the register (20_memory.md R50). -/
theorem byte_readW {w : Width} {k : Nat} (hk : k < widthBytes w) (xs : XReg) (s : State) :
    BitVec.ofNat 8 (readW w xs s / 256 ^ k) = byteOf (s.getX xs) k := by
  apply BitVec.eq_of_toNat_eq
  have hsplit : 2 ^ widthBits w = 256 ^ k * 256 ^ (widthBytes w - k) := by
    rw [← pow_add, Nat.add_sub_cancel' hk.le, widthBits_eq, pow_mul, show (2 : Nat) ^ 8 = 256 from rfl]
  have hdvd : 256 ∣ 256 ^ (widthBytes w - k) := dvd_pow_self 256 (Nat.sub_pos_of_lt hk).ne'
  rw [byteOf_toNat, BitVec.toNat_ofNat, readW, hsplit, Nat.mod_mul_right_div_self]
  exact Nat.mod_mod_of_dvd _ hdvd

/-- Data memory after a store that completes: the bytes of the register where it stored, the older bytes elsewhere (R53). -/
theorem storeX_read {w : Width} {xs xa : XReg} {d : BitVec 12} (h : storeX w xs xa d s = .next t) (ht : t.run ≠ .faulted)
    (a : Nat) : t.dmem.read a =
      if (effectiveAddress xa d s).toNat ≤ a ∧ a < (effectiveAddress xa d s).toNat + widthBytes w then
        byteOf (s.getX xs) (a - (effectiveAddress xa d s).toNat)
      else s.dmem.read a := by
  rw [storeX_next h ht, State.advance_dmem, State.setDmem_dmem, Memory.read_writeLE]
  split
  · next ha => exact byte_readW (by omega) xs s
  · rfl

/-- The bytes of the register after a load that completes are those of data memory from the effective address on (R52). -/
theorem byteOf_loadX {w : Width} {xd xa : XReg} {d : BitVec 12} {k : Nat} (h : loadX w xd xa d s = .next t)
    (ht : t.run ≠ .faulted) (hk : k < widthBytes w) :
    byteOf (t.getX xd) k = s.dmem.read ((effectiveAddress xa d s).toNat + k) := by
  rw [loadX_next h ht, State.advance_getX, State.setX_getX, if_pos rfl, byteOf, byteOf_readLE _ _ _ _ (widthBytes_le w),
    if_pos hk]

/-- A store writes no X register, so it leaves every effective address (45_move_memory_control.md R206). -/
theorem effectiveAddress_storeX {w : Width} {xs xa : XReg} {d : BitVec 12} (h : storeX w xs xa d s = .next t)
    (ht : t.run ≠ .faulted) (xb : XReg) (d' : BitVec 12) : effectiveAddress xb d' t = effectiveAddress xb d' s := by
  rw [storeX_next h ht]
  rfl

end Sys2Proof.Machine
end

section
/-! SUPPORT. The fetched word and its bytes. -/

namespace Sys2Proof.Machine

/-- The fetched word as a sum of its four bytes (20_memory.md R51). -/
theorem fetchWord_toNat (s : State) : (fetchWord s).toNat =
    (s.imem.read s.pc.toNat).toNat + 256 * (s.imem.read (s.pc.toNat + 1)).toNat +
    65536 * (s.imem.read (s.pc.toNat + 2)).toNat + 16777216 * (s.imem.read (s.pc.toNat + 3)).toNat := by
  simp only [fetchWord, wordOfBytes, toNat_append_add]
  omega

/-- The opcode byte of the fetched word is the byte at the highest of its addresses (20_memory.md R51). -/
theorem fetchWord_opcode (s : State) : (fetchWord s).extractLsb' 24 8 = s.imem.read (s.pc.toNat + 3) := by
  apply BitVec.eq_of_toNat_eq
  have h0 := (s.imem.read s.pc.toNat).isLt
  have h1 := (s.imem.read (s.pc.toNat + 1)).isLt
  have h2 := (s.imem.read (s.pc.toNat + 2)).isLt
  have h3 := (s.imem.read (s.pc.toNat + 3)).isLt
  rw [toNat_extract, fetchWord_toNat]
  omega

end Sys2Proof.Machine
end

section
/-! The statements of the family 20_memory.md, settled. -/

namespace Sys2Proof.Machine

/-- Settles O20, from the effects of the instruction. -/
theorem memoryChangesOnlyWhereStored : Obligations.MemoryChangesOnlyWhereStored := by
  intro i s t he
  have h := exec_effect he
  obtain ⟨hcfg, himem⟩ := h.fixed
  exact ⟨h.dmem.outside, fun a => by rw [himem], hcfg⟩

/-- Settles O33: the load reads the memory that the store left, at an address the store does not move. -/
theorem loadAfterStoreSeesTheBytes : Obligations.LoadAfterStoreSeesTheBytes := by
  intro s t u w w' xs xa xd xb d d' hst ht hld hu k hk
  rw [exec_stx] at hst
  rw [exec_ldx] at hld
  rw [byteOf_loadX hld hu hk, effectiveAddress_storeX hst ht]
  exact storeX_read hst ht _

/-- Settles O8: the word is the sum of its bytes, and the decoder reads that word. -/
theorem fetchIsLittleEndian : Obligations.FetchIsLittleEndian := by
  refine fun s => ⟨fetchWord_toNat s, fetchWord_opcode s, fun i => ?_⟩
  rw [decode_fetchBytes]
  cases decodeWord (fetchWord s) with
  | error e => simp [Except.map]
  | ok j => simp [Except.map]

end Sys2Proof.Machine
end

section
/-! SUPPORT. The decoder on the fields that the encoder lays out (30_encoding.md R71 to R78): a must-be-zero nibble is zero, and
every operand is read back from where its format puts it. -/

namespace Sys2Proof

@[simp] theorem imm16_fmtImm16 (op : BitVec 8) (a b : BitVec 4) (imm : BitVec 16) : (fmtImm16 op a b imm).imm16 = imm :=
  join16 imm

@[simp] theorem imm12_fmtImm12 (op : BitVec 8) (a b c : BitVec 4) (imm : BitVec 12) : (fmtImm12 op a b c imm).imm12 = imm :=
  join12 imm

@[simp] theorem imm8_fmtV8 (op : BitVec 8) (a b : BitVec 4) (imm : BitVec 8) : (fmtV8 op a b imm).imm8 = imm :=
  join8 imm

/-! An arm that reads an immediate reads the one that was laid out. -/

theorem decodeFields_fmtImm16 {op : BitVec 8} {a b : BitVec 4} {imm : BitVec 16} {f : BitVec 16 → Instr}
    (h : decodeFields (fmtImm16 op a b imm) = .ok (f (fmtImm16 op a b imm).imm16)) :
    decodeFields (fmtImm16 op a b imm) = .ok (f imm) := by
  rwa [imm16_fmtImm16] at h

theorem decodeFields_fmtImm12 {op : BitVec 8} {a b c : BitVec 4} {imm : BitVec 12} {f : BitVec 12 → Instr}
    (h : decodeFields (fmtImm12 op a b c imm) = .ok (f (fmtImm12 op a b c imm).imm12)) :
    decodeFields (fmtImm12 op a b c imm) = .ok (f imm) := by
  rwa [imm12_fmtImm12] at h

theorem decodeFields_fmtV8 {op : BitVec 8} {a b : BitVec 4} {imm : BitVec 8} {f : BitVec 8 → Instr}
    (h : decodeFields (fmtV8 op a b imm) = .ok (f (fmtV8 op a b imm).imm8)) :
    decodeFields (fmtV8 op a b imm) = .ok (f imm) := by
  rwa [imm8_fmtV8] at h

theorem needZero_of_all_zero {zs : List (BitVec 4)} {k : Decoded} (h : zs.all (fun z => z == 0) = true) : needZero zs k = k :=
  if_pos h

theorem needLegal_of_wellFormed {why : DecodeError} {i : Instr} (h : i.wellFormed = true) : needLegal why i = .ok i :=
  if_pos h

/-- The fields of a legal instruction decode to it (30_encoding.md R72, R77, R78), format by format: where only registers and
width codes are read the arm computes, and elsewhere the rule that the arm ends with says what it answers. -/
theorem decodeFields_encodeFields {i : Instr} (h : i.wellFormed = true) : decodeFields (encodeFields i) = .ok i := by
  cases i
  -- Formats Z, R1, R2 and R3.
  case halt | clrc | setc | movx | vmov | vxor | aesenc | aesenclast | aese | aesmc | kexp | encb | encs => rfl
  case vldrk vd idx => exact (needZero_of_all_zero rfl).trans (needIndex_ofNat idx _)
  case encm vd va n =>
    exact (needZero_of_all_zero rfl).trans ((needCount_ofNat n _).trans (needLegal_of_wellFormed h))
  -- Formats J, B, I and IU.
  case jmp | bz | bnz | bc | bnc | li | addi | vimmw => exact decodeFields_fmtImm16 rfl
  -- Formats M, MV and C.
  case ldx8 | ldx16 | ldx32 | ldx64 | ldx128 | stx8 | stx16 | stx32 | stx64 | stx128 | vld | vst =>
    exact decodeFields_fmtImm12 rfl
  case csrr xd csr => exact (needZero_of_all_zero rfl).trans (needCsr_ok.mpr ⟨csr, imm12_fmtImm12 .., rfl⟩)
  case csrw csr xa =>
    exact (needZero_of_all_zero rfl).trans (needCsr_ok.mpr ⟨csr, imm12_fmtImm12 .., needLegal_of_wellFormed h⟩)
  -- Format V8.
  case vshufw | vsllb | aeskeygenassist => exact decodeFields_fmtV8 rfl
  case vrorw vd va n => exact (needZero_of_all_zero rfl).trans (needRotate_ok.mpr ⟨n, imm8_fmtV8 .., rfl⟩)
  -- Formats WA, WM and WC.
  case cadd8 sel | cadd16 sel | cadd32 sel | cadd64 sel | cadd128 sel => exact needCarrySel_code sel _
  case bsub8 sel | bsub16 sel | bsub32 sel | bsub64 sel | bsub128 sel => exact needCarrySel_code sel _
  case wmul8 | wmul16 | wmul32 | wmul64 | wmul128 => exact needLegal_of_wellFormed h
  case cmul8 | cmul16 | cmul32 | cmul64 | cmul128 => exact needLegal_of_wellFormed h

/-- The word of a legal instruction decodes to it (30_encoding.md R79). -/
theorem decodeWord_encode {i : Instr} (h : i.wellFormed = true) : decodeWord (encode i) = .ok i := by
  rw [decodeWord, encode, Fields.ofWord_toWord, decodeFields_encodeFields h]

/-- A byte string that begins with the bytes of a word decodes as the word does (30_encoding.md R70, 20_memory.md R51). -/
theorem decode_bytesOfWord_append (w : InstrWord) (rest : List Byte) :
    decode (bytesOfWord w ++ rest) = (decodeWord w).map fun i => (i, rest) := by
  simp only [bytesOfWord, decode, List.cons_append, List.nil_append, wordOfBytes_bytesOfWord]
  cases decodeWord w <;> rfl

end Sys2Proof
end

section
/-! SUPPORT. The rows of the opcode table against the decoder (30_encoding.md R78, R79): every legal instruction has its row,
every word of a row decodes, and rows that overlap share their mnemonic. -/

namespace Sys2Proof

theorem Laws.RowMatch.all (i : Instr) : RowMatch.Statement i := by
  cases i
  exacts [halt, clrc, setc, csrr _ _, csrw _ _, jmp _, bz _ _, bnz _ _, bc _, bnc _, li _ _, movx _ _, addi _ _ _,
    ldx8 _ _ _, ldx16 _ _ _, ldx32 _ _ _, ldx64 _ _ _, ldx128 _ _ _, stx8 _ _ _, stx16 _ _ _, stx32 _ _ _, stx64 _ _ _,
    stx128 _ _ _, vld _ _ _, vst _ _ _, cadd8 _ _ _ _, cadd16 _ _ _ _, cadd32 _ _ _ _, cadd64 _ _ _ _, cadd128 _ _ _ _,
    bsub8 _ _ _ _, bsub16 _ _ _ _, bsub32 _ _ _ _, bsub64 _ _ _ _, bsub128 _ _ _ _, wmul8 _ _ _ _, wmul16 _ _ _ _,
    wmul32 _ _ _ _, wmul64 _ _ _ _, wmul128 _ _ _ _, cmul8 _ _ _ _ _, cmul16 _ _ _ _ _, cmul32 _ _ _ _ _,
    cmul64 _ _ _ _ _, cmul128 _ _ _ _ _, vmov _ _, vxor _ _ _, vshufw _ _ _, vsllb _ _ _, vrorw _ _ _, vimmw _ _,
    vldrk _ _, aesenc _ _ _, aesenclast _ _ _, aeskeygenassist _ _ _, aese _ _ _, aesmc _ _, kexp _, encb _ _,
    encm _ _ _, encs _ _]

/-! What the constraint of a row leaves to a field, as the rules of the decoder need it. -/

theorem CarrySel.exists_code_of_le {n : BitVec 4} (h : n.toNat ≤ 2) : ∃ x : CarrySel, n = x.code := by
  have hsome : ∀ n : BitVec 4, n.toNat ≤ 2 → (CarrySel.ofCode n).isSome = true := by decide
  obtain ⟨x, hx⟩ := Option.isSome_iff_exists.mp (hsome n h)
  exact ⟨x, (CarrySel.code_of_ofCode hx).symm⟩

theorem Csr.exists_number_of_le {n : BitVec 12} (h : n.toNat ≤ 5) : ∃ c : Csr, n = c.number := by
  have hsome : ∀ m ≤ 5, (Csr.ofNumber (BitVec.ofNat 12 m)).isSome = true := by decide
  obtain ⟨c, hc⟩ := Option.isSome_iff_exists.mp (hsome n.toNat h)
  exact ⟨c, by rw [Csr.number_of_ofNumber hc, BitVec.ofNat_toNat, BitVec.setWidth_eq]⟩

theorem regOf_bne {n m : BitVec 4} (h : n.toNat ≠ m.toNat) : (regOf n != regOf m) = true :=
  bne_iff_ne.mpr fun e => h (congrArg Fin.val e)

/-! A word that a row admits has the row's match wherever the mask covers a whole field. With the match put there the decoder
computes on the word, though its other fields are variables. -/

/-- The field `m` where the mask covers all of it, and `x` elsewhere. -/
def fillField {n : Nat} (x mask m : BitVec n) : BitVec n := if mask = BitVec.allOnes n then m else x

theorem fillField_of_masked {n : Nat} {x mask m : BitVec n} (h : x &&& mask = m) : fillField x mask m = x := by
  unfold fillField
  split
  · next hm => rw [← h, hm, BitVec.and_allOnes]
  · rfl

/-- `fillField` on every field. -/
def Fields.filled (x mask m : Fields) : Fields :=
  ⟨fillField x.op mask.op m.op, fillField x.a mask.a m.a, fillField x.b mask.b m.b, fillField x.c mask.c m.c,
    fillField x.d mask.d m.d, fillField x.e mask.e m.e, fillField x.f mask.f m.f⟩

theorem Fields.filled_of_masked {x mask m : Fields} (h : x.masked mask = m) : x.filled mask m = x := by
  subst h
  simp only [Fields.filled, Fields.masked, fillField_of_masked]

/-- The fields `x` with the row's match put where the row's mask covers a whole field. -/
def Row.filled (r : Row) (x : Fields) : Fields := x.filled (Fields.ofWord r.mask) (Fields.ofWord r.matchBits)

/-- Every word that the row admits decodes (30_encoding.md R79). -/
def Row.Decodes (r : Row) : Prop := ∀ x : Fields, r.admits x.toWord = true → ∃ i, decodeFields x = .ok i

theorem Row.decodes_of_filled {r : Row}
    (h : ∀ x : Fields, r.constraint x.toWord = true → ∃ i, decodeFields (r.filled x) = .ok i) : r.Decodes := by
  intro x hx
  obtain ⟨hm, hc⟩ := (Row.admits_toWord r x).mp hx
  obtain ⟨i, hi⟩ := h x hc
  rw [Row.filled, Fields.filled_of_masked hm] at hi
  exact ⟨i, hi⟩

theorem freeRow_decodes {s : String} {m mask : InstrWord}
    (h : ∀ x : Fields, ∃ i, decodeFields ((freeRow s m mask).filled x) = .ok i) : (freeRow s m mask).Decodes :=
  Row.decodes_of_filled fun x _ => h x

theorem tableSystem_decodes : ∀ r ∈ tableSystem, r.Decodes := by
  simp only [tableSystem, List.forall_mem_cons, List.not_mem_nil, false_imp_iff, implies_true, and_true]
  refine ⟨?_, ?_, ?_, Row.decodes_of_filled fun x hx => ?csrr, Row.decodes_of_filled fun x hx => ?csrw, ?_, ?_, ?_, ?_, ?_⟩
  case csrr =>
    obtain ⟨csr, hn⟩ := Csr.exists_number_of_le (n := x.imm12) (by simpa [x.bitsOf_toWord] using hx)
    exact ⟨_, (needZero_of_all_zero rfl).trans (needCsr_ok.mpr ⟨csr, hn, rfl⟩)⟩
  case csrw =>
    have hn : x.imm12 = Csr.number .ctrl := BitVec.eq_of_toNat_eq (by simpa [x.bitsOf_toWord, Csr.number] using hx)
    exact ⟨_, (needZero_of_all_zero rfl).trans (needCsr_ok.mpr ⟨.ctrl, hn, rfl⟩)⟩
  all_goals exact freeRow_decodes fun x => ⟨_, rfl⟩

theorem tableMove_decodes : ∀ r ∈ tableMove, r.Decodes := by
  simp only [tableMove, List.forall_mem_cons, List.not_mem_nil, false_imp_iff, implies_true, and_true]
  and_intros <;> exact freeRow_decodes fun x => ⟨_, rfl⟩

theorem tableWideningAdd_decodes : ∀ r ∈ tableWideningAdd, r.Decodes := by
  simp only [tableWideningAdd, List.forall_mem_cons, List.not_mem_nil, false_imp_iff, implies_true, and_true]
  and_intros
  all_goals
    refine Row.decodes_of_filled fun x hx => ?_
    obtain ⟨sel, hsel⟩ := CarrySel.exists_code_of_le (n := x.e) (by simpa [x.bitsOf_toWord] using hx)
    exact ⟨_, (needZero_of_all_zero rfl).trans (needCarrySel_ok.mpr ⟨sel, hsel, rfl⟩)⟩

theorem tableWideningMul_decodes : ∀ r ∈ tableWideningMul, r.Decodes := by
  simp only [tableWideningMul, List.forall_mem_cons, List.not_mem_nil, false_imp_iff, implies_true, and_true]
  and_intros
  all_goals
    refine Row.decodes_of_filled fun x hx => ?_
    have hne : x.b.toNat ≠ x.c.toNat := by simpa only [x.bitsOf_toWord, decide_eq_true_eq] using hx
    exact ⟨_, needLegal_of_wellFormed (regOf_bne hne)⟩

theorem tableBlock_decodes : ∀ r ∈ tableBlock, r.Decodes := by
  simp only [tableBlock, List.forall_mem_cons, List.not_mem_nil, false_imp_iff, implies_true, and_true]
  refine ⟨?_, ?_, ?_, ?_, Row.decodes_of_filled fun x hx => ?vrorw, ?_, Row.decodes_of_filled fun x hx => ?vldrk⟩
  case vrorw =>
    have hn : x.imm8.toNat < 32 := Nat.lt_succ_of_le (by simpa [x.bitsOf_toWord] using hx)
    exact ⟨_, (needZero_of_all_zero rfl).trans (dif_pos hn)⟩
  case vldrk =>
    have hn : x.b.toNat < 11 := Nat.lt_succ_of_le (by simpa [x.bitsOf_toWord] using hx)
    exact ⟨_, (needZero_of_all_zero rfl).trans (dif_pos hn)⟩
  all_goals exact freeRow_decodes fun x => ⟨_, rfl⟩

theorem tableAes_decodes : ∀ r ∈ tableAes, r.Decodes := by
  simp only [tableAes, List.forall_mem_cons, List.not_mem_nil, false_imp_iff, implies_true, and_true]
  refine ⟨?_, ?_, ?_, ?_, ?_, ?_, ?_, Row.decodes_of_filled fun x hx => ?encm, ?_⟩
  case encm =>
    obtain ⟨⟨hn, hd⟩, ha⟩ : (x.c.toNat ≤ 8 ∧ x.a.toNat + x.c.toNat ≤ 16) ∧ x.b.toNat + x.c.toNat ≤ 16 := by
      simpa [x.bitsOf_toWord] using hx
    have hlt : x.c.toNat < 9 := Nat.lt_succ_of_le hn
    have hwf : (Instr.encm (regOf x.a) (regOf x.b) ⟨x.c.toNat, hlt⟩).wellFormed = true := by
      simpa [Instr.wellFormed] using ⟨hd, ha⟩
    exact ⟨_, (needZero_of_all_zero rfl).trans ((dif_pos hlt).trans (needLegal_of_wellFormed hwf))⟩
  all_goals exact freeRow_decodes fun x => ⟨_, rfl⟩

theorem opcodeTable_decodes : ∀ r ∈ opcodeTable, r.Decodes := by
  simp only [opcodeTable, List.forall_mem_append]
  exact ⟨⟨⟨⟨⟨tableSystem_decodes, tableMove_decodes⟩, tableWideningAdd_decodes⟩, tableWideningMul_decodes⟩,
    tableBlock_decodes⟩, tableAes_decodes⟩

/-- A word that a row of the opcode table admits decodes (30_encoding.md R78, R79). -/
theorem decodeWord_of_admits {w : InstrWord} {r : Row} (hr : r ∈ opcodeTable) (h : r.admits w = true) :
    ∃ i, decodeWord w = .ok i :=
  opcodeTable_decodes r hr (Fields.ofWord w) (by rwa [Fields.toWord_ofWord])

/-- A word that decodes is admitted by the row of its instruction (30_encoding.md R78, R79). -/
theorem admits_of_decodeWord {w : InstrWord} {i : Instr} (h : decodeWord w = .ok i) :
    ∃ r ∈ opcodeTable, r.admits w = true := by
  obtain ⟨hwf, rfl⟩ := decodeWord_ok h
  exact Laws.RowMatch.all i hwf

/-- Rows whose matches agree wherever both masks look share a mnemonic: the table's pairs of rows, one by one. -/
theorem mnemonic_eq_of_matchBits_agree : ∀ r ∈ opcodeTable, ∀ r' ∈ opcodeTable,
    r.matchBits &&& r'.mask = r'.matchBits &&& r.mask → r.mnemonic = r'.mnemonic := by
  decide +kernel

end Sys2Proof
end

section
/-! The statements of the family 30_encoding.md, settled. -/

namespace Sys2Proof.Machine

/-- Settles O2: the decoder reads back each format, and a byte string that begins with a word's bytes decodes as the word. -/
theorem decodeInvertsEncode : Obligations.DecodeInvertsEncode := by
  refine fun i h => ⟨decodeWord_encode h, fun rest => ?_⟩
  rw [encodeBytes, decode_bytesOfWord_append, decodeWord_encode h, Except.map]

/-- Settles O3: the decoder read backwards (`decodeFields_ok`). -/
theorem encodeInvertsDecode : Obligations.EncodeInvertsDecode :=
  fun _ _ h => decodeWord_ok h

/-- Settles O4: a word that decodes is of its instruction's row, a word of a row decodes, and rows that admit one word agree
wherever both masks look. -/
theorem decoderFollowsOpcodeTable : Obligations.DecoderFollowsOpcodeTable := by
  constructor
  · exact fun w => ⟨fun ⟨_, h⟩ => admits_of_decodeWord h, fun ⟨_, hr, h⟩ => decodeWord_of_admits hr h⟩
  · exact fun w r hr r' hr' h h' => mnemonic_eq_of_matchBits_agree r hr r' hr' (Row.admits_both h h')

/-- Settles O1: the twelve words and the code tables, evaluated. -/
theorem specWordsDecode : Obligations.SpecWordsDecode :=
  ⟨rfl, rfl, rfl, rfl, rfl, rfl, rfl, rfl, rfl, rfl, rfl, rfl, fun _ => rfl, rfl, rfl⟩

end Sys2Proof.Machine
end

section
/-! SUPPORT. The widening arithmetic unit: the words that are no instruction, and what an instruction of the unit leaves. -/

namespace Sys2Proof

/-! Words that are no instruction (30_encoding.md R73 to R80). -/

theorem exists_error_of_ne_ok {d : Decoded} (h : ∀ i, d ≠ .ok i) : ∃ e, d = .error e := by
  cases d with
  | error e => exact ⟨e, rfl⟩
  | ok i => exact absurd rfl (h i)

/-- A word given by its fields decodes as they do (30_encoding.md R71). -/
theorem decodeWord_append (op : BitVec 8) (a b c d e f : BitVec 4) :
    decodeWord (op ++ a ++ b ++ c ++ d ++ e ++ f) = decodeFields ⟨op, a, b, c, d, e, f⟩ :=
  congrArg decodeFields (Fields.ofWord_toWord ⟨op, a, b, c, d, e, f⟩)

/-- The word of formats WA, WM and WC (30_encoding.md R72). -/
theorem encode_of_fmtW {i : Instr} {op : BitVec 8} {w : Width} {b c d e f : BitVec 4} (h : encodeFields i = fmtW op w b c d e f) :
    encode i = op ++ w.code ++ b ++ c ++ d ++ e ++ f := by
  rw [encode, h]
  rfl

theorem Width.code_le (w : Width) : w.code.toNat ≤ 4 := by cases w <;> decide

theorem CarrySel.code_le (x : CarrySel) : x.code.toNat ≤ 2 := by cases x <;> decide

/-- A must-be-zero nibble that is set leaves no instruction, and lets no refusal of the rules after it through (30_encoding.md
R74). -/
theorem needZero_error {z : BitVec 4} {k : Decoded} (h : (∃ e, k = .error e) ∨ z ≠ 0) : ∃ e, needZero [z] k = .error e := by
  refine exists_error_of_ne_ok fun i hi => ?_
  obtain ⟨hz, hk⟩ := needZero_ok.mp hi
  rcases h with ⟨e, he⟩ | hz'
  · rw [he] at hk; cases hk
  · exact hz' (hz z List.mem_cons_self)

/-- The rules of the `CADD` and `BSUB` rows on the width code and the select (R73, R75). -/
theorem needWidth_needCarrySel_error {k : Width → CarrySel → Decoded} {w sel : BitVec 4} (h : 4 < w.toNat ∨ 2 < sel.toNat) :
    ∃ e, needWidth w (fun w => needCarrySel sel (k w)) = .error e := by
  refine exists_error_of_ne_ok fun i hi => ?_
  obtain ⟨w', rfl, hsel⟩ := needWidth_ok.mp hi
  obtain ⟨sel', rfl, -⟩ := needCarrySel_ok.mp hsel
  rcases h with hw | hs
  · exact absurd w'.code_le hw.not_ge
  · exact absurd sel'.code_le hs.not_ge

/-- The rules of the `WMUL` and `CMUL` rows on the width code and the destinations (R73, R80). -/
theorem needWidth_needLegal_error {why : DecodeError} {i : Width → Instr} {w l h : BitVec 4}
    (hwf : ∀ w, (i w).wellFormed = (regOf l != regOf h)) (hbad : 4 < w.toNat ∨ l = h) :
    ∃ e, needWidth w (fun w => needLegal why (i w)) = .error e := by
  refine exists_error_of_ne_ok fun j hj => ?_
  obtain ⟨w', rfl, hlegal⟩ := needWidth_ok.mp hj
  obtain ⟨hlegal, -⟩ := needLegal_ok.mp hlegal
  rcases hbad with hw | rfl
  · exact absurd w'.code_le hw.not_ge
  · simp [hwf] at hlegal

namespace Machine

variable {i : Instr} {s : State}

/-! What an instruction of the unit leaves (40_widening_arithmetic.md R101). -/

/-- A W-bit result is zero-extended, so the register holds its value (10_state.md R21). -/
theorem toNat_ofNat_of_lt_width {w : Width} {v : Nat} (h : v < 2 ^ widthBits w) : (BitVec.ofNat 128 v).toNat = v :=
  (BitVec.toNat_ofNat _ _).trans (Nat.mod_eq_of_lt (h.trans_le (width_fits w)))

/-- An instruction that ends with a W-bit result and a carry or borrow. -/
theorem Completes.of_writeW_setC {w : Width} {xd : XReg} {r : Nat × Bool} (h : exec i s = finish ((writeW xd r.1 s).setC r.2))
    (hr : r.1 < 2 ^ widthBits w) :
    Completes i s (fun p => p = .x xd ∨ p = .c) fun t => ((t.getX xd).toNat, t.c) = r := by
  refine .of_finish h rfl ?_ ((setX_only xd _ s).trans (setC_only r.2 _))
  simp [toNat_ofNat_of_lt_width hr]

/-- An instruction that ends with both words of a value below 2^(2W), its destinations different (R105, R106). -/
theorem Completes.of_writeWide {j : Instr} {w : Width} {xl xh : XReg} {p : Nat} (h : exec i s = writeWide w j xl xh p s)
    (hne : xl ≠ xh) (hp : p < 2 ^ widthBits w * 2 ^ widthBits w) :
    Completes i s (fun q => q = .x xl ∨ q = .x xh) fun t =>
      ((t.getX xl).toNat, (t.getX xh).toNat) = splitWide w p := by
  obtain ⟨hlow, hhigh, -⟩ := splitWide_exact w hp
  refine .of_finish (h.trans (writeWide_ok w j hne p s)) rfl ?_ ((setX_only xl _ s).trans (setX_only xh _ _))
  simp [hne, toNat_ofNat_of_lt_width hlow, toNat_ofNat_of_lt_width hhigh]

theorem cadd_completes (w : Width) (xd xa xb : XReg) (cin : CarrySel) (s : State) :
    Completes (.cadd w xd xa xb cin) s (fun p => p = .x xd ∨ p = .c) fun t =>
      ((t.getX xd).toNat, t.c) = carryAdd w (readW w xa s) (readW w xb s) (selC cin s) :=
  .of_writeW_setC (exec_cadd w xd xa xb cin s) (carryAdd_exact w _ (readW_lt w xa s) (readW_lt w xb s)).1

theorem bsub_completes (w : Width) (xd xa xb : XReg) (bin : CarrySel) (s : State) :
    Completes (.bsub w xd xa xb bin) s (fun p => p = .x xd ∨ p = .c) fun t =>
      ((t.getX xd).toNat, t.c) = borrowSub w (readW w xa s) (readW w xb s) (selC bin s) :=
  .of_writeW_setC (exec_bsub w xd xa xb bin s) (borrowSub_exact w _ (readW_lt w xa s) (readW_lt w xb s)).1

/-- The product of two W-bit sources is below 2^(2W) (R105). -/
theorem readW_mul_lt (w : Width) (xa xb : XReg) (s : State) :
    readW w xa s * readW w xb s < 2 ^ widthBits w * 2 ^ widthBits w :=
  wide_lt (readW_lt w xa s) (readW_lt w xb s) (Nat.two_pow_pos _)

theorem wmul_completes (w : Width) {xl xh : XReg} (xa xb : XReg) (s : State) (hne : xl ≠ xh) :
    Completes (.wmul w xl xh xa xb) s (fun p => p = .x xl ∨ p = .x xh) fun t =>
      ((t.getX xl).toNat, (t.getX xh).toNat) = splitWide w (readW w xa s * readW w xb s) :=
  .of_writeWide (exec_wmul w xl xh xa xb s) hne (readW_mul_lt w xa xb s)

theorem cmul_completes (w : Width) {xl xh : XReg} (xa xb xc : XReg) (s : State) (hne : xl ≠ xh) :
    Completes (.cmul w xl xh xa xb xc) s (fun p => p = .x xl ∨ p = .x xh) fun t =>
      ((t.getX xl).toNat, (t.getX xh).toNat) = splitWide w (readW w xa s * readW w xb s + readW w xc s) :=
  .of_writeWide (exec_cmul w xl xh xa xb xc s) hne (wide_lt (readW_lt w xa s) (readW_lt w xb s) (readW_lt w xc s))

/-- Two W-bit words that a value below 2^(2W) splits into hold it (R105, R106). -/
theorem wide_exact {w : Width} {p low high : Nat} (hp : p < 2 ^ widthBits w * 2 ^ widthBits w)
    (h : (low, high) = splitWide w p) :
    low < 2 ^ widthBits w ∧ high < 2 ^ widthBits w ∧ high * 2 ^ widthBits w + low = p := by
  have := splitWide_exact w hp
  rwa [← h] at this

end Machine

end Sys2Proof
end

section
/-! SUPPORT. Chains of words (40_widening_arithmetic.md R108, R110) as multi-limb integers (20_memory.md R64). -/

namespace Sys2Proof.Machine

variable {w : Width}

/-- Limbs of W bits, `k` of them, hold a value below 2^(kW). -/
theorem limbValue_lt {ls : List Nat} (h : ∀ l ∈ ls, l < 2 ^ widthBits w) :
    limbValue w ls < 2 ^ (ls.length * widthBits w) := by
  induction ls with
  | nil => simp [limbValue]
  | cons l ls ih =>
    obtain ⟨hl, hls⟩ := List.forall_mem_cons.mp h
    rw [limbValue, List.length_cons, Nat.succ_mul, Nat.pow_add']
    calc l + 2 ^ widthBits w * limbValue w ls
        < 2 ^ widthBits w * (limbValue w ls + 1) := by rw [Nat.mul_succ]; omega
      _ ≤ 2 ^ widthBits w * 2 ^ (ls.length * widthBits w) := Nat.mul_le_mul_left _ (ih hls)

theorem addChain_length (ci : Bool) (ls : List (Nat × Nat)) : (addChain w ci ls).1.length = ls.length := by
  induction ls generalizing ci with
  | nil => rfl
  | cons p ls ih => exact congrArg Nat.succ (ih _)

theorem subChain_length (bi : Bool) (ls : List (Nat × Nat)) : (subChain w bi ls).1.length = ls.length := by
  induction ls generalizing bi with
  | nil => rfl
  | cons p ls ih => exact congrArg Nat.succ (ih _)

/-- Every carry-out is the next carry-in, so the chain is exact as each link is (R108). -/
theorem addChain_exact (ci : Bool) {ls : List (Nat × Nat)}
    (h : ∀ p ∈ ls, p.1 < 2 ^ widthBits w ∧ p.2 < 2 ^ widthBits w) :
    (∀ l ∈ (addChain w ci ls).1, l < 2 ^ widthBits w) ∧
    (addChain w ci ls).2.toNat * 2 ^ (ls.length * widthBits w) + limbValue w (addChain w ci ls).1 =
      limbValue w (ls.map Prod.fst) + limbValue w (ls.map Prod.snd) + ci.toNat := by
  induction ls generalizing ci with
  | nil => simp [addChain, limbValue]
  | cons p ls ih =>
    obtain ⟨⟨ha, hb⟩, hls⟩ := List.forall_mem_cons.mp h
    obtain ⟨hlt, hlink⟩ := carryAdd_exact w ci ha hb
    obtain ⟨hlts, hrest⟩ := ih (carryAdd w p.1 p.2 ci).2 hls
    refine ⟨List.forall_mem_cons.mpr ⟨hlt, hlts⟩, ?_⟩
    simp only [addChain, limbValue, List.map_cons, List.length_cons, Nat.succ_mul, Nat.pow_add']
    linear_combination hlink + 2 ^ widthBits w * hrest

/-- Every borrow-out is the next borrow-in, so the chain is exact as each link is (R108). -/
theorem subChain_exact (bi : Bool) {ls : List (Nat × Nat)}
    (h : ∀ p ∈ ls, p.1 < 2 ^ widthBits w ∧ p.2 < 2 ^ widthBits w) :
    (∀ l ∈ (subChain w bi ls).1, l < 2 ^ widthBits w) ∧
    (limbValue w (subChain w bi ls).1 : Int) - (subChain w bi ls).2.toNat * 2 ^ (ls.length * widthBits w) =
      (limbValue w (ls.map Prod.fst) : Int) - limbValue w (ls.map Prod.snd) - bi.toNat := by
  induction ls generalizing bi with
  | nil => simp [subChain, limbValue]
  | cons p ls ih =>
    obtain ⟨⟨ha, hb⟩, hls⟩ := List.forall_mem_cons.mp h
    obtain ⟨hlt, hlink⟩ := borrowSub_exact w bi ha hb
    obtain ⟨hlts, hrest⟩ := ih (borrowSub w p.1 p.2 bi).2 hls
    refine ⟨List.forall_mem_cons.mpr ⟨hlt, hlts⟩, ?_⟩
    simp only [subChain, limbValue, List.map_cons, List.length_cons, Nat.succ_mul, pow_add]
    push_cast
    linear_combination hlink + 2 ^ widthBits w * hrest

/-- Every high word is the next addend, so the chain is exact as each link is (R110). -/
theorem mulChain_exact {m c : Nat} {ls : List Nat} (hm : m < 2 ^ widthBits w) (hc : c < 2 ^ widthBits w)
    (h : ∀ l ∈ ls, l < 2 ^ widthBits w) :
    (mulChain w m c ls).length = ls.length + 1 ∧ (∀ l ∈ mulChain w m c ls, l < 2 ^ widthBits w) ∧
    limbValue w (mulChain w m c ls) = limbValue w ls * m + c := by
  induction ls generalizing c with
  | nil => simp [mulChain, limbValue, hc]
  | cons a ls ih =>
    obtain ⟨ha, hls⟩ := List.forall_mem_cons.mp h
    obtain ⟨hlow, hhigh, hlink⟩ := splitWide_exact w (wide_lt ha hm hc)
    obtain ⟨hlen, hlts, hrest⟩ := ih hhigh hls
    refine ⟨congrArg Nat.succ hlen, List.forall_mem_cons.mpr ⟨hlow, hlts⟩, ?_⟩
    simp only [mulChain, limbValue]
    linear_combination hlink + 2 ^ widthBits w * hrest

/-- A sum that a carry and a value below M hold: the value is the sum modulo M, and the carry says that it exceeds M - 1. -/
theorem mod_and_carry {M S n : Nat} {c : Bool} (hS : S < M) (h : c.toNat * M + S = n) :
    S = n % M ∧ (c = true ↔ M - 1 < n) := by
  subst h
  rw [Nat.mul_add_mod_self_right, Nat.mod_eq_of_lt hS]
  cases c <;> simp <;> omega

/-- A difference that a borrow and a value below M hold: the value is the difference modulo M, and the borrow says that it is
negative. -/
theorem mod_and_borrow {M D a b : Nat} {c : Bool} (hD : D < M) (h : (D : Int) - c.toNat * M = (a : Int) - b) :
    (D : Int) = ((a : Int) - b) % M ∧ (c = true ↔ a < b) := by
  constructor
  · rw [← h, Int.sub_mul_emod_self_right, Int.emod_eq_of_lt (by omega) (by omega)]
  · cases c <;> simp at h ⊢ <;> omega

end Sys2Proof.Machine
end

section
/-! The statements of the family 40_widening_arithmetic.md, settled. -/

namespace Sys2Proof.Machine

/-- Settles O34: the sum and the carry are `carryAdd`'s, which is exact. -/
theorem caddIsExact : Obligations.CaddIsExact := by
  refine ⟨fun w xd xa xb cin => encode_of_fmtW (encodeFields_cadd w xd xa xb cin), fun w d a b sel z h => ?_,
    fun s w xd xa xb cin => ?_⟩
  · rw [decodeWord_append]
    exact needZero_error ((or_assoc.mpr h).imp_left needWidth_needCarrySel_error)
  · refine (cadd_completes w xd xa xb cin s).weaken fun t ht => ?_
    have hexact := carryAdd_exact w (selC cin s) (readW_lt w xa s) (readW_lt w xb s)
    rw [← ht] at hexact
    cases cin <;> exact hexact

/-- Settles O35: the difference and the borrow are `borrowSub`'s, which is exact. -/
theorem bsubIsExact : Obligations.BsubIsExact := by
  refine ⟨fun w xd xa xb bin => encode_of_fmtW (encodeFields_bsub w xd xa xb bin), fun w d a b sel z h => ?_,
    fun s w xd xa xb bin => ?_⟩
  · rw [decodeWord_append]
    exact needZero_error ((or_assoc.mpr h).imp_left needWidth_needCarrySel_error)
  · refine (bsub_completes w xd xa xb bin s).weaken fun t ht => ?_
    have hexact := borrowSub_exact w (selC bin s) (readW_lt w xa s) (readW_lt w xb s)
    rw [← ht] at hexact
    cases bin <;> exact hexact

/-- Settles O36: the two words are those of the product. -/
theorem wmulIsExact : Obligations.WmulIsExact := by
  refine ⟨fun w xl xh xa xb => encode_of_fmtW (encodeFields_wmul w xl xh xa xb), fun w l h a b z hbad => ?_,
    fun s w xl xh xa xb hne => ?_⟩
  · rw [decodeWord_append]
    exact needZero_error ((or_assoc.mpr hbad).imp_left (needWidth_needLegal_error fun w => wellFormed_wmul w _ _ _ _))
  · exact (wmul_completes w xa xb s hne).weaken fun t => wide_exact (readW_mul_lt w xa xb s)

/-- Settles O37: the two words are those of the product with the addend. -/
theorem cmulIsExact : Obligations.CmulIsExact := by
  refine ⟨fun w xl xh xa xb xc => encode_of_fmtW (encodeFields_cmul w xl xh xa xb xc), fun w l h a b c hbad => ?_,
    fun s w xl xh xa xb xc hne => ?_⟩
  · rw [decodeWord_append]
    exact needWidth_needLegal_error (fun w => wellFormed_cmul w _ _ _ _ _) hbad
  · exact (cmul_completes w xa xb xc s hne).weaken fun t =>
      wide_exact (wide_lt (readW_lt w xa s) (readW_lt w xb s) (readW_lt w xc s))

/-- Settles O38: the chains are exact over the integers, and values below 2^(kW) are determined by that. -/
theorem carryChainsAreExact : Obligations.CarryChainsAreExact := by
  refine ⟨fun w ls h => ?_, fun s w xd xa xb sel => ⟨?_, ?_⟩⟩
  · obtain ⟨hsums, hadd⟩ := addChain_exact false h
    obtain ⟨hdiffs, hsub⟩ := subChain_exact false h
    have hS := limbValue_lt hsums
    have hD := limbValue_lt hdiffs
    rw [addChain_length] at hS
    rw [subChain_length] at hD
    obtain ⟨hmod, hcarry⟩ := mod_and_carry hS hadd
    obtain ⟨hmod', hborrow⟩ := mod_and_borrow hD (by simpa using hsub)
    exact ⟨addChain_length false ls, hsums, hmod, hcarry, subChain_length false ls, hdiffs, hmod', hborrow⟩
  · obtain ⟨t, he, ht, -⟩ := cadd_completes w xd xa xb sel s
    exact ⟨t, he, ht⟩
  · obtain ⟨t, he, ht, -⟩ := bsub_completes w xd xa xb sel s
    exact ⟨t, he, ht⟩

/-- Settles O39: the chain is exact over the integers for any first carry. -/
theorem carryMulChainIsSchoolbook : Obligations.CarryMulChainIsSchoolbook := by
  refine ⟨fun w m ls hm h => mulChain_exact hm (Nat.two_pow_pos _) h, fun s w xl xh xa xb xc hne => ?_⟩
  obtain ⟨t, he, ht, -⟩ := cmul_completes w xa xb xc s hne
  exact ⟨t, he, ht⟩

end Sys2Proof.Machine
end

section
/-! SUPPORT. The functions of AES against the field (41_block_ops_and_aes_functions.md R120 to R125). -/

namespace Sys2Proof.Machine

/-! The S-box. The inverse in GF(2^8) is read off the table through the affine map backwards; that it is the inverse is what the
table has to pass. -/

/-- The affine map of the S-box (R121). -/
def sboxAffine (b : Byte) : Byte :=
  b ^^^ b.rotateLeft 1 ^^^ b.rotateLeft 2 ^^^ b.rotateLeft 3 ^^^ b.rotateLeft 4 ^^^ 0x63

/-- The affine map that undoes `sboxAffine`. -/
def sboxAffineInverse (b : Byte) : Byte := b.rotateLeft 1 ^^^ b.rotateLeft 3 ^^^ b.rotateLeft 6 ^^^ 0x05

/-- The byte whose affine image the table has for `a`: the inverse of `a` in GF(2^8), 0 for 0 (`gmul_gfInverse`). -/
def gfInverse (a : Byte) : Byte := sboxAffineInverse (sbox a)

theorem sboxAffine_sboxAffineInverse : ∀ b : Byte, sboxAffine (sboxAffineInverse b) = b := by decide +kernel

theorem sbox_eq_sboxAffine (a : Byte) : sbox a = sboxAffine (gfInverse a) := (sboxAffine_sboxAffineInverse (sbox a)).symm

theorem gmul_gfInverse : ∀ a : Byte, a ≠ 0 → gmul a (gfInverse a) = 1 := by decide +kernel

theorem gfInverse_involutive : Function.Involutive gfInverse := by
  unfold Function.Involutive
  decide +kernel

/-- The table has no entry twice: `gfInverse` starts with the table and loses nothing. -/
theorem sbox_injective : Function.Injective sbox :=
  Function.Injective.of_comp (f := sboxAffineInverse) gfInverse_involutive.injective

/-! The columns of `MixColumns` and the order of the byte-wise functions. -/

/-- The bytes of one column of `MixColumns`, doubled and tripled as R124 writes them. -/
theorem columnByte_mixColumn (w : Column) :
    let a := columnByte w
    columnByte (mixColumn w) 0 = xtime (a 0) ^^^ (xtime (a 1) ^^^ a 1) ^^^ a 2 ^^^ a 3 ∧
    columnByte (mixColumn w) 1 = a 0 ^^^ xtime (a 1) ^^^ (xtime (a 2) ^^^ a 2) ^^^ a 3 ∧
    columnByte (mixColumn w) 2 = a 0 ^^^ a 1 ^^^ xtime (a 2) ^^^ (xtime (a 3) ^^^ a 3) ∧
    columnByte (mixColumn w) 3 = (xtime (a 0) ^^^ a 0) ^^^ a 1 ^^^ a 2 ^^^ xtime (a 3) := by
  simp only [mixColumn, gmul_two, gmul_three]
  exact columnByte_columnOfBytes ..

/-- `SubWord` and `RotWord` commute (R125): one changes each byte in place, the other moves bytes. -/
theorem subWord_rotWord (w : Column) : subWord (rotWord w) = rotWord (subWord w) := by
  apply column_ext_bytes
  intro k hk
  rw [columnByte_subWord _ k hk, columnByte_rotWord _ k hk, columnByte_rotWord _ k hk, columnByte_subWord _ _ (by omega)]

/-- `SubBytes` and `ShiftRows` commute (R122, R123): one changes each byte in place, the other moves bytes. -/
theorem subBytes_shiftRows (b : Block) : subBytes (shiftRows b) = shiftRows (subBytes b) := by
  apply block_ext_bytes
  intro k hk
  rw [byteOf_subBytes _ k hk, byteOf_shiftRows _ k hk, byteOf_shiftRows _ k hk, byteOf_subBytes _ _ (by omega)]

end Sys2Proof.Machine
end

section
/-! SUPPORT. The Block helpers (41_block_ops_and_aes_functions.md R130 to R136): the words of their formats, the words that are no
instruction, and their functions by position. -/

namespace Sys2Proof

/-! The words of formats R2, R3, V8 and IU (30_encoding.md R72). -/

theorem fmtR_zero_toWord (op : BitVec 8) (a b : BitVec 4) : (fmtR op a b 0).toWord = op ++ a ++ b ++ 0#16 := by
  apply BitVec.eq_of_toNat_eq
  simp only [fmtR, Fields.toWord, toNat_append_add, BitVec.ofNat_eq_ofNat, BitVec.toNat_ofNat]
  omega

theorem fmtR_toWord (op : BitVec 8) (a b c : BitVec 4) : (fmtR op a b c).toWord = op ++ a ++ b ++ c ++ 0#12 := by
  apply BitVec.eq_of_toNat_eq
  simp only [fmtR, Fields.toWord, toNat_append_add, BitVec.ofNat_eq_ofNat, BitVec.toNat_ofNat]
  omega

theorem fmtV8_toWord (op : BitVec 8) (a b : BitVec 4) (imm : BitVec 8) :
    (fmtV8 op a b imm).toWord = op ++ a ++ b ++ 0#8 ++ imm := by
  apply BitVec.eq_of_toNat_eq
  have := imm.isLt
  simp only [fmtV8, Fields.toWord, toNat_append_add, toNat_extract, BitVec.ofNat_eq_ofNat, BitVec.toNat_ofNat]
  omega

theorem fmtImm16_toWord (op : BitVec 8) (a b : BitVec 4) (imm : BitVec 16) :
    (fmtImm16 op a b imm).toWord = op ++ a ++ b ++ imm := by
  apply BitVec.eq_of_toNat_eq
  have := imm.isLt
  simp only [fmtImm16, Fields.toWord, toNat_append_add, toNat_extract]
  omega

/-! Words that are no instruction (30_encoding.md R80). -/

/-- `VRORW` by more than 31 is no instruction. -/
theorem decodeWord_vrorw_of_gt (a b : BitVec 4) {n : BitVec 8} (h : 31 < n.toNat) :
    decodeWord (0x34#8 ++ a ++ b ++ 0#8 ++ n) = .error .rotateCount := by
  rw [← fmtV8_toWord, decodeWord, Fields.ofWord_toWord]
  refine (needZero_of_all_zero rfl).trans (dif_neg ?_)
  rw [imm8_fmtV8]
  omega

/-- `VLDRK` of a round key above 10 is no instruction. -/
theorem decodeWord_vldrk_of_gt (a : BitVec 4) {n : BitVec 4} (h : 10 < n.toNat) :
    decodeWord (0x36#8 ++ a ++ n ++ 0#16) = .error .roundKeyIndex := by
  rw [← fmtR_zero_toWord, decodeWord, Fields.ofWord_toWord]
  exact (needZero_of_all_zero rfl).trans (dif_neg (Nat.not_lt.mpr h))

namespace Machine

variable {i : Instr} {s : State}

/-- An instruction that ends with a Block written to one register. -/
theorem Completes.of_setV {vd : VReg} {b : Block} (h : exec i s = finish (s.setV vd b)) :
    Completes i s (· = .v vd) fun t => t.getV vd = b :=
  .of_finish h rfl (by simp) (setV_only vd b s)

/-- The field of `VSHUFW` for word j is a digit of the immediate to base 4 (R132). -/
theorem vshufw_select_toNat (imm : BitVec 8) (j : Nat) : (imm.extractLsb' (2 * j) 2).toNat = imm.toNat / 4 ^ j % 4 := by
  rw [toNat_extract, pow_mul]
  rfl

/-- `VSLLB` moves each byte and fills with zeros (R133). -/
theorem byteOf_vsllb (b : Block) (imm : BitVec 8) (k : Nat) (hk : k < 16) :
    byteOf (vsllb b imm) k = if imm.toNat ≤ k then byteOf b (k - imm.toNat) else 0 := by
  unfold vsllb
  split
  · next hbig =>
    rw [if_neg (by omega)]
    simp [byteOf]
  · next hsmall =>
    apply BitVec.eq_of_getLsbD_eq
    intro n hn
    rw [byteOf_bit _ _ _ hn, BitVec.getLsbD_shiftLeft, decide_eq_true (show 8 * k + n < 128 by omega), Bool.true_and]
    split
    · next hle =>
      rw [decide_eq_false (show ¬ 8 * k + n < 8 * imm.toNat by omega), byteOf_bit _ _ _ hn]
      simp only [Bool.not_false, Bool.true_and]
      congr 1
      omega
    · next hgt => simp [show 8 * k + n < 8 * imm.toNat by omega]

/-- One word of `VRORW` is the library's rotation (R134). -/
theorem rorWord_eq_rotateRight (w : Column) {n : Nat} (hn : n < 32) : rorWord w n = w.rotateRight n := by
  rw [BitVec.rotateRight_def, Nat.mod_eq_of_lt hn, rorWord]
  split
  · next h0 => simp [h0]
  · rfl

/-- `VRORW` moves each bit of a word down, around the word's end (R134). -/
theorem rorWord_bit (w : Column) {n k : Nat} (hn : n < 32) (hk : k < 32) :
    (rorWord w n).getLsbD k = w.getLsbD ((k + n) % 32) := by
  rw [rorWord_eq_rotateRight w hn, BitVec.getLsbD_rotateRight, Nat.mod_eq_of_lt hn, Bool.cond_decide]
  split
  · next h => congr 1; omega
  · next h =>
    rw [decide_eq_true hk, Bool.true_and]
    congr 1
    omega

end Machine

end Sys2Proof
end

section
/-! The statements of the family 41_block_ops_and_aes_functions.md, settled. -/

namespace Sys2Proof.Machine

/-- Settles O41: each helper ends with one register written, and the value is the helper's function, read by position. -/
theorem blockHelpersCompute : Obligations.BlockHelpersCompute := by
  refine ⟨fun vd va vb => ⟨fmtR_zero_toWord .., fmtR_toWord ..⟩, fun vd va imm => ⟨fmtV8_toWord .., fmtV8_toWord ..⟩,
    fun vd va n => fmtV8_toWord .., fun vd va n h => ⟨_, decodeWord_vrorw_of_gt _ _ h⟩, fun vd imm => fmtImm16_toWord ..,
    fun s vd va vb imm8 n imm16 => ⟨?vmov, ?vxor, ?vshufw, ?vsllb, ?vrorw, ?vimmw⟩⟩
  case vmov => exact .of_setV rfl
  all_goals
    refine (Completes.of_setV rfl).weaken fun t ht => ?_
    rw [ht]
  case vxor => exact fun k _ => BitVec.getLsbD_xor
  case vshufw => exact fun j hj => by rw [wordOf_vshufw _ _ j hj, vshufw_select_toNat]
  case vsllb => exact byteOf_vsllb _ _
  case vrorw => exact fun j hj k hk => by rw [wordOf_vrorw _ _ j hj, rorWord_bit _ n.isLt hk]
  case vimmw => exact fun j hj => by rw [wordOf_vimmw _ j hj, BitVec.toNat_setWidth_of_le (by decide)]

/-- Settles O42, by the two cases of `RDY`. -/
theorem vldrkReadsTheReadyBank : Obligations.VldrkReadsTheReadyBank := by
  refine ⟨fun vd idx => fmtR_zero_toWord .., fun vd n h => ⟨_, decodeWord_vldrk_of_gt _ h⟩,
    fun s vd idx => ⟨fun hr => ?ready, fun hr => ?notReady⟩⟩
  case ready => exact .of_setV (if_pos hr)
  case notReady => exact .of_eq (if_neg (by simp [hr]))

/-- Settles O43: the inverse is read off the table, it is the inverse in the field, and it is its own inverse. -/
theorem sboxIsAffineOfInverse : Obligations.SboxIsAffineOfInverse :=
  ⟨⟨gfInverse, by decide, gmul_gfInverse, sbox_eq_sboxAffine⟩, fun _ _ h => sbox_injective h⟩

/-- Settles O44: each function by position; those that change bytes in place commute with those that move them. -/
theorem aesFunctionsByteByByte : Obligations.AesFunctionsByteByByte := by
  refine ⟨byteOf_subBytes, fun b r hr c hc => ?shiftRows, fun b c hc => ?mixColumns,
    fun w k hk => ⟨columnByte_subWord w k hk, columnByte_rotWord w k hk⟩, subWord_rotWord, subBytes_shiftRows⟩
  case shiftRows =>
    rw [byteOf_shiftRows _ _ (by omega), show (r + 4 * c) % 4 = r by omega, show (r + 4 * c) / 4 = c by omega]
  case mixColumns =>
    have hcolumn := columnByte_mixColumn (wordOf b c)
    rw [← wordOf_mixColumns b c hc] at hcolumn
    simpa only [columnByte_wordOf, Nat.reduceLT, Nat.add_zero] using hcolumn

end Sys2Proof.Machine
end

section
/-! SUPPORT. The x86 primitives (42_aes_x86_primitives.md R150, R153): what the capability check leaves to show, and
`AESKEYGENASSIST` word by word. -/

namespace Sys2Proof.Machine

variable {i : Instr} {s : State}

/-- An instruction behind the check of R150 that ends with a Block written to one register, on an engine with the backend. -/
theorem Completes.of_withX86_setV {vd : VReg} {b : Block} (h : exec i s = withX86 i s (finish (s.setV vd b)))
    (hx : s.cfg.hasX86Aes = true) : Completes i s (· = .v vd) fun t => t.getV vd = b :=
  .of_setV (h.trans (withX86_on hx))

/-- An instruction behind the check of R150, on an engine without the backend. -/
theorem Raises.of_withX86 {r : Result} (h : exec i s = withX86 i s r) (hx : s.cfg.hasX86Aes = false) :
    Raises i s .unsupportedHardware (wordInfo i) :=
  .of_eq (h.trans (withX86_off hx))

/-- `AESKEYGENASSIST` reads words 1 and 3 of its source alone (R153). -/
theorem wordOf_aeskeygenassist (b : Block) (imm : BitVec 8) :
    wordOf (aeskeygenassist b imm) 0 = subWord (wordOf b 1) ∧
    wordOf (aeskeygenassist b imm) 1 = rotWord (subWord (wordOf b 1)) ^^^ imm.setWidth 32 ∧
    wordOf (aeskeygenassist b imm) 2 = subWord (wordOf b 3) ∧
    wordOf (aeskeygenassist b imm) 3 = rotWord (subWord (wordOf b 3)) ^^^ imm.setWidth 32 := by
  refine ⟨?_, ?_, ?_, ?_⟩
  all_goals
    rw [aeskeygenassist, wordOf_blockOfWords _ _ (by decide)]
    rfl

end Sys2Proof.Machine
end

section
/-! The statements of the family 42_aes_x86_primitives.md, settled. -/

namespace Sys2Proof.Machine

/-- Settles O48, by the two cases of the capability: with the backend each ends with one register written, without it each is
its check's fault. -/
theorem x86PrimitivesCompute : Obligations.X86PrimitivesCompute := by
  refine ⟨fun vd va vk => ⟨fmtR_toWord .., fmtR_toWord ..⟩, fun vd va imm => fmtV8_toWord ..,
    fun s vd va vk imm => ⟨fun hx => ⟨?aesenc, ?aesenclast, ?aeskeygenassist⟩, fun hx => ⟨?_, ?_, ?_⟩⟩⟩
  case aesenc | aesenclast => exact .of_withX86_setV rfl hx
  case aeskeygenassist =>
    refine (Completes.of_withX86_setV rfl hx).weaken fun t ht => ?_
    rw [ht]
    exact wordOf_aeskeygenassist (s.getV va) imm
  all_goals exact .of_withX86 rfl hx

end Sys2Proof.Machine
end

section
/-! SUPPORT. The ARM primitives (43_aes_arm_primitives.md R160): what the capability check leaves to show. -/

namespace Sys2Proof.Machine

variable {i : Instr} {s : State}

/-- An instruction behind the check of R160 that ends with a Block written to one register, on an engine with the backend. -/
theorem Completes.of_withArm_setV {vd : VReg} {b : Block} (h : exec i s = withArm i s (finish (s.setV vd b)))
    (ha : s.cfg.hasArmAes = true) : Completes i s (· = .v vd) fun t => t.getV vd = b :=
  .of_setV (h.trans (withArm_on ha))

/-- An instruction behind the check of R160, on an engine without the backend. -/
theorem Raises.of_withArm {r : Result} (h : exec i s = withArm i s r) (ha : s.cfg.hasArmAes = false) :
    Raises i s .unsupportedHardware (wordInfo i) :=
  .of_eq (h.trans (withArm_off ha))

end Sys2Proof.Machine
end

section
/-! The statements of the family 43_aes_arm_primitives.md, settled. -/

namespace Sys2Proof.Machine

/-- Settles O49, by the two cases of the capability: with the backend each ends with one register written, without it each is
its check's fault. -/
theorem armPrimitivesCompute : Obligations.ArmPrimitivesCompute := by
  refine ⟨fun vd va vk => ⟨fmtR_toWord .., fmtR_zero_toWord ..⟩,
    fun s vd va vk => ⟨fun ha => ⟨?aese, ?aesmc⟩, fun ha => ⟨?noAese, ?noAesmc⟩⟩⟩
  case aese | aesmc => exact .of_withArm_setV rfl ha
  case noAese | noAesmc => exact .of_withArm rfl ha

end Sys2Proof.Machine
end

section
/-! SUPPORT. The whole-cipher instructions (44_aes_cipher_ops.md R171 to R182): the schedule word by word, what the checks leave to
show, the words of `KEXP` and `ENCM`, and the run and the slice by position. -/

namespace Sys2Proof

/-- The word of format R1 (30_encoding.md R72). -/
theorem fmtR_zero_zero_toWord (op : BitVec 8) (a : BitVec 4) : (fmtR op a 0 0).toWord = op ++ a ++ 0#20 := by
  apply BitVec.eq_of_toNat_eq
  simp only [fmtR, Fields.toWord, toNat_append_add, BitVec.ofNat_eq_ofNat, BitVec.toNat_ofNat]
  omega

/-- `ENCM` of more than 8 Blocks, or of a run past `V15`, is no instruction (30_encoding.md R80). -/
theorem decodeWord_encm_of_gt {d a n : BitVec 4} (h : 8 < n.toNat ∨ d.toNat + n.toNat > 16 ∨ a.toNat + n.toNat > 16) :
    decodeWord (0x62#8 ++ d ++ a ++ n ++ 0#12) = .error .batchRun := by
  rw [← fmtR_toWord, decodeWord, Fields.ofWord_toWord]
  refine (needZero_of_all_zero rfl).trans ?_
  by_cases hn : n.toNat < 9
  · refine (dif_pos hn).trans (if_neg fun hwf => ?_)
    obtain ⟨hd, ha⟩ : d.toNat + n.toNat ≤ 16 ∧ a.toNat + n.toNat ≤ 16 := by
      simp only [Instr.wellFormed, Bool.and_eq_true, decide_eq_true_eq] at hwf
      exact hwf
    omega
  · exact dif_neg hn

namespace Machine

/-! The schedule. -/

/-- One round of `KeyExpand`, word by word (R171). -/
theorem wordOf_nextKey (r : Nat) (p : Block) :
    wordOf (nextKey r p) 0 = wordOf p 0 ^^^ (rotWord (subWord (wordOf p 3)) ^^^ (rcon r).setWidth 32) ∧
    wordOf (nextKey r p) 1 = wordOf p 1 ^^^ wordOf (nextKey r p) 0 ∧
    wordOf (nextKey r p) 2 = wordOf p 2 ^^^ wordOf (nextKey r p) 1 ∧
    wordOf (nextKey r p) 3 = wordOf p 3 ^^^ wordOf (nextKey r p) 2 := by
  simp [nextKey, wordOf_blockOfWords]

/-! Runs of V registers and slices of memory, by position. -/

/-- The register k places after `r` in a run that stays inside the file (R181). -/
theorem regAfter_eq {r a : VReg} {k : Nat} (h : a.val = r.val + k) : regAfter r k = a := by
  apply Fin.ext
  simp only [regAfter, Fin.ofNat]
  omega

/-- Place k of a run written from the old Blocks of another gets its own Block's result, however the two overlap (R181): the sources
are read from the state before any write. -/
theorem writeRun_readRun_getV (enc : Block → Block) {vd va d a : VReg} {n k : Nat} (s : State)
    (hrun : vd.val + n ≤ 16) (hk : k < n) (hd : d.val = vd.val + k) (ha : a.val = va.val + k) :
    (writeRun vd 0 ((readRun va n s).map enc) s).getV d = enc (s.getV a) := by
  rw [writeRun_getV vd d 0 k _ s (by simpa [readRun] using hk) hd (by simpa [readRun] using hrun)]
  simp [readRun, regAfter_eq ha]

/-- The Block at an address is the one whose bytes are there (20_memory.md R50). -/
theorem ofNat_readLE_eq {m : Memory} {a : Nat} {b : Block} (h : ∀ k < 16, byteOf b k = m.read (a + k)) :
    BitVec.ofNat 128 (m.readLE a 16) = b :=
  block_ext_bytes fun k hk => by rw [h k hk, byteOf, byteOf_readLE m a 16 k le_rfl, if_pos hk]

/-- Byte k of Block i of the slice after the loop of `ENCS` (R182, R186). -/
theorem read_encryptSlice_block (enc : Block → Block) {m : Memory} {base count i k : Nat} {old : Block} (hi : i < count)
    (hold : ∀ k < 16, byteOf old k = m.read (base + 16 * i + k)) (hk : k < 16) :
    (encryptSlice enc m base count).read (base + 16 * i + k) = byteOf (enc old) k := by
  have hblock : (base + 16 * i + k - base) / 16 = i := by omega
  have hbyte : (base + 16 * i + k - base) % 16 = k := by omega
  rw [read_encryptSlice, if_pos (by omega), hblock, hbyte, ofNat_readLE_eq hold, byteOf]

/-- The loop of `ENCS` changes bytes of the slice alone (R182). -/
theorem encryptSlice_only (enc : Block → Block) (base count : Nat) (s : State) :
    OnlyChanges (fun p => ∃ a, p = .dmem a ∧ base ≤ a ∧ a < base + 16 * count) s
      (s.setDmem (encryptSlice enc s.dmem base count)) :=
  setDmem_only fun a ha => by rw [read_encryptSlice, if_neg ha]

/-! The checks. -/

section
variable {i : Instr} {s : State} {k : Path → Result}

/-- A whole-cipher instruction on an engine without a backend (R170). -/
theorem Raises.of_withPath_none (h : exec i s = withPath i s k) (hx : s.cfg.hasX86Aes = false) (ha : s.cfg.hasArmAes = false) :
    Raises i s .unsupportedHardware (wordInfo i) :=
  .of_eq (h.trans (withPath_none (pathOf_none hx ha)))

/-- An encryption instruction with a backend and `RDY` clear (R180 to R182). -/
theorem Raises.of_withCipher_notReady (h : exec i s = withCipher i s k)
    (hb : s.cfg.hasX86Aes = true ∨ s.cfg.hasArmAes = true) (hr : s.rdy = false) :
    Raises i s .cipherNotReady (wordInfo i) := by
  obtain ⟨p, hp⟩ := pathOf_some hb
  exact .of_eq (h.trans (withCipher_notReady hp hr))

end

/-- `ENCM` with both runs inside the register file (R181): what is left are the two checks. -/
theorem exec_encm {s : State} {vd va : VReg} {n : Fin 9} (hd : vd.val + n.val ≤ 16) (ha : va.val + n.val ≤ 16) :
    exec (.encm vd va n) s = withCipher (.encm vd va n) s fun p =>
      finish (writeRun vd 0 ((readRun va n.val s).map (encryptOn p s.rk)) s) :=
  if_pos (by simp [Instr.wellFormed, hd, ha])

/-! The meanings past the checks, by the reference functions (R174, R179). -/

section
variable {s : State} (hb : s.cfg.hasX86Aes = true ∨ s.cfg.hasArmAes = true)
include hb

/-- `KEXP` with `RDY` clear (R175). -/
theorem exec_kexp_unlocked (va : VReg) (hr : s.rdy = false) :
    exec (.kexp va) s = finish (s.setKeys (keyExpand (s.getV va))) := by
  obtain ⟨p, hp⟩ := pathOf_some hb
  rw [← keyExpandOn_eq p]
  exact (withPath_some hp).trans (if_neg (by simp [hr]))

/-- `KEXP` with `RDY` set (R175). -/
theorem exec_kexp_locked (va : VReg) (hr : s.rdy = true) :
    exec (.kexp va) s = raiseWord .keyScheduleLocked (.kexp va) s := by
  obtain ⟨p, hp⟩ := pathOf_some hb
  exact (withPath_some hp).trans (if_pos hr)

variable (hr : s.rdy = true)
include hr

/-- `ENCB` with `RDY` set (R180). -/
theorem exec_encb_ready (vd va : VReg) : exec (.encb vd va) s = finish (s.setV vd (encrypt s.rk (s.getV va))) := by
  obtain ⟨p, hp⟩ := pathOf_some hb
  rw [← encryptOn_eq p]
  exact withCipher_ready hp hr

/-- `ENCM` with `RDY` set (R181). -/
theorem exec_encm_ready {vd va : VReg} {n : Fin 9} (hd : vd.val + n.val ≤ 16) (ha : va.val + n.val ≤ 16) :
    exec (.encm vd va n) s = finish (writeRun vd 0 ((readRun va n.val s).map (encrypt s.rk)) s) := by
  obtain ⟨p, hp⟩ := pathOf_some hb
  rw [exec_encm hd ha, withCipher_ready hp hr, encryptOn_eq]

/-- `ENCS` of an empty slice, whatever its base (R182). -/
theorem exec_encs_empty {xa xn : XReg} (hc : (s.getX xn).toNat = 0) : exec (.encs xa xn) s = finish s := by
  obtain ⟨p, hp⟩ := pathOf_some hb
  exact (withCipher_ready hp hr).trans (if_pos hc)

/-- `ENCS` of a slice that its check refuses (R182). -/
theorem exec_encs_refused {xa xn : XReg} {f : Cause} {info : Word} (hc : (s.getX xn).toNat ≠ 0)
    (h : sliceCheck s (s.getX xa) (s.getX xn).toNat = some (f, info)) : exec (.encs xa xn) s = raise f info s := by
  obtain ⟨p, hp⟩ := pathOf_some hb
  refine (withCipher_ready hp hr).trans ((if_neg hc).trans ?_)
  rw [h]

/-- `ENCS` of a slice that its check passes, the empty one included: the loop over no Block leaves the memory as it is (R182). -/
theorem exec_encs_slice {xa xn : XReg} (h : sliceCheck s (s.getX xa) (s.getX xn).toNat = none) :
    exec (.encs xa xn) s =
      finish (s.setDmem (encryptSlice (encrypt s.rk) s.dmem (s.getX xa).toNat (s.getX xn).toNat)) := by
  by_cases hc : (s.getX xn).toNat = 0
  · rw [exec_encs_empty hb hr hc, hc]
    rfl
  · obtain ⟨p, hp⟩ := pathOf_some hb
    refine (withCipher_ready hp hr).trans ((if_neg hc).trans ?_)
    rw [h, encryptOn_eq]

end

end Machine

end Sys2Proof
end

section
/-! The statements of the family 44_aes_cipher_ops.md, settled. -/

namespace Sys2Proof.Machine

/-- Settles O45: the constants are computed, and each round key is `nextKey` of the one before, read word by word. -/
theorem keyExpansionFollowsRecurrence : Obligations.KeyExpansionFollowsRecurrence := by
  refine ⟨by decide, fun key => ⟨schedule_get nextKey key 0, fun r => ?_⟩⟩
  simp only [keyExpand, schedule_get]
  exact wordOf_nextKey (r.val + 1) (roundKey nextKey key r.val)

/-- Settles O46: what a path computes is the reference's, for the one path and for the other. -/
theorem cipherPathsAgree : Obligations.CipherPathsAgree :=
  ⟨fun key => ⟨keyExpandOn_eq .x86 key, keyExpandOn_eq .arm key⟩,
    fun rk p => ⟨congrFun (encryptOn_eq .x86 rk) p, congrFun (encryptOn_eq .arm rk) p⟩⟩

/-- Settles O50, by the check that stops it or none. -/
theorem kexpBuildsTheSchedule : Obligations.KexpBuildsTheSchedule := by
  refine ⟨fun va => fmtR_zero_zero_toWord ..,
    fun s va => ⟨fun hb hr => ?unlocked, fun hb hr => ?locked, fun hx ha => ?noBackend⟩⟩
  case unlocked => exact .of_finish (exec_kexp_unlocked hb va hr) rfl ⟨rfl, rfl⟩ (setKeys_only _ s)
  case locked => exact .of_eq (exec_kexp_locked hb va hr)
  case noBackend => exact .of_withPath_none rfl hx ha

/-- Settles O51, by the check that stops it or none. -/
theorem encbEncryptsOneBlock : Obligations.EncbEncryptsOneBlock := by
  refine ⟨fun vd va => fmtR_zero_toWord ..,
    fun s vd va => ⟨fun hb hr => ?ready, fun hb hr => ?notReady, fun hx ha => ?noBackend⟩⟩
  case ready => exact .of_setV (exec_encb_ready hb hr vd va)
  case notReady => exact .of_withCipher_notReady rfl hb hr
  case noBackend => exact .of_withPath_none rfl hx ha

/-- Settles O52, by the check that stops it or none: the run written is made of old Blocks, so overlap does not matter. -/
theorem encmEncryptsTheRun : Obligations.EncmEncryptsTheRun := by
  refine ⟨fun vd va n => fmtR_toWord .., fun d a n h => ⟨_, decodeWord_encm_of_gt h⟩,
    fun s vd va n hd ha => ⟨fun hb hr => ?ready, fun hb hr => ?notReady, fun hx ha' => ?noBackend⟩⟩
  case ready =>
    refine .of_finish (exec_encm_ready hb hr hd ha) ?_ ?_ (writeRun_only vd n _ s (by simp [readRun]) hd)
    · rw [writeRun_frame]
    · exact fun d a k hk hd' ha' => writeRun_readRun_getV (encrypt s.rk) s hd hk hd' ha'
  case notReady => exact .of_withCipher_notReady (exec_encm hd ha) hb hr
  case noBackend => exact .of_withPath_none (exec_encm hd ha) hx ha'

/-- Settles O53: the empty slice, and the slice that passes its check. -/
theorem encsEncryptsTheSlice : Obligations.EncsEncryptsTheSlice := by
  refine ⟨fun xa xn => fmtR_zero_toWord .., fun s xa xn hb hr => ⟨fun hc => ?empty, fun ha hin => ?slice⟩⟩
  case empty => exact .of_finish (exec_encs_empty hb hr hc) rfl trivial (.refl _ s)
  case slice =>
    refine .of_finish (exec_encs_slice hb hr (sliceCheck_none.mpr ⟨ha, hin⟩)) rfl ?_ (encryptSlice_only _ _ _ s)
    exact fun i hi old hold k hk => read_encryptSlice_block (encrypt s.rk) hi hold hk

/-- Settles O54: the two checks of every encryption instruction, then the two answers of the slice's check. -/
theorem encsFaultsInOrder : Obligations.EncsFaultsInOrder := by
  refine fun s xa xn => ⟨fun hb => ?noBackend, fun hb hr => ?notReady, fun hb hr hc ha => ?misaligned,
    fun hb hr hc ha hout => ?range⟩
  case noBackend =>
    obtain ⟨hx, ha⟩ := not_or.mp hb
    exact .of_withPath_none rfl (Bool.eq_false_of_not_eq_true hx) (Bool.eq_false_of_not_eq_true ha)
  case notReady => exact .of_withCipher_notReady rfl hb hr
  case misaligned => exact .of_eq (exec_encs_refused hb hr hc (sliceCheck_some.mpr (.inl ⟨ha, rfl, rfl⟩)))
  case range => exact .of_eq (exec_encs_refused hb hr hc (sliceCheck_some.mpr (.inr ⟨ha, hout, rfl, rfl⟩)))

/-- Settles O47: the reference is run once, and both paths agree with it. -/
theorem knownAnswerTest : Obligations.KnownAnswerTest := by
  obtain ⟨hkeys, hblocks⟩ := cipherPathsAgree
  simp only [Obligations.KnownAnswerTest, hkeys, hblocks, and_self]
  decide +kernel

end Sys2Proof.Machine
end

section
/-! SUPPORT. Moves, memory and control (45_move_memory_control.md R201 to R220): the words of their formats, the words that are no
instruction, and what a move, a load, a store and a control transfer leave. -/

namespace Sys2Proof

/-! The words of formats J, M and MV (30_encoding.md R72). -/

/-- The word of format J, whose two register nibbles are zero. -/
theorem fmtImm16_zero_toWord (op : BitVec 8) (imm : BitVec 16) : (fmtImm16 op 0 0 imm).toWord = op ++ 0#8 ++ imm := by
  apply BitVec.eq_of_toNat_eq
  rw [fmtImm16_toWord]
  simp only [toNat_append_add, BitVec.ofNat_eq_ofNat, BitVec.toNat_ofNat]
  omega

/-- The word of formats M and MV: two registers, and a width code or zero before the displacement. -/
theorem fmtImm12_mem_toWord (op : BitVec 8) (a b c : BitVec 4) (imm : BitVec 12) :
    (fmtImm12 op a b c imm).toWord = op ++ a ++ b ++ c ++ imm := by
  apply BitVec.eq_of_toNat_eq
  have := imm.isLt
  simp only [fmtImm12, Fields.toWord, toNat_append_add, toNat_extract]
  omega

theorem encode_ldx (w : Width) (xd xa : XReg) (d : BitVec 12) :
    encode (.ldx w xd xa d) = 0x14#8 ++ regCode xd ++ regCode xa ++ w.code ++ d := by
  rw [encode, encodeFields_ldx]
  exact fmtImm12_mem_toWord ..

theorem encode_stx (w : Width) (xs xa : XReg) (d : BitVec 12) :
    encode (.stx w xs xa d) = 0x15#8 ++ regCode xs ++ regCode xa ++ w.code ++ d := by
  rw [encode, encodeFields_stx]
  exact fmtImm12_mem_toWord ..

/-! What the words of `CSRW` and `ADDI` decode to. -/

/-- `CSRW` of a CSR other than `CTRL` is no instruction (30_encoding.md R80). -/
theorem decodeWord_csrw_error (a : BitVec 4) {n : BitVec 12} (h : n ≠ 1) :
    ∃ e, decodeWord (0x05#8 ++ a ++ 0#8 ++ n) = .error e := by
  refine exists_error_of_ne_ok fun i hi => h ?_
  rw [← fmtImm12_toWord, decodeWord, Fields.ofWord_toWord] at hi
  obtain ⟨-, hcsr⟩ := needZero_ok.mp hi
  obtain ⟨csr, hn, hlegal⟩ := needCsr_ok.mp hcsr
  obtain ⟨hctrl, -⟩ := needLegal_ok.mp hlegal
  rw [imm12_fmtImm12] at hn
  rw [hn, show csr = .ctrl from beq_iff_eq.mp hctrl]
  rfl

/-- Format I has no must-be-zero nibble and no code, so the opcode of `ADDI` decides (30_encoding.md R78). -/
theorem decodeWord_addi {w : InstrWord} (h : w.extractLsb' 24 8 = 0x12) :
    decodeWord w = .ok (.addi (regOf (Fields.ofWord w).a) (regOf (Fields.ofWord w).b) (Fields.ofWord w).imm16) := by
  have hop : (Fields.ofWord w).op = 0x12#8 := h
  simp only [decodeWord, decodeFields, hop]

namespace Machine

variable {i : Instr} {s : State}

/-! Moves. -/

/-- An instruction that ends with a word written to one register. -/
theorem Completes.of_setX {xd : XReg} {a : Word} (h : exec i s = finish (s.setX xd a)) :
    Completes i s (· = .x xd) fun t => t.getX xd = a :=
  .of_finish h rfl (by simp) (setX_only xd a s)

/-- A sign-extended immediate is added as the integer it stands for, modulo 2^128 (R203, R204). -/
theorem toNat_add_signExtend {n : Nat} (a : Word) (d : BitVec n) :
    ((a + d.signExtend 128).toNat : Int) = ((a.toNat : Int) + d.toInt) % 2 ^ 128 := by
  rw [BitVec.toNat_add, BitVec.signExtend, BitVec.toNat_ofInt]
  omega

/-! `CSRW`. -/

theorem readCsr_ctrl_writeCtrl (a : Word) (s : State) : readCsr .ctrl (writeCtrl a s) = a &&& 1 :=
  BitVec.and_one_eq_setWidth_ofBool_getLsbD.symm

/-- With fewer than two backends `BSEL` selects nothing (44_aes_cipher_ops.md R170). -/
theorem pathOf_setBsel (b : Bool) (h : ¬ (s.cfg.hasX86Aes = true ∧ s.cfg.hasArmAes = true)) :
    pathOf (s.setBsel b) = pathOf s := by
  unfold pathOf
  rcases not_and_or.mp h with hx | ha
  · simp [hx]
  · simp [ha]

/-! Control transfers. -/

/-- What a control transfer leaves when it is taken, and when it is not (R209). -/
theorem branchIf_transfers {taken : Bool} {off : BitVec 16} {P : Prop} (h : exec i s = branchIf taken off s)
    (hP : taken = true ↔ P) :
    ∃ t, exec i s = .next t ∧ OnlyChanges (· = .pc) s t ∧
      (P → (t.pc.toNat : Int) = ((s.pc.toNat : Int) + 4 * off.toInt) % 2 ^ 32) ∧
      (¬ P → t.pc.toNat = (s.pc.toNat + 4) % 2 ^ 32) := by
  refine ⟨_, h.trans (branchIf_eq taken off s), setPc_only _ s, fun hp => ?taken, fun hp => ?notTaken⟩
  case taken =>
    rw [State.setPc_pc, if_pos (hP.mpr hp)]
    exact branchTarget_toNat off s
  case notTaken =>
    rw [State.setPc_pc, if_neg (mt hP.mp hp)]
    exact BitVec.toNat_add ..

/-! Loads and stores at an address that is aligned and in range. -/

theorem ldx_completes {w : Width} {xa : XReg} {d : BitVec 12} (xd : XReg)
    (ha : (effectiveAddress xa d s).toNat % widthBytes w = 0)
    (hr : (effectiveAddress xa d s).toNat + widthBytes w ≤ s.cfg.dmemBytes) :
    Completes (.ldx w xd xa d) s (· = .x xd) fun t =>
      t.getX xd = BitVec.ofNat 128 (s.dmem.readLE (effectiveAddress xa d s).toNat (widthBytes w)) :=
  .of_setX ((exec_ldx w xd xa d s).trans (memRead_ok ha hr))

theorem vld_completes {xa : XReg} {d : BitVec 12} (vd : VReg) (ha : (effectiveAddress xa d s).toNat % 16 = 0)
    (hr : (effectiveAddress xa d s).toNat + 16 ≤ s.cfg.dmemBytes) :
    Completes (.vld vd xa d) s (· = .v vd) fun t =>
      t.getV vd = BitVec.ofNat 128 (s.dmem.readLE (effectiveAddress xa d s).toNat 16) :=
  .of_setV (memRead_ok (k := fun v => finish (s.setV vd v)) ha hr)

/-- An instruction that ends with a store leaves the bytes of the value, lowest first, where it stored (20_memory.md R53). -/
theorem Completes.of_memWrite {addr : Word} {n v : Nat} (h : exec i s = memWrite s addr n v finish)
    (ha : addr.toNat % n = 0) (hr : addr.toNat + n ≤ s.cfg.dmemBytes) :
    Completes i s (fun p => ∃ a, p = .dmem a ∧ addr.toNat ≤ a ∧ a < addr.toNat + n) fun t =>
      ∀ k < n, t.dmem.read (addr.toNat + k) = BitVec.ofNat 8 (v / 256 ^ k) := by
  refine .of_finish (h.trans (memWrite_ok ha hr)) rfl (fun k hk => ?bytes) (setDmem_only fun a ha => ?frame)
  case bytes =>
    rw [State.advance_dmem, State.setDmem_dmem, Memory.read_writeLE, if_pos (by omega), Nat.add_sub_cancel_left]
  case frame => rw [Memory.read_writeLE, if_neg ha]

/-- Byte k of a stored Block is byte k of the Block (R208). -/
theorem ofNat_div_eq_byteOf (b : Block) (k : Nat) : BitVec.ofNat 8 (b.toNat / 256 ^ k) = byteOf b k := by
  apply BitVec.eq_of_toNat_eq
  rw [byteOf_toNat, BitVec.toNat_ofNat]

end Machine

end Sys2Proof
end

section
/-! The statements of the family 45_move_memory_control.md, settled. -/

namespace Sys2Proof.Machine

/-- Settles O30: the value that the check lets through, byte by byte. -/
theorem loadsReadLittleEndianBytes : Obligations.LoadsReadLittleEndianBytes := by
  refine ⟨encode_ldx, fun vd xa d => fmtImm12_mem_toWord .., fun s w xd vd xa d =>
    ⟨toNat_add_signExtend _ d, fun ha hr => ?ldx, fun ha hr => ?vld⟩⟩
  case ldx =>
    refine (ldx_completes xd ha hr).weaken fun t ht k _ => ?_
    rw [ht, byteOf, byteOf_readLE _ _ _ _ (widthBytes_le w)]
  case vld =>
    refine (vld_completes vd ha hr).weaken fun t ht k hk => ?_
    rw [ht, byteOf, byteOf_readLE _ _ _ _ le_rfl, if_pos hk]

/-- Settles O31: a store of the source, whose low bytes are those of the register. -/
theorem storesWriteLittleEndianBytes : Obligations.StoresWriteLittleEndianBytes := by
  refine ⟨encode_stx, fun vs xa d => fmtImm12_mem_toWord .., fun s w xs vs xa d =>
    ⟨toNat_add_signExtend _ d, fun ha hr => ?stx, fun ha hr => ?vst⟩⟩
  case stx =>
    exact (Completes.of_memWrite (exec_stx w xs xa d s) ha hr).weaken fun t ht k hk => (ht k hk).trans (byte_readW hk xs s)
  case vst => exact (Completes.of_memWrite rfl ha hr).weaken fun t ht k hk => (ht k hk).trans (ofNat_div_eq_byteOf _ k)

/-- Settles O28: each is a control transfer under its own test. -/
theorem branchesTransferControl : Obligations.BranchesTransferControl := by
  refine ⟨fun off => ⟨fmtImm16_zero_toWord .., fmtImm16_zero_toWord .., fmtImm16_zero_toWord ..⟩,
    fun xa off => ⟨fmtImm16_toWord .., fmtImm16_toWord ..⟩, fun s xa off => ⟨?jmp, ?bz, ?bnz, ?bc, ?bnc⟩⟩
  case jmp => exact branchIf_transfers (taken := true) rfl (by simp)
  case bz => exact branchIf_transfers rfl (by simp [← BitVec.toNat_inj])
  case bnz => exact branchIf_transfers rfl (by simp [← BitVec.toNat_inj])
  case bc => exact branchIf_transfers rfl Iff.rfl
  case bnc => exact branchIf_transfers rfl (by simp)

/-- Settles O29: each ends with one register written. -/
theorem movesWriteTheirDestination : Obligations.MovesWriteTheirDestination := by
  refine ⟨fun xd imm => fmtImm16_toWord .., fun xd xa => fmtR_zero_toWord .., fun xd xa imm => fmtImm16_toWord ..,
    fun w h => ⟨_, _, _, decodeWord_addi h⟩, fun s xd xa imm => ⟨?li, ?movx, ?addi⟩⟩
  case li =>
    refine (Completes.of_setX rfl).weaken fun t ht => ?_
    rw [ht, BitVec.toNat_setWidth_of_le (by decide)]
  case movx => exact .of_setX rfl
  case addi =>
    refine (Completes.of_setX rfl).weaken fun t ht => ?_
    rw [ht]
    exact toNat_add_signExtend _ imm

/-- Settles O27: `CSRW CTRL` sets `BSEL` alone, and the path reads `BSEL` only on an engine with both backends. -/
theorem csrWriteReachesBselAlone : Obligations.CsrWriteReachesBselAlone :=
  ⟨fun _ => fmtImm12_toWord .., fun a _ h => decodeWord_csrw_error a h, fun s xa =>
    .of_finish rfl rfl ⟨rfl, readCsr_ctrl_writeCtrl (s.getX xa) s, pathOf_setBsel _⟩ (setBsel_only _ s)⟩

/-- Settles O24: the engine is HALTED, so it takes no step, and the host may write the pc and start it. -/
theorem haltStopsTheEngine : Obligations.HaltStopsTheEngine := by
  refine ⟨rfl, fun s => ⟨(s.setRun .halted).advance, rfl, rfl, rfl, (setRun_only _ s).trans (advance_only _),
    fun u hu => ?noStep, ⟨_, rfl, rfl, setRun_only _ _⟩, fun v => ⟨_, _, rfl, rfl, rfl, rfl⟩⟩⟩
  case noStep => cases running_of_step hu

/-- Settles O25: each ends with `C` written. -/
theorem carryClearsAndSets : Obligations.CarryClearsAndSets :=
  ⟨rfl, rfl, fun s => ⟨.of_finish rfl rfl rfl (setC_only _ s), .of_finish rfl rfl rfl (setC_only _ s)⟩⟩

end Sys2Proof.Machine
end

section
/-! SUPPORT. Faults and the host (60_exceptions.md R231, R236, R237, R250): the codes of the causes, a step that faults, refused
accesses, and where the host's operations are allowed. -/

namespace Sys2Proof.Machine

variable {i : Instr} {s t : State} {f : Cause}

/-! Faults. -/

/-- The codes of the faults (R230). -/
theorem causeCode_of_ne_noFault (h : f ≠ .noFault) : 1 ≤ (causeCode f).toNat ∧ (causeCode f).toNat ≤ 7 := by
  cases f with
  | noFault => exact absurd rfl h
  | _ => decide

/-- A step that ends in FAULTED takes a fault, and does nothing else: one that completes ends in RUNNING or HALTED. -/
theorem step_faulted (h : step s = .next t) (ht : t.run = .faulted) :
    ∃ f info, f ≠ .noFault ∧ t = takeFault f info s := by
  obtain ⟨hrun, ⟨-, rfl⟩ | ⟨-, -, rfl⟩ | ⟨-, i, -, he⟩⟩ := step_cases h
  · exact ⟨_, _, by decide, rfl⟩
  · exact ⟨_, _, by decide, rfl⟩
  · rcases (exec_effect he).run with hr | ⟨-, hr⟩ | ⟨f, info, hf, rfl⟩
    · rw [hr, hrun] at ht; cases ht
    · rw [hr] at ht; cases ht
    · exact ⟨f, info, hf.ne_noFault, rfl⟩

/-- An access of data memory that its check refuses. -/
theorem Raises.of_memRead {addr : Word} {n : Nat} {k : Word → Result} (h : exec i s = memRead s addr n k)
    (hc : accessCheck s addr n = some f) : Raises i s f addr :=
  .of_eq (h.trans (memRead_fault hc))

theorem Raises.of_memWrite {addr : Word} {n v : Nat} {k : State → Result} (h : exec i s = memWrite s addr n v k)
    (hc : accessCheck s addr n = some f) : Raises i s f addr :=
  .of_eq (h.trans (memWrite_fault hc))

theorem ldx_stx_raise {w : Width} {xa : XReg} {d : BitVec 12} (xd : XReg)
    (hc : accessCheck s (effectiveAddress xa d s) (widthBytes w) = some f) :
    Raises (.ldx w xd xa d) s f (effectiveAddress xa d s) ∧ Raises (.stx w xd xa d) s f (effectiveAddress xa d s) :=
  ⟨.of_memRead (exec_ldx w xd xa d s) hc, .of_memWrite (exec_stx w xd xa d s) hc⟩

theorem vld_vst_raise {xa : XReg} {d : BitVec 12} (vd : VReg)
    (hc : accessCheck s (effectiveAddress xa d s) 16 = some f) :
    Raises (.vld vd xa d) s f (effectiveAddress xa d s) ∧ Raises (.vst vd xa d) s f (effectiveAddress xa d s) :=
  ⟨.of_memRead (k := fun v => finish (s.setV vd v)) rfl hc, .of_memWrite rfl hc⟩

/-! The host. -/

theorem idle_iff : idle s = true ↔ s.run ≠ .running := by simp [idle]

/-- A memory access of the host is allowed outside RUNNING, at an address that exists (R250). -/
theorem idle_and_lt_iff {a size : Nat} : (idle s && decide (a < size)) = true ↔ s.run ≠ .running ∧ a < size := by
  simp [idle_iff]

theorem hostStart_of_halted (h : s.run = .halted) : hostStart s = s.setRun .running := if_pos h

theorem hostStart_of_ne_halted (h : s.run ≠ .halted) : hostStart s = s := if_neg h

/-- The host's write of one byte of instruction memory, which no update of the engine makes. -/
theorem imem_write_only (a : Nat) (b : Byte) (s : State) :
    OnlyChanges (· = .imem a) s { s with imem := s.imem.write a b } := by
  intro p hp
  cases p with
  | imem a' => exact (s.imem.read_write a a' b).trans (if_neg fun e => hp (congrArg Part.imem e))
  | _ => rfl

theorem dmem_write_only (a : Nat) (b : Byte) (s : State) :
    OnlyChanges (· = .dmem a) s { s with dmem := s.dmem.write a b } :=
  (setDmem_only (P := (· = a)) fun a' h => (s.dmem.read_write a a' b).trans (if_neg h)).mono
    fun _ ⟨_, hp, ha⟩ => ha ▸ hp

/-- In RUNNING the host moves by reset and by a `HostStart` that does nothing (R250). -/
theorem hostStep_running {op : HostOp} (hrun : s.run = .running) (h : hostStep op s = .next t) :
    (op = .start ∧ t = s) ∨ op = .reset := by
  cases op with
  | reset => exact .inr rfl
  | start =>
    cases h
    exact .inl ⟨rfl, hostStart_of_ne_halted (by simp [hrun])⟩
  | writeImem a b | writeDmem a b => exact absurd hrun (idle_and_lt_iff.mp (hostMove_next_iff.mp h).1).1
  | writePc v | writeCtrl v => exact absurd hrun (idle_iff.mp (hostMove_next_iff.mp h).1)

theorem hostReadDmem_eq (a : Nat) (s : State) :
    hostReadDmem a s = if s.run ≠ .running ∧ a < s.cfg.dmemBytes then some (s.dmem.read a) else none := by
  simp only [hostReadDmem, idle_and_lt_iff]

end Sys2Proof.Machine
end

section
/-! The statements of the family 60_exceptions.md, settled. -/

namespace Sys2Proof.Machine

/-- Settles O10: a step that ends in FAULTED is `takeFault`, whose frame is fault entry's. -/
theorem faultsArePrecise : Obligations.FaultsArePrecise := by
  intro s t hs ht
  obtain ⟨f, info, hf, rfl⟩ := step_faulted hs ht
  obtain ⟨hmin, hmax⟩ := causeCode_of_ne_noFault hf
  exact ⟨f, info, hmin, hmax, takeFault_entry f info s⟩

/-- Settles O6: the two conditions are those under which the step cannot fetch. -/
theorem badPcRaisesFetchFault : Obligations.BadPcRaisesFetchFault := by
  intro s hrun hbad
  have hf : fetchable s = false := by
    rw [← Bool.not_eq_true, fetchable_iff]
    omega
  exact ⟨_, step_unfetchable hrun hf, rfl, takeFault_entry ..⟩

/-- Settles O7, by the refusing case of the step. -/
theorem illegalWordRaisesIllegalInstruction : Obligations.IllegalWordRaisesIllegalInstruction :=
  fun _ _ hrun ha hr hd => ⟨_, step_illegal hrun (fetchable_iff.mpr ⟨ha, hr⟩) hd, rfl, takeFault_entry ..⟩

/-- Settles O12: the engine takes no step, and of the host's operations only reset writes `STATE` or a fault register there. -/
theorem onlyResetLeavesFaulted : Obligations.OnlyResetLeavesFaulted := by
  intro s t hfaulted hm
  cases hm with
  | engine hs =>
    have hrun := running_of_step hs
    rw [hfaulted] at hrun
    cases hrun
  | host op hs =>
    cases op with
    | reset =>
      cases hs
      exact .inl ⟨rfl, rfl⟩
    | start =>
      cases hs
      rw [hostStart_of_ne_halted (by simp [hfaulted])]
      exact .inr ⟨hfaulted, rfl, rfl, rfl⟩
    | writeImem a b | writeDmem a b | writePc v | writeCtrl v =>
      obtain ⟨-, rfl⟩ := hostMove_next_iff.mp hs
      exact .inr ⟨hfaulted, rfl, rfl, rfl⟩

/-- Settles O32: the address check tests alignment first, and each instruction raises what it answers. -/
theorem badAddressesRaiseMemoryFaults : Obligations.BadAddressesRaiseMemoryFaults := fun _ _ xd vd _ _ =>
  ⟨fun ha => ldx_stx_raise xd (accessCheck_some.mpr (.inl ⟨ha, rfl⟩)),
    fun ha hr => ldx_stx_raise xd (accessCheck_some.mpr (.inr ⟨ha, hr, rfl⟩)),
    fun ha => vld_vst_raise vd (accessCheck_some.mpr (.inl ⟨ha, rfl⟩)),
    fun ha hr => vld_vst_raise vd (accessCheck_some.mpr (.inr ⟨ha, hr, rfl⟩))⟩

/-- Settles O40: an instruction of the unit or a helper ends with registers and `C` written, the multiplications because a legal
one has different destinations; every other opcode is outside the range. -/
theorem arithmeticAndHelpersNeverFault : Obligations.ArithmeticAndHelpersNeverFault := by
  intro i s hwf hop
  cases i
  case cadd8 | cadd16 | cadd32 | cadd64 | cadd128 | bsub8 | bsub16 | bsub32 | bsub64 | bsub128 |
      vmov | vxor | vshufw | vsllb | vrorw | vimmw =>
    exact ⟨_, rfl, rfl, rfl, rfl, rfl, rfl⟩
  case wmul8 | wmul16 | wmul32 | wmul64 | wmul128 | cmul8 | cmul16 | cmul32 | cmul64 | cmul128 =>
    exact ⟨_, writeWide_ok _ _ (bne_iff_ne.mp hwf) _ s, rfl, rfl, rfl, rfl, rfl⟩
  all_goals exact absurd hop (of_decide_eq_false rfl)

/-- Settles O56, operation by operation. -/
theorem hostMovesWhereAllowed : Obligations.HostMovesWhereAllowed := by
  intro s
  refine ⟨fun h => ?startHalted, fun h => ?startElsewhere, fun a b hrun ha => ?writeImem, fun a b hrun ha => ?writeDmem,
    fun v hrun => ?writePc, fun v hrun => ?writeCtrl, fun op t => hostStep_running, fun a b t ha h => ?noImem,
    fun a b t ha h => ?noDmem, fun a hrun ha => ?readDmem, fun a h => ?noReadDmem, fun r hrun => ?readRegisters,
    fun r hrun => ?noReadRegisters, rfl, fun csr xd => ?readCsr⟩
  case startHalted => exact ⟨_, congrArg Host.Outcome.next (hostStart_of_halted h), rfl, setRun_only _ s⟩
  case startElsewhere => exact congrArg Host.Outcome.next (hostStart_of_ne_halted h)
  case writeImem =>
    exact ⟨_, hostMove_next_iff.mpr ⟨idle_and_lt_iff.mpr ⟨hrun, ha⟩, rfl⟩, by simp, imem_write_only a b s⟩
  case writeDmem =>
    refine ⟨_, hostMove_next_iff.mpr ⟨idle_and_lt_iff.mpr ⟨hrun, ha⟩, rfl⟩, by simp, dmem_write_only a b s, ?_⟩
    rw [hostReadDmem_eq, if_pos ⟨hrun, ha⟩]
    simp
  case writePc => exact ⟨_, hostMove_next_iff.mpr ⟨idle_iff.mpr hrun, rfl⟩, rfl, setPc_only v s⟩
  case writeCtrl => exact ⟨_, hostMove_next_iff.mpr ⟨idle_iff.mpr hrun, rfl⟩, rfl, setBsel_only _ s⟩
  case noImem | noDmem => exact ha.not_gt (idle_and_lt_iff.mp (hostMove_next_iff.mp h).1).2
  case readDmem => rw [hostReadDmem_eq, if_pos ⟨hrun, ha⟩]
  case noReadDmem =>
    refine (hostReadDmem_eq a s).trans (if_neg fun ⟨hrun, ha⟩ => ?_)
    exact h.elim hrun ha.not_ge
  case readRegisters => exact ⟨if_pos (idle_iff.mpr hrun), if_pos (idle_iff.mpr hrun)⟩
  case noReadRegisters => exact ⟨if_neg (mt idle_iff.mp (not_not.mpr hrun)), if_neg (mt idle_iff.mp (not_not.mpr hrun))⟩
  case readCsr =>
    obtain ⟨t, he, hx, -⟩ := csrr_completes xd csr s
    exact ⟨t, he, hx.symm⟩

end Sys2Proof.Machine
end

section
/-! The statement of the family 70_reset_and_hazards.md, settled. -/

namespace Sys2Proof.Machine

/-- Reset leaves the all-zero word in every register of the file (70_reset_and_hazards.md R260). -/
@[simp] theorem hostReset_getX (s : State) (r : XReg) : (hostReset s).getX r = 0 :=
  Vector.getElem_replicate r.isLt

@[simp] theorem hostReset_getV (s : State) (r : VReg) : (hostReset s).getV r = 0 :=
  Vector.getElem_replicate r.isLt

/-- Only a RUNNING engine takes a step (10_state.md R33), and reset leaves it HALTED (70_reset_and_hazards.md R260). -/
theorem step_hostReset_ne_next (s u : State) : step (hostReset s) ≠ .next u :=
  fun h => nomatch running_of_step h

/-- Settles O55: the register files hold zeros, HALTED allows no step, and every other field is its reset value or the old one. -/
theorem hostResetGivesTheResetValues : Obligations.HostResetGivesTheResetValues := by
  intro s
  refine ⟨hostReset s, rfl, fun r => ?xRegisters, fun r => ?vRegisters, rfl, rfl, rfl, rfl, rfl, rfl, rfl, rfl,
    fun _ => rfl, fun _ => rfl, rfl, step_hostReset_ne_next s⟩
  case xRegisters | vRegisters => simp

end Sys2Proof.Machine
end
